-- ==== Sys2Proof/Word.lean ====
section
/-! DEFINITION. The two word types of the WSB-FE: a byte is 8 bits, an address or a checksum 16 bits
(00_scope.md R10). Lengths and times are natural numbers (R10), so they have no type here. -/

namespace Sys2Proof

/-- A byte of the wire or of a host buffer (00_scope.md R10). -/
abbrev Byte := BitVec 8

/-- A device address or a checksum register, 16 bits (00_scope.md R10). -/
abbrev Word := BitVec 16

end Sys2Proof
end

