-- ==== Sys2Proof/Config.lean ====
section
/-! DEFINITION. What is fixed for a machine and what the spec leaves open: the constants of 00_scope.md
R5 as literals, the open parameters of R6 as constants without a body, and the free values (values the
spec calls unspecified). A constant without a body cannot be evaluated, so a claim holds whatever it is. -/

namespace Sys2Proof

/-! ### Types the open parameters speak of -/

/-- The name of a barcode standard, the `tag` of 44_scan_decoder.md R183. The source names EAN13, QR,
"dot-matrix" and Code128 and does not enumerate its "closed set of symbologies"; every further name is
`other k` (log 16). -/
inductive Symbology where
  | ean13
  | qr
  | dotMatrix
  | code128
  | other (k : Nat)
deriving DecidableEq, Repr, Inhabited

/-- A value of `CLASS_MAP`: a code is unknown, or names a linear or a matrix symbology (R6, R183). -/
inductive SymbologyClass where
  | none
  | linear (tag : Symbology)
  | matrix (tag : Symbology)
deriving DecidableEq, Repr, Inhabited

/-- The scan result of 44_scan_decoder.md R184. A line is kept as its byte sequence (30_encoding.md R90). -/
inductive ScanResult where
  | linear (code : Byte) (tag : Symbology) (line : List Byte)
  | matrix (code : Byte) (tag : Symbology) (lines : List (List Byte))
deriving DecidableEq, Repr, Inhabited

/-- How an operation ended: the outcomes of 60_exceptions.md R200 (the source's seven error kinds), R201
(the spec's own two) and R202 (the three that are not errors). -/
inductive OutcomeCode where
  | ok
  | noData
  | noResult
  | eIo
  | eShort
  | eHeader
  | eStatus
  | eCrc
  | eUnsupported
  | eRange
  | ePartial
  | refused
deriving DecidableEq, Repr, Inhabited

/-- What becomes of a byte that arrives while a finite receive queue is full: "any value (dropped, or
overwrites)" (93_implementation_defined.md U13). -/
inductive OverflowFate where
  | dropNew
  | overwriteOldest
  | overwriteNewest
deriving DecidableEq, Repr, Inhabited

namespace Config

/-! ### Constants of 00_scope.md R5 -/

/-- `START`, first byte of every command frame. -/
def start : Byte := 0x7E
/-- `RSVD`, second byte of every command frame and of every reply. -/
def rsvd : Byte := 0x00
/-- `REPLY_HDR`, first byte of every reply. -/
def replyHdr : Byte := 0x02
/-- `FT_READ`. -/
def ftRead : Byte := 0x07
/-- `FT_WRITE`. -/
def ftWrite : Byte := 0x08
/-- `FT_PERSIST`. -/
def ftPersist : Byte := 0x09
/-- `ADDR_FACTORY_RESET`. -/
def addrFactoryReset : Word := 0x00D9
/-- `VAL_FACTORY_RESET`. -/
def valFactoryReset : Byte := 0x50
/-- `STATUS_OK`. -/
def statusOk : Byte := 0x00
/-- `CRC_POLY`. -/
def crcPoly : Word := 0x1021
/-- `CRC_INIT`. -/
def crcInit : Word := 0x0000
/-- `CRC_SKIP`, the sentinel checksum. -/
def crcSkip : Word := 0xABCD
/-- `ENVELOPE`, reply bytes that are not payload. -/
def envelope : Nat := 6
/-- `ACK_REPLY_LEN`, length of the reply to a write command. -/
def ackReplyLen : Nat := 7
/-- `MAX_LEN`, largest payload or requested length. -/
def maxLen : Nat := 256
/-- `LF`. -/
def lf : Byte := 0x0A
/-- `CR`. -/
def cr : Byte := 0x0D
/-- `NO_RESULT_CODE`. -/
def noResultCode : Byte := 0x00
/-- `CLASS_EAN13`. -/
def classEan13 : Byte := 0x64
/-- `CLASS_QR`. -/
def classQr : Byte := 0x51
/-- The third point of `CLASS_MAP` the source fixes: 0x99 is not recognised (30_encoding.md R93). -/
def classUnknown : Byte := 0x99
/-- `POLL_MS`, the per-read poll timeout (42_transport.md R140, R143; hardwired, 10_state.md R28). -/
def pollMs : Nat := 100
/-- `TIMEOUT_DEFAULT_MS`. -/
def timeoutDefaultMs : Nat := 5000
/-- `TIMEOUT_MIN_MS`. -/
def timeoutMinMs : Nat := 1
/-- `TIMEOUT_MAX_MS`. -/
def timeoutMaxMs : Nat := 25500
/-- `TIMEOUT_UNIT_MS`. -/
def timeoutUnitMs : Nat := 100
/-- `BAUD`: "fixed, not negotiable at runtime"; 8 data bits, no parity, 1 stop bit, no flow control
(10_state.md R28, 42_transport.md R140). No operation reads or writes it. -/
def baud : Nat := 9600

/-! ### Open parameters of 00_scope.md R6

They stand in `State.params`, `Channel.rxDepth` and `Channel.tick`, so that claims range over every value;
the constants below are what `State.reset` holds there (log 14). -/

/-- `ADDR_SCAN_TRIGGER` (D12): "a model must not guess" it. -/
opaque addrScanTrigger : Word
/-- `ADDR_SCAN_TIMEOUT` (D12). -/
opaque addrScanTimeout : Word
/-- `ADDR_DECODE_OPTS` (D12). -/
opaque addrDecodeOpts : Word
/-- First byte of `VAL_DECODE_OPTS`, a sequence of length 1..256 (R6; log 15). -/
opaque decodeOptsHead : Byte
/-- The further bytes of `VAL_DECODE_OPTS` (log 15). -/
opaque decodeOptsTail : List Byte
/-- `CLASS_MAP` outside the points the source fixes, as a table; a code not listed is unknown (D24; log 16). -/
opaque classTable : List (Byte × SymbologyClass)
/-- Which of the 252 codes other than 0x00, 0x51, 0x64, 0x99 is the matrix symbology the source calls
"dot-matrix" without printing its code (R183; log 16). -/
opaque dotMatrixIndex : Fin 252
/-- `LINEAR_SELECT`, which of several lines a linear symbology reports, as a table from lists to an index
taken modulo their length (D23; log 17). -/
opaque linearTable : List (List (List Byte) × Nat)
/-- `LINEAR_SELECT` of a list the table does not name, as such an index (log 17). -/
opaque linearIndex : List (List Byte) → Nat
/-- `TICK`, the resolution of `Now()` (D8), as the number of milliseconds above one (log 26). -/
opaque tick : Fin 101

/-! ### Free values

Each is applied to the counter `State.free` (to `Channel.lost` for the last) (log 6, 8, 18, 34). -/

/-- An unspecified `INFO` (60_exceptions.md R204, 10_state.md R22). -/
opaque freeByte : Nat → Byte
/-- An unspecified `CRCOUT` (10_state.md R22). -/
opaque freeWord : Nat → Word
/-- An unspecified `OBUF` (10_state.md R22). -/
opaque freeBytes : Nat → List Byte
/-- An unspecified `OLEN` (10_state.md R22). -/
opaque freeNat : Nat → Nat
/-- An unspecified `SCAN` (10_state.md R22). -/
opaque freeScan : Nat → ScanResult
/-- An unspecified `OUTCOME`, while an operation runs (10_state.md R22). -/
opaque freeOutcome : Nat → OutcomeCode
/-- An unspecified `SCAN_TIMEOUT`, after SESSION.CLOSE (70_reset_and_hazards.md R231). -/
opaque freeTimeout : Nat → Nat
/-- An unspecified `class_code`, "until the first byte is read" (10_state.md R27). -/
opaque freeClassCode : Nat → Byte
/-- The fate of a byte that meets a full receive queue (93_implementation_defined.md U13). -/
opaque overflowFate : Nat → OverflowFate

end Config

end Sys2Proof
end

