-- ==== Sys2Proof/Syntax.lean ====
section
/-! DEFINITION. The instructions: one constructor per row of spec/opcode_table.json. The fifteen host
operations carry no field, since `OP` is their whole encoding and their operands are registers
(30_encoding.md R95, R96); the four wire formats carry the variable fields of their frames (R81 to R84). -/

namespace Sys2Proof

inductive Instr where
  /-- CRC.COMPUTE, `OP = 0x10` (40_checksum.md R112). -/
  | crcCompute
  /-- CRC.VERIFY, `OP = 0x11` (40_checksum.md R113). -/
  | crcVerify
  /-- FRAME.BUILD, `OP = 0x12` (41_frame_codec.md R120). -/
  | frameBuild
  /-- FRAME.PARSE, `OP = 0x13` (41_frame_codec.md R123). -/
  | frameParse
  /-- TX.WRITE_ALL, `OP = 0x14` (42_transport.md R141). -/
  | txWriteAll
  /-- RX.READ_EXACT, `OP = 0x15` (42_transport.md R142). -/
  | rxReadExact
  /-- RX.READ_DEADLINE, `OP = 0x16` (42_transport.md R146). -/
  | rxReadDeadline
  /-- RX.READ_BYTE, `OP = 0x17` (42_transport.md R144). -/
  | rxReadByte
  /-- RX.DISCARD, `OP = 0x18` (42_transport.md R145). -/
  | rxDiscard
  /-- CMD.WRITE, `OP = 0x19` (43_command_reply.md R161). -/
  | cmdWrite
  /-- CMD.READ, `OP = 0x1A` (43_command_reply.md R164). -/
  | cmdRead
  /-- SCAN.READ, `OP = 0x1B` (44_scan_decoder.md R181). -/
  | scanRead
  /-- SCAN.SET_TIMEOUT, `OP = 0x1C` (44_scan_decoder.md R186). -/
  | scanSetTimeout
  /-- SESSION.OPEN, `OP = 0x1D` (70_reset_and_hazards.md R230). -/
  | sessionOpen
  /-- SESSION.CLOSE, `OP = 0x1E` (70_reset_and_hazards.md R231). -/
  | sessionClose
  /-- WIRE.WRITE, bytes `7E 00 08` (30_encoding.md R81): address, payload of 1..256 bytes, checksum field. -/
  | wireWrite (addr : Word) (payload : List Byte) (crc : Word)
  /-- WIRE.READ, bytes `7E 00 07 01` (30_encoding.md R82): address, requested length 1..256, checksum field. -/
  | wireRead (addr : Word) (rlen : Nat) (crc : Word)
  /-- WIRE.PERSIST, bytes `7E 00 09` (30_encoding.md R83): what follows is not in the source and is carried
  as it stands (log 30). -/
  | wirePersist (rest : List Byte)
  /-- WIRE.REPLY, bytes `02 00` (30_encoding.md R84): status, payload of 1..256 bytes, checksum field. -/
  | wireReply (status : Byte) (payload : List Byte) (crc : Word)
deriving DecidableEq, Repr

end Sys2Proof
end

