-- ==== Sys2Proof/Machine/State.lean ====
section
/-! DEFINITION. The state of the machine as plain data: every piece of state the spec gives the WSB-FE
(10_state.md), what the agents around it will do next (00_scope.md R9), and the open parameters (R6). -/

namespace Sys2Proof.Machine

/-! ### Host command port (10_state.md R21, R22) -/

/-- The operand registers. The host writes them before it starts an operation; the engine never does. -/
structure Operands where
  /-- `OP`, operation selector. -/
  op : Byte
  /-- `FT`, function-type byte. -/
  ft : Byte
  /-- `LEN`, declared length byte. -/
  len : Byte
  /-- `ADDR`, device address. -/
  addr : Word
  /-- `RLEN_EN`, a requested reply length is given. -/
  rlenEn : Bool
  /-- `RLEN`, requested reply length, a natural. -/
  rlen : Nat
  /-- `IBUF`, the input bytes; `ILEN` is its length. -/
  ibuf : List Byte
  /-- `EXPECT`, expected checksum. -/
  expect : Word
  /-- `CHECK`, verify the checksum. -/
  check : Bool
  /-- `CAP`, capacity of the caller's destination. -/
  cap : Nat
  /-- `N`, number of bytes to read. -/
  n : Nat
  /-- `TMO`, milliseconds. -/
  tmo : Nat
deriving DecidableEq, Repr

/-- The result registers. The engine writes them when an operation ends. -/
structure Results where
  /-- `OUTCOME`. -/
  outcome : OutcomeCode
  /-- `INFO`, 8 bits. -/
  info : Byte
  /-- `CRCOUT`, computed checksum. -/
  crcout : Word
  /-- `OBUF`, output bytes. -/
  obuf : List Byte
  /-- `OLEN`, number of valid bytes of `OBUF`. -/
  olen : Nat
  /-- `SCAN`, the typed scan result. -/
  scan : ScanResult
deriving DecidableEq, Repr

/-! ### Session and sequencer (10_state.md R24, R25, R27) -/

/-- `session`, one bit: CLOSED or OPEN. -/
inductive Session where
  | closed
  | opened
deriving DecidableEq, Repr

/-- `phase`, the names of R24: how far the running operation has come. It takes them one after the other, each
the work of one `phaseStep` (Machine/Sequencer.lean). -/
inductive Phase where
  | idle
  | build
  | tx
  | rxWait
  | parse
  | scanFirst
  | scanLines
deriving DecidableEq, Repr

/-- What a write command does once its acknowledgement is accepted: end (CMD.WRITE), set the register
(SCAN.SET_TIMEOUT, 44_scan_decoder.md R186), or open the session (SESSION.OPEN, 70_reset_and_hazards.md R230). -/
inductive AfterAck where
  | done
  | setTimeout (tmo : Nat)
  | openSession
deriving DecidableEq, Repr

/-- The fields of a command frame, sampled when an operation starts that builds one (41_frame_codec.md R120). -/
structure FrameFields where
  ft : Byte
  len : Byte
  addr : Word
  rlen : Option Nat
  payload : List Byte
deriving DecidableEq, Repr

/-- No frame to build. -/
def FrameFields.clear : FrameFields := { ft := 0x00, len := 0x00, addr := 0x0000, rlen := none, payload := [] }

/-- How much of an operation one step runs (the model's own, log 5). -/
inductive Pace where
  /-- All of it, or all up to where it waits for the link. -/
  | whole
  /-- One phase of R24. -/
  | byPhase
deriving DecidableEq, Repr

/-- Which operation is running, with the operands it sampled when it started (20_memory.md R67; the model's
own, log 5). -/
inductive Job where
  /-- No operation runs. -/
  | none
  /-- FRAME.BUILD: its fields are `Work.fields`. -/
  | frameBuild
  /-- FRAME.PARSE with this `CAP` and `CHECK`: its buffer is `Work.acc`. -/
  | frameParse (cap : Nat) (check : Bool)
  /-- TX.WRITE_ALL, or a command frame sent raw: its bytes are `Work.frame`. -/
  | send
  /-- RX.READ_DEADLINE, started at `Work.tStart`. -/
  | readDeadline (n tmo : Nat)
  /-- RX.READ_EXACT and RX.READ_BYTE: `n` bytes for the host. -/
  | readExact (n : Nat)
  /-- A write command: it awaits a 7-byte acknowledgement. -/
  | writeAck (next : AfterAck)
  /-- CMD.READ: it awaits the `n + 6` bytes of its reply. -/
  | readReply (n : Nat)
  /-- SCAN.READ, started at `Work.tStart`. -/
  | scanLines
deriving DecidableEq, Repr

/-- Transient state of R27, and what the model holds beside it of a running operation. -/
structure Work where
  /-- `crc`. -/
  crc : Word
  /-- `frame`, the bytes being sent. -/
  frame : List Byte
  /-- `acc`, the bytes read, or to be parsed. -/
  acc : List Byte
  /-- `t_start`, milliseconds. -/
  tStart : Nat
  /-- `class_code`; of a SCAN.READ that has not read its first byte a free value (log 34), of any other operation
  0x00 (log 5). -/
  classCode : Byte
  /-- `cur`, the line being accumulated. -/
  cur : List Byte
  /-- `lines`, the lines emitted so far, in order. -/
  lines : List (List Byte)
  /-- The running operation (the model's own). -/
  job : Job
  /-- The fields of the frame it has yet to build (the model's own). -/
  fields : FrameFields
  /-- How much of it one step runs (the model's own). -/
  pace : Pace
deriving DecidableEq, Repr

/-- The transient state while no operation runs, from which a starting one sets what it uses: R27's initial values;
where R27 has none, zero (log 5). -/
def Work.clear : Work :=
  { crc := Config.crcInit, frame := [], acc := [], tStart := 0, classCode := 0x00, cur := [], lines := [],
    job := .none, fields := FrameFields.clear, pace := .whole }

/-! ### The link, the time base and the receive queue (10_state.md R26, 20_memory.md R52) -/

/-- One move of the link agent or of time (00_scope.md R9), in the order of the list that holds it. An
answer at the head of the list is the link's answer to the next transfer; a transfer that finds no answer
there is accepted (log 4). -/
inductive LinkEvent where
  /-- The link appends a byte to `rx_fifo` (42_transport.md R150) once nothing else is to be done: while the
  engine waits with an empty queue, or while no operation runs. -/
  | arrive (b : Byte)
  /-- The link appends a byte before the next transfer, whatever the queue holds: while an operation
  transmits, or reads bytes that are queued (42_transport.md R150). -/
  | cutIn (b : Byte)
  /-- Time passes, `k` ticks of `Now()` (60_exceptions.md R216). -/
  | elapse (k : Nat)
  /-- The link answers the next transfer with `ok`; a poll of an empty queue returns empty-handed. -/
  | ok
  /-- The link answers the next transfer with `io_fail` (42_transport.md R149). If that transfer is a
  `TxByte`, `sent` says whether the byte went out, which R141 leaves to the link. -/
  | fail (sent : Bool)
  /-- The deadline read, its deadline passed, makes one more poll before it gives up: the order of clock
  test and poll that R147 leaves open (log 19). It means nothing elsewhere. -/
  | latePoll
deriving DecidableEq, Repr

/-- The two byte streams, the time base, and what link and time will do. -/
structure Channel where
  /-- `rx_fifo`, oldest byte first. -/
  rxFifo : List Byte
  /-- The TX stream: every byte handed to `TxByte`, in order (20_memory.md R52). -/
  tx : List Byte
  /-- `Now()`, milliseconds; it advances in whole ticks. -/
  now : Nat
  /-- What link and time do next, soonest first (the model's own). -/
  link : List LinkEvent
  /-- `RX_DEPTH`, `none` for unbounded (configuration, 10_state.md R26). -/
  rxDepth : Option Nat
  /-- `TICK`, the resolution of `Now()`: `tick + 1` milliseconds (configuration, 00_scope.md R6; log 26). -/
  tick : Fin 101
  /-- How many arrivals met a full queue (the model's own; the free value of U13 is applied to it). -/
  lost : Nat
deriving DecidableEq, Repr

/-! ### The host agent and the open parameters -/

/-- One thing presented to the machine (log 1). -/
inductive Request where
  /-- The host writes the operand registers and starts the operation `OP` selects (20_memory.md R67). -/
  | operation (operands : Operands)
  /-- The same, the operation running one phase of R24 a step (log 5). -/
  | phased (operands : Operands)
  /-- The bytes of a wire-format frame are presented on the wire side (30_encoding.md R100). -/
  | wire (bytes : List Byte)
  /-- The host lets a step pass, in which the link and time may move (42_transport.md R150; log 31). -/
  | pause
deriving DecidableEq, Repr

/-- The open parameters of 00_scope.md R6 that a model takes as arguments, beside `RX_DEPTH` and `TICK`, which
stand in `Channel`. No step writes them (log 14). -/
structure Params where
  /-- `ADDR_SCAN_TRIGGER`. -/
  addrScanTrigger : Word
  /-- `ADDR_SCAN_TIMEOUT`. -/
  addrScanTimeout : Word
  /-- `ADDR_DECODE_OPTS`. -/
  addrDecodeOpts : Word
  /-- First byte of `VAL_DECODE_OPTS`. -/
  decodeOptsHead : Byte
  /-- Further bytes of `VAL_DECODE_OPTS`; at most 255 of them are taken (log 15). -/
  decodeOptsTail : List Byte
  /-- `CLASS_MAP` outside its fixed points (log 16). -/
  classTable : List (Byte × SymbologyClass)
  /-- The code of "dot-matrix" among the 252 possible ones (log 16). -/
  dotMatrixIndex : Fin 252
  /-- `LINEAR_SELECT`, as the index of the line it returns, list by list (log 17). -/
  linearTable : List (List (List Byte) × Nat)
  /-- `LINE_CAP`, `none` for unbounded. -/
  lineCap : Option Nat
  /-- `LINES_CAP`, `none` for unbounded. -/
  linesCap : Option Nat
deriving DecidableEq, Repr

/-! ### The machine -/

structure State where
  /-- Operand registers (R21). -/
  host : Operands
  /-- Result registers (R22). -/
  result : Results
  /-- `SCAN_TIMEOUT.scan_timeout_ms` (R23). -/
  scanTimeout : Nat
  /-- `session` (R25). -/
  session : Session
  /-- `phase` (R24). -/
  phase : Phase
  /-- Transient state of the running operation (R27). -/
  work : Work
  /-- Streams, queue and time (R26, 20_memory.md R50, R52; 60_exceptions.md R216). -/
  chan : Channel
  /-- What the host presents next, oldest first (00_scope.md R9). -/
  requests : List Request
  /-- Open parameters (00_scope.md R6). -/
  params : Params
  /-- How many times unspecified values have been drawn (the model's own, log 6). -/
  free : Nat
deriving DecidableEq, Repr

/-- Why the machine stops. Only finite line capacities do it: "A model with finite capacities faults on
overflow" (decision D25, 44_scan_decoder.md R182 item 9; log 24). -/
inductive Fault where
  /-- Raised by SCAN.READ when a line would outgrow a finite `LINE_CAP`. Safe: the source has no answer. -/
  | lineOverflow
  /-- Raised by SCAN.READ when the list of lines would outgrow a finite `LINES_CAP`. Safe, as above. -/
  | linesOverflow
deriving DecidableEq, Repr

/-- Why an instruction gets no step. -/
inductive Refusal where
  /-- An instruction that has no meaning yet. Raised by `exec`'s arms only; none is left. Safe. -/
  | notModelled (mnemonic : String)
  /-- A second operation while one runs: "a model does not give the second operation a step"
  (60_exceptions.md R215, U1). Raised by every meaning but WIRE.REPLY's. Safe. -/
  | engineBusy
  /-- Bytes presented on the wire side that match no wire format of 30_encoding.md R100. Raised by the
  fetch. Safe. -/
  | unknownWireFormat
deriving DecidableEq, Repr

/-- What a meaning answers. -/
abbrev Exec := Host.Outcome State Fault Refusal

/-! ### Reset (10_state.md R33, 70_reset_and_hazards.md R233) -/

/-- Operand registers after power-on: "unspecified"; zero is the model's choice (log 9). -/
def Operands.reset : Operands :=
  { op := 0x00, ft := 0x00, len := 0x00, addr := 0x0000, rlenEn := false, rlen := 0, ibuf := [], expect := 0x0000,
    check := false, cap := 0, n := 0, tmo := 0 }

/-- Result registers after power-on: "unspecified"; the model's choice (log 10). -/
def Results.reset : Results :=
  { outcome := .ok, info := 0x00, crcout := 0x0000, obuf := [], olen := 0, scan := .matrix 0x00 .ean13 [] }

/-- The open parameters, none of them guessed (log 14); the line capacities are R27's default. -/
def Params.reset : Params :=
  { addrScanTrigger := Config.addrScanTrigger, addrScanTimeout := Config.addrScanTimeout,
    addrDecodeOpts := Config.addrDecodeOpts, decodeOptsHead := Config.decodeOptsHead,
    decodeOptsTail := Config.decodeOptsTail, classTable := Config.classTable,
    dotMatrixIndex := Config.dotMatrixIndex, linearTable := Config.linearTable, lineCap := none, linesCap := none }

/-- An empty queue, nothing sent, a link with nothing to say (logs 12, 13); `RX_DEPTH` is R26's default and
`TICK` is not guessed (log 14). -/
def Channel.reset : Channel :=
  { rxFifo := [], tx := [], now := 0, link := [], rxDepth := none, tick := Config.tick, lost := 0 }

/-- The machine after power-on: `session = CLOSED` and `phase = IDLE` (R33, R233); every other value is
unspecified there and named in logs 5 and 9 to 14. -/
def State.reset : State :=
  { host := Operands.reset, result := Results.reset, scanTimeout := Config.timeoutDefaultMs, session := .closed,
    phase := .idle, work := Work.clear, chan := Channel.reset, requests := [], params := Params.reset, free := 0 }

end Sys2Proof.Machine
end

