-- ==== Sys2Proof/Machine/Flags.lean ====
section
/-! DEFINITION. The block has no status flags (10_state.md R31). What stands in their place is what an
operation records when it ends: the outcome codes (60_exceptions.md R200 to R202) and the value an error
carries in `INFO` (R204). -/

namespace Sys2Proof.Machine

/-- The numeric code of an outcome in the `OUTCOME` register (60_exceptions.md R200, R201, R202). -/
def outcomeByte : OutcomeCode → Byte
  | .ok => 0x00
  | .noData => 0x01
  | .noResult => 0x02
  | .eIo => 0x10
  | .eShort => 0x11
  | .eHeader => 0x12
  | .eStatus => 0x13
  | .eCrc => 0x14
  | .eUnsupported => 0x15
  | .eRange => 0x16
  | .ePartial => 0x20
  | .refused => 0x21

/-- The outcomes that are not errors (60_exceptions.md R202). -/
def isError : OutcomeCode → Bool
  | .ok | .noData | .noResult => false
  | .eIo | .eShort | .eHeader | .eStatus | .eCrc | .eUnsupported | .eRange | .ePartial | .refused => true

/-- Sub-cause of a short reply (60_exceptions.md R200, R204). -/
inductive ShortCause where
  | tooShort
  | overCapacity
  | overRoom
deriving DecidableEq, Repr

/-- Sub-cause of an out-of-range configuration (60_exceptions.md R200, R204). -/
inductive RangeCause where
  | zero
  | tooLarge
deriving DecidableEq, Repr

/-- What `raise` is given: the pseudocode names of 60_exceptions.md R200 and R201. -/
inductive Error where
  | ioFailure
  | shortReply (cause : ShortCause)
  | invalidHeader
  | deviceError (code : Byte)
  | checksumMismatch
  | unsupportedType (code : Byte)
  | outOfRange (cause : RangeCause)
  | partialRead (k : Nat)
  | refused
deriving DecidableEq, Repr

/-- The outcome an error reports (60_exceptions.md R200, R201). -/
def errorOutcome : Error → OutcomeCode
  | .ioFailure => .eIo
  | .shortReply _ => .eShort
  | .invalidHeader => .eHeader
  | .deviceError _ => .eStatus
  | .checksumMismatch => .eCrc
  | .unsupportedType _ => .eUnsupported
  | .outOfRange _ => .eRange
  | .partialRead _ => .ePartial
  | .refused => .refused

/-- The value an error carries in `INFO` (60_exceptions.md R204), "unspecified" for four kinds: there it is
the free value number `k` (log 6). -/
def errorInfo (e : Error) (k : Nat) : Byte :=
  match e with
  | .deviceError code => code
  | .unsupportedType code => code
  | .shortReply .tooShort => 0
  | .shortReply .overCapacity => 1
  | .shortReply .overRoom => 2
  | .outOfRange .zero => 0
  | .outOfRange .tooLarge => 1
  | .partialRead n => BitVec.ofNat 8 n
  | .ioFailure => Config.freeByte k
  | .invalidHeader => Config.freeByte k
  | .checksumMismatch => Config.freeByte k
  | .refused => Config.freeByte k

end Sys2Proof.Machine
end

