-- ==== Sys2Proof/WellFormed.lean ====
section
/-! DEFINITION. Which instructions have an encoding: the length fields of the wire formats carry 1 to 256
(30_encoding.md R88, "A length of 0 has no encoding"). The checksum field is not checked here: a frame
whose checksum is wrong is still a frame, and a reply's checksum is tested by FRAME.PARSE (log 29). -/

namespace Sys2Proof

/-- A length that one byte can carry, with 0x00 standing for 256 (30_encoding.md R88). -/
def encodableLength (n : Nat) : Bool := 1 ≤ n && n ≤ 256

/-- The instruction has an encoding. -/
def Instr.wellFormed : Instr → Bool
  | .crcCompute | .crcVerify | .frameBuild | .frameParse => true
  | .txWriteAll | .rxReadExact | .rxReadDeadline | .rxReadByte | .rxDiscard => true
  | .cmdWrite | .cmdRead | .scanRead | .scanSetTimeout | .sessionOpen | .sessionClose => true
  | .wireWrite _ payload _ => encodableLength payload.length
  | .wireRead _ rlen _ => encodableLength rlen
  | .wirePersist _ => true
  | .wireReply _ payload _ => encodableLength payload.length

end Sys2Proof
end

