-- ==== Sys2Proof/Decode.lean ====
section
/-! DEFINITION. Decoding, total on any bytes and rejecting by name, the encoder, and the field helpers both
use. There are two ports (30_encoding.md R100): on the host side one byte, `OP`, is the whole encoding
(R95); on the wire side a frame is told by its first bytes (R80 to R84). -/

namespace Sys2Proof

/-! ### Field assembly (30_encoding.md R87, R88; 20_memory.md R54) -/

/-- `hi(v) = v[15:8]`. -/
def hi (v : Word) : Byte := v.extractLsb' 8 8

/-- `lo(v) = v[7:0]`. -/
def lo (v : Word) : Byte := v.extractLsb' 0 8

/-- The 16-bit value of two bytes, most significant first (20_memory.md R54). -/
def be (b0 b1 : Byte) : Word := b0 ++ b1

/-- `enc_len(n) = n mod 256`, so that 256 is carried as 0x00 (R88). -/
def encLen (n : Nat) : Byte := BitVec.ofNat 8 n

/-- `dec_len(b)`: 256 if `b = 0x00`, else `b` (R88). -/
def decLen (b : Byte) : Nat := if b = 0x00 then 256 else b.toNat

/-! ### Decoding -/

/-- The two sides an instruction is presented on (30_encoding.md R100). -/
inductive Port where
  | host
  | wire
deriving DecidableEq, Repr

/-- Why bytes are no instruction. -/
inductive DecodeError where
  /-- `OP` outside 0x10..0x1E (30_encoding.md R95). -/
  | reservedSelector (op : Byte)
  /-- Nothing, or more than one byte, on the host side, or too few bytes on the wire side. -/
  | truncated
  /-- First two bytes are neither `7E 00` nor `02 00` (30_encoding.md R80, R84). -/
  | unknownHeader (b0 b1 : Byte)
  /-- A command frame whose function type the source does not name (30_encoding.md R83). -/
  | unknownFunctionType (ft : Byte)
  /-- A read command whose length byte is not 0x01 (30_encoding.md R82). -/
  | badReadLength (len : Byte)
deriving DecidableEq, Repr

/-- The operation selectors of 30_encoding.md R95. -/
def hostOps : List (Byte × Instr) :=
  [(0x10, .crcCompute), (0x11, .crcVerify), (0x12, .frameBuild), (0x13, .frameParse),
   (0x14, .txWriteAll), (0x15, .rxReadExact), (0x16, .rxReadDeadline), (0x17, .rxReadByte),
   (0x18, .rxDiscard), (0x19, .cmdWrite), (0x1A, .cmdRead), (0x1B, .scanRead),
   (0x1C, .scanSetTimeout), (0x1D, .sessionOpen), (0x1E, .sessionClose)]

/-- The operation an `OP` value selects; every value not in R95 is reserved. -/
def decodeHost (op : Byte) : Except DecodeError Instr :=
  match hostOps.lookup op with
  | some i => .ok i
  | none => .error (.reservedSelector op)

/-- `n` bytes, then a big-endian checksum field, then the rest. -/
def splitChecked (n : Nat) (bytes : List Byte) : Except DecodeError (List Byte × Word × List Byte) :=
  match bytes.drop n with
  | ch :: cl :: rest => .ok (bytes.take n, be ch cl, rest)
  | _ => .error .truncated

/-- A write command after `7E 00 08` (30_encoding.md R81). -/
def decodeWriteFrame : List Byte → Except DecodeError (Instr × List Byte)
  | len :: ah :: al :: tail =>
    match splitChecked (decLen len) tail with
    | .ok (payload, crc, rest) => .ok (.wireWrite (be ah al) payload crc, rest)
    | .error e => .error e
  | _ => .error .truncated

/-- A read command after `7E 00 07` (30_encoding.md R82): the length byte is 0x01. -/
def decodeReadFrame : List Byte → Except DecodeError (Instr × List Byte)
  | len :: ah :: al :: rl :: ch :: cl :: rest =>
    if len = 0x01 then .ok (.wireRead (be ah al) (decLen rl) (be ch cl), rest)
    else .error (.badReadLength len)
  | _ => .error .truncated

/-- A reply after `02 00` (30_encoding.md R84). -/
def decodeReplyFrame : List Byte → Except DecodeError (Instr × List Byte)
  | status :: len :: tail =>
    match splitChecked (decLen len) tail with
    | .ok (payload, crc, rest) => .ok (.wireReply status payload crc, rest)
    | .error e => .error e
  | _ => .error .truncated

/-- A command frame after `7E 00`, told by its function-type byte (30_encoding.md R100). -/
def decodeCommandFrame : List Byte → Except DecodeError (Instr × List Byte)
  | ft :: tail =>
    if ft = Config.ftWrite then decodeWriteFrame tail
    else if ft = Config.ftRead then decodeReadFrame tail
    else if ft = Config.ftPersist then .ok (.wirePersist tail, [])
    else .error (.unknownFunctionType ft)
  | [] => .error .truncated

/-- A frame at the head of the bytes on the wire, with the bytes after it. -/
def decodeWire : List Byte → Except DecodeError (Instr × List Byte)
  | b0 :: b1 :: tail =>
    if b0 = Config.start ∧ b1 = Config.rsvd then decodeCommandFrame tail
    else if b0 = Config.replyHdr ∧ b1 = Config.rsvd then decodeReplyFrame tail
    else .error (.unknownHeader b0 b1)
  | _ => .error .truncated

/-- The instruction at the head of the bytes presented on a port, with the bytes after it. -/
def decode : Port → List Byte → Except DecodeError (Instr × List Byte)
  | .host, [op] =>
    match decodeHost op with
    | .ok i => .ok (i, [])
    | .error e => .error e
  | .host, _ => .error .truncated
  | .wire, bytes => decodeWire bytes

/-! ### Encoding -/

/-- The port an instruction is presented on. -/
def Instr.port : Instr → Port
  | .crcCompute | .crcVerify | .frameBuild | .frameParse => .host
  | .txWriteAll | .rxReadExact | .rxReadDeadline | .rxReadByte | .rxDiscard => .host
  | .cmdWrite | .cmdRead | .scanRead | .scanSetTimeout | .sessionOpen | .sessionClose => .host
  | .wireWrite _ _ _ | .wireRead _ _ _ | .wirePersist _ | .wireReply _ _ _ => .wire

/-- The bytes of an instruction (30_encoding.md R81 to R84, R95). -/
def encode : Instr → List Byte
  | .crcCompute => [0x10]
  | .crcVerify => [0x11]
  | .frameBuild => [0x12]
  | .frameParse => [0x13]
  | .txWriteAll => [0x14]
  | .rxReadExact => [0x15]
  | .rxReadDeadline => [0x16]
  | .rxReadByte => [0x17]
  | .rxDiscard => [0x18]
  | .cmdWrite => [0x19]
  | .cmdRead => [0x1A]
  | .scanRead => [0x1B]
  | .scanSetTimeout => [0x1C]
  | .sessionOpen => [0x1D]
  | .sessionClose => [0x1E]
  | .wireWrite addr payload crc =>
    [Config.start, Config.rsvd, Config.ftWrite, encLen payload.length, hi addr, lo addr] ++ payload ++ [hi crc, lo crc]
  | .wireRead addr rlen crc =>
    [Config.start, Config.rsvd, Config.ftRead, 0x01, hi addr, lo addr, encLen rlen, hi crc, lo crc]
  | .wirePersist rest => [Config.start, Config.rsvd, Config.ftPersist] ++ rest
  | .wireReply status payload crc =>
    [Config.replyHdr, Config.rsvd, status, encLen payload.length] ++ payload ++ [hi crc, lo crc]

/-! ### Words as spec/opcode_table.json numbers them -/

/-- The longest instruction: a write command with 256 payload bytes (30_encoding.md R80). -/
def maxInstrBytes : Nat := 264

/-- `w` as `k` bytes, most significant first: the table numbers a wire row "byte 0 most significant in
match" (log 3). -/
def bytesOfWord : Nat → Nat → List Byte
  | 0, _ => []
  | k + 1, w => BitVec.ofNat 8 (w >>> (8 * k)) :: bytesOfWord k w

/-- The leading `nbits` of an instruction, and zeros up to the longest instruction. -/
def tableBytes (nbits w : Nat) : List Byte :=
  bytesOfWord (nbits / 8) w ++ List.replicate (maxInstrBytes - nbits / 8) 0x00

/-- A row of 8 bits is a host selector, a longer one the head of a wire frame (30_encoding.md R100; log 3). -/
def tablePort (nbits : Nat) : Port := if nbits ≤ 8 then .host else .wire

/-- The instruction the decoder reads from a row of the opcode table. -/
def decodeTableWord (nbits w : Nat) : Option Instr :=
  match tablePort nbits with
  | .host =>
    match decodeHost (BitVec.ofNat 8 w) with
    | .ok i => some i
    | .error _ => none
  | .wire =>
    match decodeWire (tableBytes nbits w) with
    | .ok (i, _) => some i
    | .error _ => none

end Sys2Proof
end

