-- ==== Sys2Proof/Machine/Operands.lean ====
section
/-! DEFINITION. How operands and open parameters are read: the operand domains of 30_encoding.md R96, the
timeout byte of R89, `VAL_DECODE_OPTS`, `CLASS_MAP` and `LINEAR_SELECT` (00_scope.md R6). -/

namespace Sys2Proof.Machine

/-- The requested reply length FRAME.BUILD is given, if any (10_state.md R21: `RLEN_EN`). -/
def requestedLength (o : Operands) : Option Nat := if o.rlenEn then some o.rlen else none

/-- The fields FRAME.BUILD is given (10_state.md R21; 41_frame_codec.md R120). -/
def buildFields (o : Operands) : FrameFields :=
  { ft := o.ft, len := o.len, addr := o.addr, rlen := requestedLength o, payload := o.ibuf }

/-- Domain of FRAME.BUILD: `RLEN` in 1..256 when `RLEN_EN = 1` (30_encoding.md R96, 41_frame_codec.md R120). -/
def buildDomain (o : Operands) : Bool := !o.rlenEn || encodableLength o.rlen

/-- Domain of CMD.WRITE: a payload of 1..256 bytes (43_command_reply.md R162). -/
def writeDomain (o : Operands) : Bool := encodableLength o.ibuf.length

/-- Domain of CMD.READ: `N` in 1..256 (43_command_reply.md R165). -/
def readDomain (o : Operands) : Bool := encodableLength o.n

/-- The byte SCAN.SET_TIMEOUT writes: `floor(t / 100)` (30_encoding.md R89). -/
def timeoutByte (t : Nat) : Byte := BitVec.ofNat 8 (t / Config.timeoutUnitMs)

/-- A scan timeout SCAN.SET_TIMEOUT accepts (44_scan_decoder.md R186, 10_state.md R23). -/
def legalTimeout (t : Nat) : Bool := Config.timeoutMinMs ≤ t && t ≤ Config.timeoutMaxMs

/-- `VAL_DECODE_OPTS`, a sequence of length 1..256 whatever the parameters hold (00_scope.md R6; log 15). -/
def decodeOptsPayload (p : Params) : List Byte := p.decodeOptsHead :: p.decodeOptsTail.take 255

/-- `n`, moved past `hole` if it has reached it. -/
def skipHole (hole n : Nat) : Nat := if hole ≤ n then n + 1 else n

/-- The `k`-th byte that is none of 0x00, 0x51, 0x64, 0x99 (log 16). -/
def dotMatrixCode (k : Fin 252) : Byte :=
  BitVec.ofNat 8 (skipHole 0x99 (skipHole 0x64 (skipHole 0x51 (k.val + 1))))

/-- `CLASS_MAP`: the three points the source fixes, the code of "dot-matrix", and the open table
(44_scan_decoder.md R183, 30_encoding.md R93; log 16). -/
def classMap (p : Params) (code : Byte) : SymbologyClass :=
  if code = Config.classEan13 then .linear .ean13
  else if code = Config.classQr then .matrix .qr
  else if code = Config.classUnknown then .none
  else if code = dotMatrixCode p.dotMatrixIndex then .matrix .dotMatrix
  else match p.classTable.lookup code with
    | some c => c
    | none => .none

/-- The index `LINEAR_SELECT` picks by, from the table of the parameters (log 17). -/
def linearIndexOf (p : Params) (lines : List (List Byte)) : Nat :=
  match p.linearTable.lookup lines with
  | some k => k
  | none => Config.linearIndex lines

/-- `LINEAR_SELECT`: a member of the list, and so the only one of a one-element list (44_scan_decoder.md R183;
log 17). It is never asked about the empty list. -/
def linearSelect (p : Params) : List (List Byte) → List Byte
  | [] => []
  | [line] => line
  | line :: lines => (line :: lines).getD (linearIndexOf p (line :: lines) % (lines.length + 1)) line

end Sys2Proof.Machine
end

