-- ==== Sys2Proof/Machine/Ops.lean ====
section
/-! DEFINITION. The shared operations: the phase an operation enters, how it ends (with results, with an error,
or not yet), and the transfers on the two byte streams: transmit, wait for a byte, poll, discard. The transfers work on
the `Channel` alone, so whatever else State holds they cannot touch. -/

namespace Sys2Proof.Machine

/-! ### How an operation goes on and ends -/

/-- The running operation enters a phase, with its transient state (10_state.md R24, R27). -/
def enter (p : Phase) (w : Work) (s : State) : State := { s with phase := p, work := w }

/-- What follows where there is a next state. -/
def andThen (e : Exec) (k : State → Exec) : Exec :=
  match e with
  | .next t => k t
  | .fault f => .fault f
  | .refused r => .refused r

/-- Result registers whose contents are unspecified (10_state.md R22), free values number `k` (log 6). -/
def unspecified (k : Nat) : Results :=
  { outcome := Config.freeOutcome k, info := Config.freeByte k, crcout := Config.freeWord k, obuf := Config.freeBytes k,
    olen := Config.freeNat k, scan := Config.freeScan k }

/-- The operation ends with the given result registers; no transient state survives (10_state.md R22, R24, R27). -/
def finish (r : Results) (s : State) : State := { s with result := r, phase := .idle, work := Work.clear }

/-- The operation ends with an outcome that is not an error and writes no further result register
(30_encoding.md R97). -/
def finishWith (o : OutcomeCode) (s : State) : State := finish { s.result with outcome := o } s

/-- Taking an error, the one entry of 60_exceptions.md R210: the running operation and everything it is
nested in stops here, `OUTCOME` and `INFO` are written, `phase` is IDLE again; every other result register
is unspecified (10_state.md R22), and nothing is rolled back or saved. There is no return operation
beside it (R212): the host simply starts its next operation. -/
def raise (e : Error) (s : State) : State :=
  { s with
    result := { unspecified s.free with outcome := errorOutcome e, info := errorInfo e s.free }
    phase := .idle
    work := Work.clear
    free := s.free + 1 }

/-- The step that starts an operation ends before the operation does: between its start and its end the result
registers are unspecified (10_state.md R22). -/
def suspend (p : Phase) (w : Work) (s : State) : State :=
  { s with result := unspecified s.free, phase := p, work := w, free := s.free + 1 }

/-- The state a starting step leaves: an operation that has not ended is suspended where it stands. -/
def park (s : State) : State := if s.phase = .idle then s else suspend s.phase s.work s

/-- A second operation gets no step while one runs (60_exceptions.md R215). -/
def whenIdle (s : State) (body : Exec) : Exec := if s.phase = .idle then body else .refused .engineBusy

/-- An operation that needs an open session is refused without one (10_state.md R25). -/
def whenOpen (s : State) (body : Exec) : Exec :=
  whenIdle s (if s.session = .opened then body else .next (raise .refused s))

/-! ### Time -/

/-- `TICK` in milliseconds: 1 to 101. With a coarser one no reading falls into the window `[T, T + 100]` of R147 for
some `T` (log 26). -/
def tickMs (c : Channel) : Nat := c.tick.val + 1

/-! ### The receive queue -/

/-- The link appends a byte (42_transport.md R150). With a finite `RX_DEPTH` and a full queue its fate is a
free value (93_implementation_defined.md U13; log 18). -/
def pushRx (b : Byte) (c : Channel) : Channel :=
  match c.rxDepth with
  | none => { c with rxFifo := c.rxFifo ++ [b] }
  | some d =>
    if c.rxFifo.length < d then { c with rxFifo := c.rxFifo ++ [b] }
    else match Config.overflowFate c.lost with
      | .dropNew => { c with lost := c.lost + 1 }
      | .overwriteOldest => { c with rxFifo := (c.rxFifo ++ [b]).drop (c.rxFifo.length + 1 - d), lost := c.lost + 1 }
      | .overwriteNewest => { c with rxFifo := (c.rxFifo.take (d - 1) ++ [b]).take d, lost := c.lost + 1 }

/-- The link appends bytes, oldest first. -/
def pushAll : List Byte → Channel → Channel
  | [], c => c
  | b :: bs, c => pushAll bs (pushRx b c)

/-- The bytes that cut in before the next transfer, at the head of the events `l`, join the queue, even one
that holds bytes already or is full (42_transport.md R150, 00_scope.md R9; log 4). -/
def land : List LinkEvent → Channel → Channel
  | .cutIn b :: l, c => land l (pushRx b c)
  | l, c => { c with link := l }

/-! ### Transmitting (`TxByte`, 42_transport.md R141) -/

/-- How a transmission ended. -/
inductive TxAnswer where
  | sent (c : Channel)
  | ioFail (c : Channel)
deriving DecidableEq, Repr

/-- The bytes are handed to the link in order, one answer of the link a byte. On a failure at one byte the
bytes before it are sent, and whether that byte went out is the link's choice (R141, R149). Between two
bytes the link may append to `rx_fifo` (R150). A link that has no answer ready accepts (log 4). -/
def transmit : List LinkEvent → List Byte → Channel → TxAnswer
  | .cutIn x :: l, b :: bs, c => transmit l (b :: bs) (pushRx x c)
  | .ok :: l, b :: bs, c => transmit l bs { c with tx := c.tx ++ [b], link := l }
  | .fail sent :: l, b :: _, c => .ioFail { c with tx := if sent then c.tx ++ [b] else c.tx, link := l }
  | l, bs, c => .sent { c with tx := c.tx ++ bs, link := l }

/-! ### Waiting for a byte (`RxWait`, `RxPop`, 42_transport.md R143) -/

/-- How one wait ended. -/
inductive RxAnswer where
  | byte (b : Byte) (c : Channel)
  | ioFail (c : Channel)
  | waiting (c : Channel)
deriving DecidableEq, Repr

/-- Waiting with an empty queue: bytes that arrive and the passing of time, until a byte is there or the link fails;
an empty-handed poll "does not end `RxWait`" and there is no time limit (R143). -/
def waitArrival : List LinkEvent → Channel → RxAnswer
  | [], c => .waiting { c with link := [] }
  | .arrive b :: l, c =>
    match (pushRx b c).rxFifo with
    | x :: q => .byte x { pushRx b c with rxFifo := q, link := l }
    | [] => waitArrival l (pushRx b c)
  | .cutIn b :: l, c =>
    match (pushRx b c).rxFifo with
    | x :: q => .byte x { pushRx b c with rxFifo := q, link := l }
    | [] => waitArrival l (pushRx b c)
  | .elapse k :: l, c => waitArrival l { c with now := c.now + k * tickMs c }
  | .ok :: l, c => waitArrival l c
  | .latePoll :: l, c => waitArrival l c
  | .fail _ :: l, c => .ioFail { c with link := l }

/-- `RxWait()` and then `RxPop()`, no byte cutting in. With a byte in the queue the answer is `ok`, unless the
link chooses to fail (60_exceptions.md R208). -/
def takeByte (c : Channel) : RxAnswer :=
  match c.rxFifo with
  | [] => waitArrival c.link c
  | b :: q =>
    match c.link with
    | .fail _ :: l => .ioFail { c with link := l }
    | .ok :: l => .byte b { c with rxFifo := q, link := l }
    | _ => .byte b { c with rxFifo := q }

/-- `RxWait()` and then `RxPop()`, after the bytes that cut in: a byte may arrive at any moment of a read, and
with a finite `RX_DEPTH` meet a full queue in the middle of it (42_transport.md R150; log 4). -/
def rxByte (c : Channel) : RxAnswer := takeByte (land c.link c)

/-- How an exact read ended; a failure loses the bytes taken so far (42_transport.md R149). -/
inductive ReadAnswer where
  | done (acc : List Byte) (c : Channel)
  | ioFail (c : Channel)
  | waiting (acc : List Byte) (c : Channel)
deriving DecidableEq, Repr

/-- The loop of RX.READ_EXACT (42_transport.md R142): `k` more bytes after `acc`. -/
def readMore : Nat → List Byte → Channel → ReadAnswer
  | 0, acc, c => .done acc c
  | k + 1, acc, c =>
    match rxByte c with
    | .byte b c' => readMore k (acc ++ [b]) c'
    | .ioFail c' => .ioFail c'
    | .waiting c' => .waiting acc c'

/-! ### Emptying the queue (42_transport.md R145) -/

/-- `discard_pending()`, one step (R145): `ioFail` when the link answers `io_fail` instead, and the queue is then
not emptied (log 22). A byte about to cut in comes after it (log 4). -/
def discardRx (c : Channel) : TxAnswer :=
  match c.link with
  | .fail _ :: l => .ioFail { c with link := l }
  | .ok :: l => .sent { c with rxFifo := [], link := l }
  | _ => .sent { c with rxFifo := [] }

/-! ### Reading under a deadline (42_transport.md R146, R147) -/

/-- How one poll ended (42_transport.md R143): a byte, empty-handed, or a failure. -/
inductive PollAnswer where
  | byte (b : Byte) (c : Channel)
  | empty (c : Channel)
  | ioFail (c : Channel)
deriving DecidableEq, Repr

/-- A poll of an empty queue that may last `w` more ticks: it returns as soon as a byte is there and
empty-handed when its time is up ("within at most one poll interval", R147; log 19). -/
def pollArrival : Nat → List LinkEvent → Channel → PollAnswer
  | w, [], c => .empty { c with now := c.now + w * tickMs c, link := [] }
  | w, .arrive b :: l, c =>
    match (pushRx b c).rxFifo with
    | x :: q => .byte x { pushRx b c with rxFifo := q, link := l }
    | [] => pollArrival w l (pushRx b c)
  | w, .cutIn b :: l, c =>
    match (pushRx b c).rxFifo with
    | x :: q => .byte x { pushRx b c with rxFifo := q, link := l }
    | [] => pollArrival w l (pushRx b c)
  | w, .elapse k :: l, c =>
    if k < w then pollArrival (w - k) l { c with now := c.now + k * tickMs c }
    else .empty { c with now := c.now + w * tickMs c, link := if k = w then l else .elapse (k - w) :: l }
  | _, .ok :: l, c => .empty { c with link := l }
  | w, .latePoll :: l, c => pollArrival w l c
  | _, .fail _ :: l, c => .ioFail { c with link := l }

/-- One poll of the channel lasting at most `w` ticks, no byte cutting in. It takes one byte: a poll that
takes several is as many polls in no time (log 19). -/
def pollByte (w : Nat) (c : Channel) : PollAnswer :=
  match c.rxFifo with
  | [] => pollArrival w c.link c
  | b :: q =>
    match c.link with
    | .fail _ :: l => .ioFail { c with link := l }
    | .ok :: l => .byte b { c with rxFifo := q, link := l }
    | _ => .byte b { c with rxFifo := q }

/-- One poll of the channel lasting at most `w` ticks, after the bytes that cut in (R150; log 4). -/
def poll (w : Nat) (c : Channel) : PollAnswer := pollByte w (land c.link c)

/-- How a deadline read ended. -/
inductive DeadlineAnswer where
  | done (acc : List Byte) (c : Channel)
  | expired (acc : List Byte) (c : Channel)
  | ioFail (c : Channel)
deriving DecidableEq, Repr

/-- How many ticks a poll may last: the 100 ms of R143 rounded up to whole ticks, and to `tmo + 100` and no further
(R147 (2); log 26). -/
def pollTicks (tmo elapsed : Nat) (c : Channel) : Nat :=
  min ((Config.pollMs + tickMs c - 1) / tickMs c) ((tmo + Config.pollMs - elapsed) / tickMs c)

/-- The poll the deadline read makes next, or `none` when it gives up: before the deadline one poll;
after it one more poll if the link's next event says so (R147; log 19). -/
def nextPoll (tmo elapsed : Nat) (c : Channel) : Option PollAnswer :=
  if elapsed < tmo then some (poll (pollTicks tmo elapsed c) c)
  else match c.link with
    | .latePoll :: l =>
      if elapsed ≤ tmo + Config.pollMs then some (poll (pollTicks tmo elapsed c) { c with link := l }) else none
    | _ => none

/-- The loop of RX.READ_DEADLINE (R146), bounded by `fuel` polls; `deadlineFuel` is never used up. -/
def deadlineLoop : Nat → (n tmo tStart : Nat) → List Byte → Channel → DeadlineAnswer
  | 0, _, _, _, acc, c => .expired acc c
  | fuel + 1, n, tmo, tStart, acc, c =>
    if acc.length = n then .done acc c
    else match nextPoll tmo (c.now - tStart) c with
      | none => .expired acc c
      | some (.ioFail c') => .ioFail c'
      | some (.empty c') => deadlineLoop fuel n tmo tStart acc c'
      | some (.byte b c') => deadlineLoop fuel n tmo tStart (acc ++ [b]) c'

/-- Enough polls: every one takes a byte, uses up an event, or brings the deadline a tick nearer. -/
def deadlineFuel (n tmo tStart : Nat) (c : Channel) : Nat := n + c.link.length + (tStart + tmo - c.now) + 1

/-- RX.READ_DEADLINE started at `tStart` (R146). -/
def readFrom (tStart n tmo : Nat) (c : Channel) : DeadlineAnswer :=
  deadlineLoop (deadlineFuel n tmo tStart c) n tmo tStart [] c

/-- RX.READ_DEADLINE started now (R146). -/
def readDeadline (n tmo : Nat) (c : Channel) : DeadlineAnswer := readFrom c.now n tmo c

end Sys2Proof.Machine
end

