-- ==== Sys2Proof/Machine/Checksum.lean ====
section
/-! DEFINITION. The Checksum Engine (40_checksum.md): `Crc16`, CRC.COMPUTE and CRC.VERIFY. -/

namespace Sys2Proof.Machine

/-- One step of the register: shift left, and exclusive-or the polynomial if a one was shifted out (R111). -/
def crcBit (c : Word) : Word := if c.msb then (c <<< 1) ^^^ Config.crcPoly else c <<< 1

/-- One byte: it enters at the top 8 bits, then eight steps, most significant bit first (R111). -/
def crcByte (c : Word) (b : Byte) : Word :=
  crcBit (crcBit (crcBit (crcBit (crcBit (crcBit (crcBit (crcBit (c ^^^ (b.setWidth 16 <<< 8)))))))))

/-- `k c`, with `c` evaluated first: it keeps the kernel from carrying the register of a long sequence
unevaluated. `withValue k c = k c`. -/
def withValue (k : Word → Word) (c : Word) : Word :=
  match c.toNat with
  | 0 => k 0
  | n + 1 => k (BitVec.ofNat 16 (n + 1))

/-- The register after the bytes `s`, started from `c` (R111, R114 law 4). -/
def crcFrom : List Byte → Word → Word
  | [], c => c
  | b :: s, c => withValue (crcFrom s) (crcByte c b)

/-- `Crc16(s)`: initial value 0, no final exclusive-or (R111). -/
def crc16 (s : List Byte) : Word := crcFrom s Config.crcInit

/-- CRC.VERIFY's test: the sentinel first, without computation, then the comparison (R113, R92). -/
def crcAccepts (s : List Byte) (expected : Word) : Bool := expected = Config.crcSkip || crc16 s = expected

/-- CRC.COMPUTE: `CRCOUT` is the checksum of `IBUF` (R112). It does not read `session`. -/
def execCrcCompute (s : State) : Exec :=
  whenIdle s (.next (finish { s.result with outcome := .ok, crcout := crc16 s.host.ibuf } s))

/-- CRC.VERIFY (R113). -/
def execCrcVerify (s : State) : Exec :=
  whenIdle s (.next (if crcAccepts s.host.ibuf s.host.expect then finishWith .ok s else raise .checksumMismatch s))

end Sys2Proof.Machine
end

