-- ==== Sys2Proof/Machine/Frames.lean ====
section
/-! DEFINITION. The layout of command frames and the tests of the reply parser (41_frame_codec.md). -/

namespace Sys2Proof.Machine

/-- The bytes of a command frame the checksum covers: function type to the end of the payload (R120). -/
def frameBody (f : FrameFields) : List Byte :=
  [f.ft, f.len, hi f.addr, lo f.addr] ++ (f.rlen.map encLen).toList ++ f.payload

/-- A body with the start marker, the reserved byte and its checksum around it (R120). -/
def wrapFrame (body : List Byte) : List Byte :=
  [Config.start, Config.rsvd] ++ body ++ [hi (crc16 body), lo (crc16 body)]

/-- The frame with these fields (R120): nothing is validated, the declared length is copied (R121). -/
def buildFrame (f : FrameFields) : List Byte := wrapFrame (frameBody f)

/-- The fields of a write command (30_encoding.md R81, 43_command_reply.md R161). -/
def writeFields (addr : Word) (payload : List Byte) : FrameFields :=
  { ft := Config.ftWrite, len := encLen payload.length, addr := addr, rlen := none, payload := payload }

/-- The fields of a read command (30_encoding.md R82, 43_command_reply.md R164). -/
def readFields (addr : Word) (n : Nat) : FrameFields :=
  { ft := Config.ftRead, len := 0x01, addr := addr, rlen := some n, payload := [] }

/-- The frame of a write command. -/
def writeFrame (addr : Word) (payload : List Byte) : List Byte := buildFrame (writeFields addr payload)

/-- The frame of a read command. -/
def readFrame (addr : Word) (n : Nat) : List Byte := buildFrame (readFields addr n)

/-- Byte `i` of a buffer; the parser asks only for bytes that are there. -/
def byteAt (buf : List Byte) (i : Nat) : Byte := buf.getD i 0x00

/-- The span the reply checksum covers, `buf[2 .. len-2]` (R123). -/
def replySpan (buf : List Byte) : List Byte := (buf.drop 2).take (buf.length - 4)

/-- The trailing two bytes of a reply, big-endian (R123, 30_encoding.md R87). -/
def replyTrailer (buf : List Byte) : Word := be (byteAt buf (buf.length - 2)) (byteAt buf (buf.length - 1))

/-- FRAME.PARSE's tests in the order (a) to (e) of R123, R124: the payload and its length, or the first
error. -/
def parseReply (buf : List Byte) (cap : Nat) (check : Bool) : Except Error (List Byte × Nat) :=
  if buf.length < Config.envelope then .error (.shortReply .tooShort)
  else if byteAt buf 0 ≠ Config.replyHdr ∨ byteAt buf 1 ≠ Config.rsvd then .error .invalidHeader
  else if byteAt buf 2 ≠ Config.statusOk then .error (.deviceError (byteAt buf 2))
  else if crcAccepts (replySpan buf) (if check then replyTrailer buf else Config.crcSkip) = false then
    .error .checksumMismatch
  else if cap < decLen (byteAt buf 3) then .error (.shortReply .overCapacity)
  else if buf.length - Config.envelope < decLen (byteAt buf 3) then .error (.shortReply .overRoom)
  else .ok ((buf.drop 4).take (decLen (byteAt buf 3)), decLen (byteAt buf 3))

end Sys2Proof.Machine
end

