-- ==== Sys2Proof/Machine/Lines.lean ====
section
/-! DEFINITION. The line loop of SCAN.READ and what it reports (44_scan_decoder.md R181 to R184). -/

namespace Sys2Proof.Machine

/-- How the line loop ended. -/
inductive ScanAnswer where
  | done (lines : List (List Byte)) (c : Channel)
  | ioFail (c : Channel)
  | waiting (cur : List Byte) (lines : List (List Byte)) (c : Channel)
  | overflow (f : Fault)
deriving DecidableEq, Repr

/-- A size that fits an open capacity (00_scope.md R6, decision D25). -/
def fits (capacity : Option Nat) (size : Nat) : Bool :=
  match capacity with
  | none => true
  | some k => size ≤ k

/-- Emitting the accumulated line: an empty one is dropped (R181 step 3, R182 item 2). -/
def emitLine (p : Params) (cur : List Byte) (lines : List (List Byte)) : Except Fault (List (List Byte)) :=
  if cur = [] then .ok lines
  else if fits p.linesCap (lines.length + 1) then .ok (lines ++ [cur])
  else .error .linesOverflow

/-- Appending a data byte to the line (R181, R182 item 6). -/
def growLine (p : Params) (cur : List Byte) (b : Byte) : Except Fault (List Byte) :=
  if fits p.lineCap (cur.length + 1) then .ok (cur ++ [b]) else .error .lineOverflow

/-- The line loop of R181: only the carriage return ends it. The fuel counts bytes; `scanFuel` outlasts
every byte there is, and a loop that used it up would go on waiting. -/
def scanLoop : Nat → Params → List Byte → List (List Byte) → Channel → ScanAnswer
  | 0, _, cur, lines, c => .waiting cur lines c
  | fuel + 1, p, cur, lines, c =>
    match rxByte c with
    | .ioFail c' => .ioFail c'
    | .waiting c' => .waiting cur lines c'
    | .byte b c' =>
      if b = Config.lf then
        match emitLine p cur lines with
        | .ok lines' => scanLoop fuel p [] lines' c'
        | .error f => .overflow f
      else if b = Config.cr then
        match emitLine p cur lines with
        | .ok lines' => .done lines' c'
        | .error f => .overflow f
      else
        match growLine p cur b with
        | .ok cur' => scanLoop fuel p cur' lines c'
        | .error f => .overflow f

/-- More than the bytes that are queued or still to arrive. -/
def scanFuel (c : Channel) : Nat := c.rxFifo.length + c.link.length + 1

/-- Step 4 of R181, after the "no lines" test (R182 item 8): the symbology variant of the code (R183). -/
def classify (code : Byte) (lines : List (List Byte)) (s : State) : State :=
  if lines = [] then finishWith .noResult s
  else match classMap s.params code with
    | .none => raise (.unsupportedType code) s
    | .linear tag => finish { s.result with outcome := .ok, scan := .linear code tag (linearSelect s.params lines) } s
    | .matrix tag => finish { s.result with outcome := .ok, scan := .matrix code tag lines } s

end Sys2Proof.Machine
end

