-- ==== Sys2Proof/Machine/Sequencer.lean ====
section
/-! DEFINITION. The sequencer (10_state.md R24): what the running operation does in each phase and which phase
it enters next, and running it on from phase to phase. `Work.job` says which operation runs. -/

namespace Sys2Proof.Machine

/-- The jobs of the four operations that send a command frame and validate the reply (43_command_reply.md R160). -/
def isCommand : Job → Bool
  | .writeAck _ | .readReply _ => true
  | .none | .frameBuild | .frameParse _ _ | .send | .readDeadline _ _ | .readExact _ | .scanLines => false

/-- How many bytes a job awaits in RX_WAIT, known before the first arrives (30_encoding.md R85). -/
def jobBytes : Job → Nat
  | .readExact n => n
  | .writeAck _ => Config.ackReplyLen
  | .readReply n => n + Config.envelope
  | .none | .frameBuild | .frameParse _ _ | .send | .readDeadline _ _ | .scanLines => 0

/-! ### BUILD and TX -/

/-- BUILD: the frame is laid out and its checksum computed (41_frame_codec.md R120). A command goes on to TX;
FRAME.BUILD ends with the frame in `OBUF`. -/
def buildPhase (s : State) : State :=
  if isCommand s.work.job then
    enter .tx { s.work with crc := crc16 (frameBody s.work.fields), frame := buildFrame s.work.fields,
                            fields := FrameFields.clear } s
  else finish { s.result with
    outcome := .ok, obuf := buildFrame s.work.fields, olen := (frameBody s.work.fields).length + 4 } s

/-- TX: the bytes are transmitted (42_transport.md R141). A command goes on to RX_WAIT, "a transmit failure means
no read is attempted" (43_command_reply.md R160); TX.WRITE_ALL ends. -/
def txPhase (s : State) : State :=
  match transmit s.chan.link s.work.frame s.chan with
  | .ioFail c => raise .ioFailure { s with chan := c }
  | .sent c => if isCommand s.work.job then enter .rxWait s.work { s with chan := c } else finishWith .ok { s with chan := c }

/-! ### RX_WAIT -/

/-- An accepted acknowledgement: the write command ends, or the operation around it writes its registers
(43_command_reply.md R161; 44_scan_decoder.md R186; 70_reset_and_hazards.md R230). -/
def afterAck (next : AfterAck) (s : State) : State :=
  match next with
  | .done => finishWith .ok s
  | .setTimeout tmo => finishWith .ok { s with scanTimeout := tmo }
  | .openSession => finishWith .ok { s with scanTimeout := Config.timeoutDefaultMs, session := .opened }

/-- What an operation does with all its bytes: hand them over (42_transport.md R142), or parse them, a command with
`CHECK = 1` and a capacity equal to its payload room (43_command_reply.md R161, R164). -/
def completeJob (job : Job) (acc : List Byte) (s : State) : State :=
  match job with
  | .readExact n => finish { s.result with outcome := .ok, obuf := acc, olen := n } s
  | .writeAck next =>
    match parseReply acc 1 true with
    | .ok _ => afterAck next s
    | .error e => raise e s
  | .readReply n =>
    match parseReply acc n true with
    | .ok (data, k) => finish { s.result with outcome := .ok, obuf := data, olen := k } s
    | .error e => raise e s
  | .frameParse cap check =>
    match parseReply acc cap check with
    | .ok (data, k) => finish { s.result with outcome := .ok, obuf := data, olen := k } s
    | .error e => raise e s
  | .none | .frameBuild | .send | .readDeadline _ _ | .scanLines => s

/-- RX_WAIT without a deadline: the bytes the job lacks are read (42_transport.md R142). With all of them a command
goes on to PARSE and RX.READ_EXACT ends; while some are missing the operation stays in RX_WAIT. -/
def receive (s : State) : State :=
  match readMore (jobBytes s.work.job - s.work.acc.length) s.work.acc s.chan with
  | .done acc c =>
    if isCommand s.work.job then enter .parse { s.work with acc := acc } { s with chan := c }
    else completeJob s.work.job acc { s with chan := c }
  | .ioFail c => raise .ioFailure { s with chan := c }
  | .waiting acc c => enter .rxWait { s.work with acc := acc } { s with chan := c }

/-- RX_WAIT of RX.READ_DEADLINE (42_transport.md R146): `NO_DATA` when the deadline passes with nothing read,
`E_PARTIAL` when it passes with some but not all (R148). -/
def receiveUntil (n tmo : Nat) (s : State) : State :=
  match readFrom s.work.tStart n tmo s.chan with
  | .done acc c => finish { s.result with outcome := .ok, obuf := acc, olen := n } { s with chan := c }
  | .expired [] c => finish { s.result with outcome := .noData, olen := 0 } { s with chan := c }
  | .expired (b :: acc) c => raise (.partialRead (b :: acc).length) { s with chan := c }
  | .ioFail c => raise .ioFailure { s with chan := c }

/-- RX_WAIT. -/
def rxPhase (s : State) : State :=
  match s.work.job with
  | .readDeadline n tmo => receiveUntil n tmo s
  | .readExact _ | .writeAck _ | .readReply _ => receive s
  | .none | .frameBuild | .frameParse _ _ | .send | .scanLines => s

/-! ### SCAN_FIRST and SCAN_LINES -/

/-- SCAN_FIRST: the first byte, under the session's deadline (44_scan_decoder.md R181 step 1). None, or 0x00, ends
SCAN.READ; any other is its classification code, and the line loop follows. -/
def firstPhase (s : State) : State :=
  match readFrom s.work.tStart 1 s.scanTimeout s.chan with
  | .ioFail c => raise .ioFailure { s with chan := c }
  | .expired _ c => finishWith .noResult { s with chan := c }
  | .done acc c =>
    if byteAt acc 0 = Config.noResultCode then finishWith .noResult { s with chan := c }
    else enter .scanLines { s.work with classCode := byteAt acc 0 } { s with chan := c }

/-- SCAN_LINES: the line loop; it ends, fails, or stays, with no further deadline (44_scan_decoder.md R181 step 2,
R182 item 5). -/
def linesPhase (s : State) : Exec :=
  match scanLoop (scanFuel s.chan) s.params s.work.cur s.work.lines s.chan with
  | .done lines c => .next (classify s.work.classCode lines { s with chan := c })
  | .ioFail c => .next (raise .ioFailure { s with chan := c })
  | .waiting cur lines c => .next (enter .scanLines { s.work with cur := cur, lines := lines } { s with chan := c })
  | .overflow f => .fault f

/-! ### From phase to phase -/

/-- One phase of the running operation: it answers a state in the phase that follows, in the same phase where the
operation waits for the link, or in IDLE where it ended (R24). -/
def phaseStep (s : State) : Exec :=
  match s.phase with
  | .idle => .next s
  | .build => .next (buildPhase s)
  | .tx => .next (txPhase s)
  | .rxWait => .next (rxPhase s)
  | .parse => .next (completeJob s.work.job s.work.acc s)
  | .scanFirst => .next (firstPhase s)
  | .scanLines => linesPhase s

/-- At most `k` phases one after the other, until the operation ends or waits for the link. -/
def settle : Nat → State → Exec
  | 0, s => .next s
  | k + 1, s => andThen (phaseStep s) fun t => if t.phase = .idle ∨ t.phase = s.phase then .next t else settle k t

/-- The most phases an operation passes: BUILD, TX, RX_WAIT, PARSE (43_command_reply.md R160). -/
def phaseCount : Nat := 4

/-- An operation that has started runs, in the same step, through its phases to its end or to where it waits. -/
def runOn (started : Exec) : Exec := andThen started fun s => andThen (settle phaseCount s) fun t => .next (park t)

/-- Entering BUILD with a command's frame fields (43_command_reply.md R160). -/
def enterCommand (f : FrameFields) (job : Job) (s : State) : State :=
  enter .build { Work.clear with job := job, fields := f } s

/-- Entering TX with bytes to send as they stand (42_transport.md R141). -/
def enterSend (bytes : List Byte) (s : State) : State := enter .tx { Work.clear with job := .send, frame := bytes } s

/-- Entering RX_WAIT for `n` bytes (42_transport.md R142). -/
def enterRead (n : Nat) (s : State) : State := enter .rxWait { Work.clear with job := .readExact n } s

end Sys2Proof.Machine
end

