-- ==== Sys2Proof/Machine/Codec.lean ====
section
/-! DEFINITION. The Frame Codec (41_frame_codec.md): FRAME.BUILD and FRAME.PARSE, which do not read `session`. -/

namespace Sys2Proof.Machine

/-- FRAME.BUILD starts in BUILD; a requested length outside 1..256 is refused (R120). -/
def startFrameBuild (s : State) : Exec :=
  whenIdle s (.next
    (if buildDomain s.host then
      enter .build { Work.clear with job := .frameBuild, fields := buildFields s.host } s
    else raise .refused s))

/-- FRAME.BUILD (R120). -/
def execFrameBuild (s : State) : Exec := runOn (startFrameBuild s)

/-- FRAME.PARSE starts in PARSE (R123). -/
def startFrameParse (s : State) : Exec :=
  whenIdle s (.next
    (enter .parse { Work.clear with job := .frameParse s.host.cap s.host.check, acc := s.host.ibuf } s))

/-- FRAME.PARSE (R123). -/
def execFrameParse (s : State) : Exec := runOn (startFrameParse s)

end Sys2Proof.Machine
end

