-- ==== Sys2Proof/Machine/Command.lean ====
section
/-! DEFINITION. The Command/Reply Engine (43_command_reply.md): CMD.WRITE and CMD.READ. Their four steps (R160)
are the phases BUILD, TX, RX_WAIT and PARSE of Machine/Sequencer.lean. -/

namespace Sys2Proof.Machine

/-- CMD.WRITE starts in BUILD; a payload outside 1..256 bytes is refused before anything is sent (R162). -/
def startCmdWrite (s : State) : Exec :=
  whenOpen s (.next
    (if writeDomain s.host then enterCommand (writeFields s.host.addr s.host.ibuf) (.writeAck .done) s
    else raise .refused s))

/-- CMD.WRITE (R161). -/
def execCmdWrite (s : State) : Exec := runOn (startCmdWrite s)

/-- CMD.READ starts in BUILD; a length outside 1..256 is refused before anything is sent (R165). -/
def startCmdRead (s : State) : Exec :=
  whenOpen s (.next
    (if readDomain s.host then enterCommand (readFields s.host.addr s.host.n) (.readReply s.host.n) s
    else raise .refused s))

/-- CMD.READ (R164). -/
def execCmdRead (s : State) : Exec := runOn (startCmdRead s)

end Sys2Proof.Machine
end

