-- ==== Sys2Proof/Machine/Scan.lean ====
section
/-! DEFINITION. The Scan Payload Decoder (44_scan_decoder.md): SCAN.READ and SCAN.SET_TIMEOUT. -/

namespace Sys2Proof.Machine

/-- SCAN.READ notes `t_start` and starts in SCAN_FIRST (R181). Until its first byte is read `class_code` is
unspecified (10_state.md R27): a free value (log 34). -/
def startScanRead (s : State) : Exec :=
  whenOpen s (.next (enter .scanFirst
    { Work.clear with tStart := s.chan.now, classCode := Config.freeClassCode s.free, job := .scanLines } s))

/-- SCAN.READ (R181): the first byte under the session's deadline, then the line loop. -/
def execScanRead (s : State) : Exec := runOn (startScanRead s)

/-- SCAN.SET_TIMEOUT validates, and starts in BUILD as the write command it is (R186). -/
def startScanSetTimeout (s : State) : Exec :=
  whenOpen s (.next
    (if s.host.tmo = 0 then raise (.outOfRange .zero) s
    else if Config.timeoutMaxMs < s.host.tmo then raise (.outOfRange .tooLarge) s
    else enterCommand (writeFields s.params.addrScanTimeout [timeoutByte s.host.tmo]) (.writeAck (.setTimeout s.host.tmo)) s))

/-- SCAN.SET_TIMEOUT (R186): the register is set only when the device has acknowledged. -/
def execScanSetTimeout (s : State) : Exec := runOn (startScanSetTimeout s)

end Sys2Proof.Machine
end

