-- ==== Sys2Proof/Machine/Session.lean ====
section
/-! DEFINITION. Session creation and release (70_reset_and_hazards.md R230, R231). -/

namespace Sys2Proof.Machine

/-- SESSION.OPEN discards, and starts in BUILD as the write of the decoding options (R230). A failure to open the
operating-system port is an `E_IO` of this operation, the same as a failed discard. -/
def startSessionOpen (s : State) : Exec :=
  whenIdle s (.next
    (if s.session = .closed then
      match discardRx s.chan with
      | .ioFail c => raise .ioFailure { s with chan := c }
      | .sent c =>
        enterCommand (writeFields s.params.addrDecodeOpts (decodeOptsPayload s.params)) (.writeAck .openSession)
          { s with chan := c }
    else raise .refused s))

/-- SESSION.OPEN (R230): on a good acknowledgement the default timeout is set and the session opens; on any error
`session` stays CLOSED. -/
def execSessionOpen (s : State) : Exec := runOn (startSessionOpen s)

/-- SESSION.CLOSE (R231): nothing is sent, `rx_fifo` is not emptied, and `SCAN_TIMEOUT` becomes unspecified
(log 8). R24 names no phase for it. -/
def execSessionClose (s : State) : Exec :=
  whenOpen s
    (.next (finishWith .ok
      { s with session := .closed, scanTimeout := Config.freeTimeout s.free, free := s.free + 1 }))

end Sys2Proof.Machine
end

