-- ==== Sys2Proof/Machine/Transport.lean ====
section
/-! DEFINITION. The Transport Adapter's five operations (42_transport.md). -/

namespace Sys2Proof.Machine

/-- TX.WRITE_ALL starts in TX (R141). -/
def startTxWriteAll (s : State) : Exec := whenOpen s (.next (enterSend s.host.ibuf s))

/-- TX.WRITE_ALL (R141): nothing is read. -/
def execTxWriteAll (s : State) : Exec := runOn (startTxWriteAll s)

/-- RX.READ_EXACT starts in RX_WAIT (R142). -/
def startRxReadExact (s : State) : Exec := whenOpen s (.next (enterRead s.host.n s))

/-- RX.READ_EXACT (R142). -/
def execRxReadExact (s : State) : Exec := runOn (startRxReadExact s)

/-- RX.READ_BYTE starts as RX.READ_EXACT with `N = 1` (R144). -/
def startRxReadByte (s : State) : Exec := whenOpen s (.next (enterRead 1 s))

/-- RX.READ_BYTE (R144). -/
def execRxReadByte (s : State) : Exec := runOn (startRxReadByte s)

/-- RX.READ_DEADLINE notes `t_start` and starts in RX_WAIT (R146); `N = 0` is refused. -/
def startRxReadDeadline (s : State) : Exec :=
  whenOpen s (.next
    (if s.host.n = 0 then raise .refused s
    else enter .rxWait { Work.clear with tStart := s.chan.now, job := .readDeadline s.host.n s.host.tmo } s))

/-- RX.READ_DEADLINE (R146). -/
def execRxReadDeadline (s : State) : Exec := runOn (startRxReadDeadline s)

/-- RX.DISCARD (R145). R24 names no phase for it. -/
def execRxDiscard (s : State) : Exec :=
  whenOpen s
    (match discardRx s.chan with
    | .sent c => .next (finishWith .ok { s with chan := c })
    | .ioFail c => .next (raise .ioFailure { s with chan := c }))

end Sys2Proof.Machine
end

