-- ==== Sys2Proof/Machine/Wire.lean ====
section
/-! DEFINITION. The four wire formats as instructions (30_encoding.md R80 to R84, R100): a command frame is
sent by the engine, a reply by the peripheral (log 2). -/

namespace Sys2Proof.Machine

/-- A command frame on the TX side starts in TX, as TX.WRITE_ALL of its bytes does (42_transport.md R141). -/
def startWire (i : Instr) (s : State) : Exec := whenOpen s (.next (enterSend (encode i) s))

/-- A write command frame on the TX side (30_encoding.md R81). -/
def execWireWrite (addr : Word) (payload : List Byte) (crc : Word) (s : State) : Exec :=
  runOn (startWire (.wireWrite addr payload crc) s)

/-- A read command frame on the TX side (30_encoding.md R82). -/
def execWireRead (addr : Word) (rlen : Nat) (crc : Word) (s : State) : Exec := runOn (startWire (.wireRead addr rlen crc) s)

/-- A persist frame on the TX side, which only a host that knows its values can send (30_encoding.md R83,
43_command_reply.md R171). -/
def execWirePersist (rest : List Byte) (s : State) : Exec := runOn (startWire (.wirePersist rest) s)

/-- A reply on the RX side: the link appends its bytes to `rx_fifo`, whatever the engine is doing
(30_encoding.md R84, 42_transport.md R150, 00_scope.md R9). -/
def execWireReply (status : Byte) (payload : List Byte) (crc : Word) (s : State) : Exec :=
  .next { s with chan := pushAll (encode (.wireReply status payload crc)) s.chan }

end Sys2Proof.Machine
end

