-- ==== Sys2Proof/Machine/Dispatch.lean ====
section
/-! DEFINITION. The meaning of every instruction, one arm per row of spec/opcode_table.json. -/

namespace Sys2Proof.Machine

def exec (i : Instr) (s : State) : Host.Outcome State Fault Refusal :=
  match i with
  | .crcCompute => Sys2Proof.Machine.execCrcCompute s
  | .crcVerify => Sys2Proof.Machine.execCrcVerify s
  | .frameBuild => Sys2Proof.Machine.execFrameBuild s
  | .frameParse => Sys2Proof.Machine.execFrameParse s
  | .txWriteAll => Sys2Proof.Machine.execTxWriteAll s
  | .rxReadExact => Sys2Proof.Machine.execRxReadExact s
  | .rxReadDeadline => Sys2Proof.Machine.execRxReadDeadline s
  | .rxReadByte => Sys2Proof.Machine.execRxReadByte s
  | .rxDiscard => Sys2Proof.Machine.execRxDiscard s
  | .cmdWrite => Sys2Proof.Machine.execCmdWrite s
  | .cmdRead => Sys2Proof.Machine.execCmdRead s
  | .scanRead => Sys2Proof.Machine.execScanRead s
  | .scanSetTimeout => Sys2Proof.Machine.execScanSetTimeout s
  | .sessionOpen => Sys2Proof.Machine.execSessionOpen s
  | .sessionClose => Sys2Proof.Machine.execSessionClose s
  | .wireWrite addr payload crc => Sys2Proof.Machine.execWireWrite addr payload crc s
  | .wireRead addr rlen crc => Sys2Proof.Machine.execWireRead addr rlen crc s
  | .wirePersist rest => Sys2Proof.Machine.execWirePersist rest s
  | .wireReply status payload crc => Sys2Proof.Machine.execWireReply status payload crc s

end Sys2Proof.Machine
end

