-- ==== Sys2Proof/Machine/Fetch.lean ====
section
/-! DEFINITION. What the machine runs next: there is no program counter and no fetch from memory
(10_state.md R24); the host presents one operation at a time (00_scope.md R9; log 1). -/

namespace Sys2Proof.Machine

/-- What `step` finds. -/
inductive Fetched where
  /-- The instruction to run, and the state it runs in. -/
  | run (i : Instr) (s : State)
  /-- The instruction to start, running one phase a step, and the state it starts in. -/
  | start (i : Instr) (s : State)
  /-- An operation started with a reserved `OP` (30_encoding.md R95). -/
  | reserved (s : State)
  /-- Bytes on the wire side that are no frame. -/
  | malformed
  /-- Nothing that may start now: the running operation goes on, or time and the link move. -/
  | nothing (s : State)

/-- A reply may arrive while an operation runs (42_transport.md R150); everything else waits for its end
(60_exceptions.md R215). -/
def mayStart (i : Instr) (s : State) : Bool :=
  match i with
  | .wireReply _ _ _ => true
  | .crcCompute | .crcVerify | .frameBuild | .frameParse => s.phase = .idle
  | .txWriteAll | .rxReadExact | .rxReadDeadline | .rxReadByte | .rxDiscard => s.phase = .idle
  | .cmdWrite | .cmdRead | .scanRead | .scanSetTimeout | .sessionOpen | .sessionClose => s.phase = .idle
  | .wireWrite _ _ _ | .wireRead _ _ _ | .wirePersist _ => s.phase = .idle

/-- The bytes a wire request leaves after its first frame, still to come. -/
def leftover (bytes : List Byte) : List Request := if bytes = [] then [] else [.wire bytes]

/-- The next request, decoded. Starting an operation writes the operand registers (20_memory.md R67). -/
def fetch (s : State) : Fetched :=
  match s.requests with
  | [] => .nothing s
  | .pause :: rest => .nothing { s with requests := rest }
  | .operation o :: rest =>
    if s.phase = .idle then
      match decodeHost o.op with
      | .ok i => .run i { s with requests := rest, host := o }
      | .error _ => .reserved { s with requests := rest, host := o }
    else .nothing s
  | .phased o :: rest =>
    if s.phase = .idle then
      match decodeHost o.op with
      | .ok i => .start i { s with requests := rest, host := o }
      | .error _ => .reserved { s with requests := rest, host := o }
    else .nothing s
  | .wire bytes :: rest =>
    match decodeWire bytes with
    | .ok (i, more) => if mayStart i s then .run i { s with requests := leftover more ++ rest } else .nothing s
    | .error _ => .malformed

/-- No operation runs and none starts: the link may append a byte, time may pass (42_transport.md R150). An
answer waits for the transfer it answers. -/
def idleMove (s : State) : State :=
  match s.chan.link with
  | .arrive b :: l => { s with chan := { pushRx b s.chan with link := l } }
  | .cutIn b :: l => { s with chan := { pushRx b s.chan with link := l } }
  | .elapse k :: l => { s with chan := { s.chan with now := s.chan.now + k * tickMs s.chan, link := l } }
  | _ => s

/-- The running operation goes on from where it stands, with what the link has done since: one phase of it, or
all up to its end or to where it waits. If the link has done nothing, nothing changes: that is the hang of
70_reset_and_hazards.md R237 and R238. -/
def advance (s : State) : Exec :=
  if s.phase = .idle then .next (idleMove s)
  else match s.work.pace with
    | .whole => settle phaseCount s
    | .byPhase => phaseStep s

/-- How a row of the opcode table is presented: a selector as an operation with the operand registers as
they stand, a wire row as the bytes of its frame and no more (log 3). -/
def presentWord (o : Operands) (nbits w : Nat) : Request :=
  match tablePort nbits with
  | .host => .operation { o with op := BitVec.ofNat 8 w }
  | .wire =>
    match decodeWire (tableBytes nbits w) with
    | .ok (_, more) => .wire ((tableBytes nbits w).take ((tableBytes nbits w).length - more.length))
    | .error _ => .wire (tableBytes nbits w)

end Sys2Proof.Machine
end

