-- ==== Sys2Proof/Machine/Start.lean ====
section
/-! DEFINITION. How an instruction starts, without running on: in its first phase, or, where R24 names no phase
for it or it is turned away, at its end. -/

namespace Sys2Proof.Machine

/-- The state right after the start of an instruction (10_state.md R24, R27; 20_memory.md R67). -/
def start (i : Instr) (s : State) : Exec :=
  match i with
  | .crcCompute => execCrcCompute s
  | .crcVerify => execCrcVerify s
  | .frameBuild => startFrameBuild s
  | .frameParse => startFrameParse s
  | .txWriteAll => startTxWriteAll s
  | .rxReadExact => startRxReadExact s
  | .rxReadDeadline => startRxReadDeadline s
  | .rxReadByte => startRxReadByte s
  | .rxDiscard => execRxDiscard s
  | .cmdWrite => startCmdWrite s
  | .cmdRead => startCmdRead s
  | .scanRead => startScanRead s
  | .scanSetTimeout => startScanSetTimeout s
  | .sessionOpen => startSessionOpen s
  | .sessionClose => execSessionClose s
  | .wireWrite addr payload crc => startWire (.wireWrite addr payload crc) s
  | .wireRead addr rlen crc => startWire (.wireRead addr rlen crc) s
  | .wirePersist rest => startWire (.wirePersist rest) s
  | .wireReply status payload crc => execWireReply status payload crc s

/-- An operation that runs one phase a step starts, and its step ends in its first phase; from here to its end the
result registers are unspecified (10_state.md R22). -/
def startPhased (i : Instr) (s : State) : Exec :=
  andThen (start i s) fun t =>
    .next (if t.phase = .idle then t else suspend t.phase { t.work with pace := .byPhase } t)

end Sys2Proof.Machine
end

