-- ==== Sys2Proof/Machine/Step.lean ====
section
/-! DEFINITION. One step of the machine. -/

namespace Sys2Proof.Machine

/-- One step: the instruction presented next runs to its end or until it waits for the link, or, where the host
asks for it phase by phase, enters its first phase; if none may start, the running operation goes on. An
operation started with a reserved selector "ends at once with outcome REFUSED, touching no state"
(30_encoding.md R95). -/
def step (s : State) : Host.Outcome State Fault Refusal :=
  match fetch s with
  | .run i s' => exec i s'
  | .start i s' => startPhased i s'
  | .reserved s' => .next (raise .refused s')
  | .malformed => .refused .unknownWireFormat
  | .nothing s' => advance s'

/-- The state with the instruction of a table row presented next. A row runs when no operation does, so the
sequencer is put at IDLE with no transient state; the operand registers stay as they are. -/
def State.withFetchWord (s : State) (nbits w : Nat) : State :=
  { s with requests := presentWord s.host nbits w :: s.requests, phase := .idle, work := Work.clear }

end Sys2Proof.Machine
end

