-- ==== Sys2Proof/Machine/Pseudo.lean ====
section
/-! DEFINITION. The pseudo-operations of 30_encoding.md R99 (43_command_reply.md R168 to R170): fixed uses of
CMD.WRITE and CMD.READ, as the request the host presents. `o` is what the other operand registers hold.
`PERSIST` is left out by R171. -/

namespace Sys2Proof.Machine

/-- `CMD.WRITE addr=a, ibuf=bytes`. -/
def requestWrite (o : Operands) (a : Word) (bytes : List Byte) : Request :=
  .operation { o with op := 0x19, addr := a, ibuf := bytes }

/-- `WRITE1 addr, v` (R168). -/
def write1 (o : Operands) (a : Word) (v : Byte) : Request := requestWrite o a [v]

/-- `READN addr, n` (R168). -/
def readN (o : Operands) (a : Word) (n : Nat) : Request := .operation { o with op := 0x1A, addr := a, n := n }

/-- `SCAN.START` (R169). -/
def scanStart (o : Operands) (p : Params) : Request := requestWrite o p.addrScanTrigger [0x01]

/-- `SCAN.STOP` (R169). -/
def scanStop (o : Operands) (p : Params) : Request := requestWrite o p.addrScanTrigger [0x00]

/-- `FACTORY.RESET` (R170). -/
def factoryReset (o : Operands) : Request := requestWrite o Config.addrFactoryReset [Config.valFactoryReset]

end Sys2Proof.Machine
end

