-- ==== Sys2Proof/Safety.lean ====
section
/-! DEFINITION. The vocabulary of claims: what a link that behaves does, which outcomes an operation may end
with, when an operation has gone wrong, and the invariant of the machine. -/

namespace Sys2Proof.Machine

/-! ### Links that behave -/

/-- The bytes a list of events makes arrive, in order. -/
def arrivals : List LinkEvent → List Byte
  | [] => []
  | .arrive b :: l => b :: arrivals l
  | .cutIn b :: l => b :: arrivals l
  | .elapse _ :: l => arrivals l
  | .ok :: l => arrivals l
  | .fail _ :: l => arrivals l
  | .latePoll :: l => arrivals l

/-- The rest of the RX stream as far as it is settled: what is queued, then what will arrive (20_memory.md R52). -/
def pendingRx (c : Channel) : List Byte := c.rxFifo ++ arrivals c.link

/-- The event is a failure of the link (42_transport.md R149). -/
def isFail : LinkEvent → Bool
  | .fail _ => true
  | .arrive _ | .cutIn _ | .elapse _ | .ok | .latePoll => false

/-- The queue is unbounded, "this spec's default" (10_state.md R26), and the link does not fail. -/
def calm (c : Channel) : Bool := c.rxDepth = none && c.link.all (fun e => !isFail e)

/-- The link never fails, whatever the queue's depth. -/
def noFail (l : List LinkEvent) : Bool := l.all (fun e => !isFail e)

/-- The event is the link's answer to a transfer (log 4). -/
def isAnswer : LinkEvent → Bool
  | .ok | .fail _ => true
  | .arrive _ | .cutIn _ | .elapse _ | .latePoll => false

/-- The event is a byte that cuts in (log 4). -/
def isCutIn : LinkEvent → Bool
  | .cutIn _ => true
  | .arrive _ | .elapse _ | .ok | .fail _ | .latePoll => false

/-! ### What an operation leaves alone -/

/-- From `s` an operation has ended in `t` and kept the operand registers, the session, `SCAN_TIMEOUT`, the
parameters and what the host presents next; no transient state survives (10_state.md R21, R24, R27, R30). -/
structure EndsKeeping (s t : State) : Prop where
  phase : t.phase = .idle
  work : t.work = Work.clear
  host : t.host = s.host
  session : t.session = s.session
  scanTimeout : t.scanTimeout = s.scanTimeout
  params : t.params = s.params
  requests : t.requests = s.requests

/-- From `s` an operation waits in `t`, and kept the same (42_transport.md R143). -/
structure WaitsKeeping (s t : State) : Prop where
  busy : t.phase ≠ .idle
  host : t.host = s.host
  session : t.session = s.session
  scanTimeout : t.scanTimeout = s.scanTimeout
  params : t.params = s.params
  requests : t.requests = s.requests

/-- The operation `i` has ended, or waits, in `v` as it has in `t`: the two agree on everything but result registers
that are unspecified and the model's own `free` and `pace` (10_state.md R22, R24). -/
structure SameEnd (i : Instr) (t v : State) : Prop where
  phase : v.phase = t.phase
  work : v.work = { t.work with pace := v.work.pace }
  chan : v.chan = t.chan
  host : v.host = t.host
  requests : v.requests = t.requests
  session : v.session = t.session
  scanTimeout : v.scanTimeout = t.scanTimeout
  params : v.params = t.params
  outcome : t.phase = .idle → v.result.outcome = t.result.outcome
  info : t.phase = .idle → t.result.outcome ∈ [.eShort, .eStatus, .eUnsupported, .eRange, .ePartial] →
    v.result.info = t.result.info
  crcout : t.phase = .idle → i = .crcCompute → v.result.crcout = t.result.crcout
  olen : t.phase = .idle → t.result.outcome = .ok ∨ t.result.outcome = .noData →
    i ∈ [.frameBuild, .frameParse, .rxReadExact, .rxReadDeadline, .rxReadByte, .cmdRead] →
    v.result.olen = t.result.olen
  obuf : t.phase = .idle → t.result.outcome = .ok →
    i ∈ [.frameBuild, .frameParse, .rxReadExact, .rxReadDeadline, .rxReadByte, .cmdRead] →
    v.result.obuf = t.result.obuf
  scan : t.phase = .idle → t.result.outcome = .ok → i = .scanRead → v.result.scan = t.result.scan

/-- The operation ends at once with `REFUSED`, which "changes no state at all, transmits nothing and removes
nothing from `rx_fifo`" (60_exceptions.md R201). -/
def refuses (i : Instr) (s : State) : Prop :=
  ∃ t, exec i s = .next t ∧ EndsKeeping s t ∧ t.chan = s.chan ∧ t.result.outcome = .refused

/-! ### Byte formats of claims, written out from the spec -/

/-- A reply with the given status and payload and the right checksum (30_encoding.md R84, 41_frame_codec.md R128). -/
def replyBytes (status : Byte) (payload : List Byte) : List Byte :=
  [0x02, 0x00] ++ ([status, encLen payload.length] ++ payload) ++
    [hi (crc16 ([status, encLen payload.length] ++ payload)), lo (crc16 ([status, encLen payload.length] ++ payload))]

/-- The write frame of 30_encoding.md R81, with the right checksum. -/
def writeBytes (addr : Word) (payload : List Byte) : List Byte :=
  [0x7E, 0x00] ++ ([0x08, encLen payload.length, hi addr, lo addr] ++ payload) ++
    [hi (crc16 ([0x08, encLen payload.length, hi addr, lo addr] ++ payload)),
     lo (crc16 ([0x08, encLen payload.length, hi addr, lo addr] ++ payload))]

/-- The read frame of 30_encoding.md R82, with the right checksum. -/
def readBytes (addr : Word) (n : Nat) : List Byte :=
  [0x7E, 0x00, 0x07, 0x01, hi addr, lo addr, encLen n,
   hi (crc16 [0x07, 0x01, hi addr, lo addr, encLen n]), lo (crc16 [0x07, 0x01, hi addr, lo addr, encLen n])]

/-- What a command that waits for a reply with `n` payload bytes says of the `n + 6` bytes `r` it has read:
the tests of 41_frame_codec.md R123 in their order, with `CHECK = 1` and `CAP = n`. -/
def replyOutcome (n : Nat) (r : List Byte) : OutcomeCode :=
  if r.getD 0 0x00 ≠ 0x02 ∨ r.getD 1 0x00 ≠ 0x00 then .eHeader
  else if r.getD 2 0x00 ≠ 0x00 then .eStatus
  else if be (r.getD (n + 4) 0x00) (r.getD (n + 5) 0x00) ≠ 0xABCD ∧
      crc16 ((r.drop 2).take (n + 2)) ≠ be (r.getD (n + 4) 0x00) (r.getD (n + 5) 0x00) then .eCrc
  else if n < decLen (r.getD 3 0x00) then .eShort
  else .ok

/-- The `INFO` an error found in the reply `r` of a command carries: the status byte, or the sub-cause
`OVER_CAPACITY` (60_exceptions.md R204). -/
def replyInfo (r : List Byte) (o : OutcomeCode) (info : Byte) : Prop :=
  (o = .eStatus → info = r.getD 2 0x00) ∧ (o = .eShort → info = 1)

/-- A data byte of a scan line: no terminator (44_scan_decoder.md R182 item 1). -/
def dataByte (b : Byte) : Bool := b ≠ Config.lf && b ≠ Config.cr

/-- A scan payload after its classification byte (30_encoding.md R86): lines ended by LF, empty ones among
them, and a last one, possibly empty, ended by CR. -/
def scanBody (items : List (List Byte)) (last : List Byte) : List Byte :=
  (items.map (· ++ [0x0A])).flatten ++ last ++ [0x0D]

/-- What SCAN.READ reports for a classification code and the non-empty lines collected (44_scan_decoder.md R181
step 4, R182 item 8, R183, R184). -/
def scanReport (p : Params) (code : Byte) (lines : List (List Byte)) (r : Results) : Prop :=
  (lines = [] → r.outcome = .noResult) ∧
  (lines ≠ [] → match classMap p code with
    | .none => r.outcome = .eUnsupported ∧ r.info = code
    | .linear tag => r.outcome = .ok ∧ ∃ line ∈ lines, r.scan = .linear code tag line
    | .matrix tag => r.outcome = .ok ∧ r.scan = .matrix code tag lines)

/-! ### Outcomes -/

/-- The outcomes an operation may end with (60_exceptions.md R203); a command frame sent raw ends as
TX.WRITE_ALL does, and a reply that arrives is no operation. -/
def mayEndWith : Instr → OutcomeCode → Bool
  | .crcCompute, o => o = .ok
  | .crcVerify, o => o = .ok || o = .eCrc
  | .frameBuild, o => o = .ok || o = .refused
  | .frameParse, o => o = .ok || o = .eShort || o = .eHeader || o = .eStatus || o = .eCrc
  | .txWriteAll, o | .rxReadExact, o | .rxReadByte, o | .rxDiscard, o => o = .ok || o = .eIo || o = .refused
  | .wireWrite _ _ _, o | .wireRead _ _ _, o | .wirePersist _, o => o = .ok || o = .eIo || o = .refused
  | .rxReadDeadline, o => o = .ok || o = .noData || o = .eIo || o = .ePartial || o = .refused
  | .cmdWrite, o | .cmdRead, o =>
    o = .ok || o = .eIo || o = .eShort || o = .eHeader || o = .eStatus || o = .eCrc || o = .refused
  | .scanRead, o => o = .ok || o = .noResult || o = .eIo || o = .eUnsupported || o = .refused
  | .scanSetTimeout, o =>
    o = .ok || o = .eIo || o = .eShort || o = .eHeader || o = .eStatus || o = .eCrc || o = .eRange || o = .refused
  | .sessionOpen, o =>
    o = .ok || o = .eIo || o = .eShort || o = .eHeader || o = .eStatus || o = .eCrc || o = .refused
  | .sessionClose, o => o = .ok || o = .refused
  | .wireReply _ _ _, _ => true

/-- The operation a running job belongs to (log 5): RX.READ_BYTE has the row of RX.READ_EXACT, a raw command frame
that of TX.WRITE_ALL. -/
def jobInstr : Job → Option Instr
  | .none => none
  | .frameBuild => some .frameBuild
  | .frameParse _ _ => some .frameParse
  | .send => some .txWriteAll
  | .readDeadline _ _ => some .rxReadDeadline
  | .readExact _ => some .rxReadExact
  | .writeAck .done => some .cmdWrite
  | .writeAck (.setTimeout _) => some .scanSetTimeout
  | .writeAck .openSession => some .sessionOpen
  | .readReply _ => some .cmdRead
  | .scanLines => some .scanRead

/-- The phases an operation passes, in order (10_state.md R24 with 41_frame_codec.md R120, R123; 42_transport.md R141,
R142, R146; 43_command_reply.md R160; 44_scan_decoder.md R181, R186; 70_reset_and_hazards.md R230); for the last four
R24 names none (log 5). -/
def phasesOf : Instr → List Phase
  | .frameBuild => [.build]
  | .frameParse => [.parse]
  | .txWriteAll | .wireWrite _ _ _ | .wireRead _ _ _ | .wirePersist _ => [.tx]
  | .rxReadExact | .rxReadDeadline | .rxReadByte => [.rxWait]
  | .cmdWrite | .cmdRead | .scanSetTimeout | .sessionOpen => [.build, .tx, .rxWait, .parse]
  | .scanRead => [.scanFirst, .scanLines]
  | .crcCompute | .crcVerify | .rxDiscard | .sessionClose | .wireReply _ _ _ => []

/-- The last operation ended (no operation runs). -/
def ended (s : State) : Prop := s.phase = .idle

/-- The last operation ended with an error. -/
def endedInError (s : State) : Prop := s.phase = .idle ∧ isError s.result.outcome = true

/-- "A model should treat an execution that reaches either as gone wrong, never as a success"
(60_exceptions.md R201). -/
def goneWrong (s : State) : Prop :=
  s.phase = .idle ∧ (s.result.outcome = .ePartial ∨ s.result.outcome = .refused)

/-! ### The invariant -/

/-- The session a running job needs: the pure operations none, SESSION.OPEN a closed one, everything else an open one
(10_state.md R25); a timeout to be set is legal (44_scan_decoder.md R186). -/
def jobSession (s : State) : Job → Prop
  | .none | .frameBuild | .frameParse _ _ => True
  | .writeAck .openSession => s.session = .closed
  | .writeAck (.setTimeout tmo) => s.session = .opened ∧ legalTimeout tmo = true
  | .writeAck .done | .send | .readDeadline _ _ | .readExact _ | .readReply _ | .scanLines => s.session = .opened

/-- The phase the sequencer stands in fits the operation that runs: its own, with the bytes it has by then
(10_state.md R24, R27). An operation that a step runs whole stands only where it waits (log 5). -/
def phaseWork (s : State) : Prop :=
  match s.phase with
  | .idle => s.work = Work.clear
  | .build => s.work.pace = .byPhase ∧ s.work.acc = [] ∧ (s.work.job = .frameBuild ∨ isCommand s.work.job = true)
  | .tx => s.work.pace = .byPhase ∧ s.work.acc = [] ∧ (s.work.job = .send ∨ isCommand s.work.job = true)
  | .rxWait =>
    s.work.pace = .byPhase ∧ (∃ n tmo, s.work.job = .readDeadline n tmo) ∨
    ((∃ n, s.work.job = .readExact n) ∨ isCommand s.work.job = true) ∧ s.work.acc.length ≤ jobBytes s.work.job ∧
      (s.work.pace = .whole → s.work.acc.length < jobBytes s.work.job)
  | .parse =>
    s.work.pace = .byPhase ∧ ((∃ cap check, s.work.job = .frameParse cap check) ∨
      isCommand s.work.job = true ∧ s.work.acc.length = jobBytes s.work.job)
  | .scanFirst => s.work.pace = .byPhase ∧ s.work.job = .scanLines
  | .scanLines => s.work.job = .scanLines ∧ s.work.classCode ≠ Config.noResultCode

/-- What holds of every state a machine can be in. -/
structure Inv (s : State) : Prop where
  /-- Between operations there is no transient state; a running operation stands in a phase of its own (R24, R27;
  log 5). -/
  phaseWork : phaseWork s
  /-- An operation started no later than now (10_state.md R27, `t_start`). -/
  startedBefore : s.work.tStart ≤ s.chan.now
  /-- `SCAN_TIMEOUT` is never illegal while a session is open (10_state.md R23). -/
  timeoutLegal : s.session = .opened → legalTimeout s.scanTimeout = true
  /-- The running job and the session agree (10_state.md R25). -/
  jobSession : jobSession s s.work.job
  /-- The receive queue keeps within a finite `RX_DEPTH` (10_state.md R26). -/
  queueFits : ∀ d, s.chan.rxDepth = some d → s.chan.rxFifo.length ≤ d
  /-- Emitted lines are not empty and hold no terminator; nor does the line being accumulated
  (44_scan_decoder.md R182 items 1, 2). -/
  linesClean : (∀ line ∈ s.work.lines, line ≠ [] ∧ line.all dataByte = true) ∧ s.work.cur.all dataByte = true

end Sys2Proof.Machine
end

