-- ==== Sys2Proof/Certificates/Slice0/Obligations.lean ====
section
/-! DEFINITION. The statements for the provers, each a `Prop`. An operation that ends is described by the
state `t` it answers; `EndsKeeping s t` is its frame (operand registers, session, `SCAN_TIMEOUT`,
parameters, pending requests), to which each statement adds what holds of the channel and the results. -/

section

open Sys2Proof Sys2Proof.Machine

/-! ### Checksum Engine -/

/-- 40_checksum.md R111: `Crc16` is the pseudocode's double loop, written out here on 16-bit values. -/
def Obligations.CrcFollowsPseudocode : Prop :=
  ∀ bytes : List Byte,
    crc16 bytes = bytes.foldl
      (fun (crc : Word) (b : Byte) =>
        (fun c : Word => if c.getLsbD 15 then ((c <<< 1) &&& 0xFFFF) ^^^ 0x1021 else (c <<< 1) &&& 0xFFFF)^[8]
          (crc ^^^ (b.zeroExtend 16 <<< 8)))
      0x0000

/-- 40_checksum.md R112: CRC.COMPUTE always ends with `OK` and the checksum in `CRCOUT`, in an open session
or none, with the rule's corner cases and the register trace of its example. -/
def Obligations.CrcComputeWritesCrcout : Prop :=
  encode .crcCompute = [0x10] ∧
  (∀ s : State, s.phase = .idle →
    ∃ t, exec .crcCompute s = .next t ∧ EndsKeeping s t ∧ t.chan = s.chan ∧ t.result.outcome = .ok ∧
      t.result.crcout = crc16 s.host.ibuf) ∧
  (∀ k, crc16 (List.replicate k 0x00) = 0x0000) ∧ (∀ bytes, crc16 (0x00 :: bytes) = crc16 bytes) ∧
  crc16 [0x00, 0x01] = 0x1021 ∧ crc16 [0x00, 0x01, 0x00] = 0x3331

/-- 40_checksum.md R113: CRC.VERIFY succeeds on the sentinel and on the true checksum and fails on
everything else. -/
def Obligations.CrcVerifyComparesUnlessSentinel : Prop :=
  encode .crcVerify = [0x11] ∧
  ∀ s : State, s.phase = .idle →
    ∃ t, exec .crcVerify s = .next t ∧ EndsKeeping s t ∧ t.chan = s.chan ∧
      (s.host.expect = 0xABCD ∨ crc16 s.host.ibuf = s.host.expect → t.result.outcome = .ok) ∧
      (s.host.expect ≠ 0xABCD ∧ crc16 s.host.ibuf ≠ s.host.expect → t.result.outcome = .eCrc)

/-- 40_checksum.md R114 law 5: a span followed by its own checksum has checksum 0. -/
def Obligations.CrcOfCheckedSpanIsZero : Prop :=
  ∀ bytes : List Byte, crc16 (bytes ++ [hi (crc16 bytes), lo (crc16 bytes)]) = 0x0000

/-- 40_checksum.md R114 law 6, first half: `Crc16` is linear on spans of equal length. -/
def Obligations.CrcIsLinear : Prop :=
  ∀ a b : List Byte, a.length = b.length → crc16 (List.zipWith (· ^^^ ·) a b) = crc16 a ^^^ crc16 b

/-- 40_checksum.md R114 law 6, second half: a change of one bit of the span always changes the checksum. -/
def Obligations.CrcDetectsEverySingleBitFlip : Prop :=
  ∀ (before after : List Byte) (b : Byte) (k : Nat), k < 8 →
    crc16 (before ++ (b ^^^ (1#8 <<< k)) :: after) ≠ crc16 (before ++ b :: after)

/-! ### Frame Codec -/

/-- 41_frame_codec.md R120: what FRAME.BUILD puts into `OBUF`, and when it is refused. -/
def Obligations.FrameBuildLaysOutCommandFrame : Prop :=
  encode .frameBuild = [0x12] ∧
  ∀ s : State, s.phase = .idle →
    ((s.host.rlenEn = true → 1 ≤ s.host.rlen ∧ s.host.rlen ≤ 256) → ∀ body : List Byte,
      body = [s.host.ft, s.host.len, hi s.host.addr, lo s.host.addr] ++
        (if s.host.rlenEn then [BitVec.ofNat 8 (s.host.rlen % 256)] else []) ++ s.host.ibuf →
      ∃ t, exec .frameBuild s = .next t ∧ EndsKeeping s t ∧ t.chan = s.chan ∧ t.result.outcome = .ok ∧
        t.result.obuf = [0x7E, 0x00] ++ body ++ [hi (crc16 body), lo (crc16 body)] ∧
        t.result.olen = body.length + 4) ∧
    (s.host.rlenEn = true → ¬ (1 ≤ s.host.rlen ∧ s.host.rlen ≤ 256) → refuses .frameBuild s)

/-- 41_frame_codec.md R123 and R124: FRAME.PARSE's tests (a) to (e) in their order, the first that applies
reported, and what it returns when none does. -/
def Obligations.FrameParseTestsInOrder : Prop :=
  encode .frameParse = [0x13] ∧
  ∀ s : State, s.phase = .idle → ∀ (buf : List Byte) (len n rx : Nat), buf = s.host.ibuf → len = buf.length →
    rx = (buf.getD (len - 2) 0x00).toNat * 256 + (buf.getD (len - 1) 0x00).toNat →
    n = (if buf.getD 3 0x00 = 0x00 then 256 else (buf.getD 3 0x00).toNat) →
    ∃ t, exec .frameParse s = .next t ∧ EndsKeeping s t ∧ t.chan = s.chan ∧
      (if len < 6 then t.result.outcome = .eShort ∧ t.result.info = 0
      else if buf.getD 0 0x00 ≠ 0x02 ∨ buf.getD 1 0x00 ≠ 0x00 then t.result.outcome = .eHeader
      else if buf.getD 2 0x00 ≠ 0x00 then t.result.outcome = .eStatus ∧ t.result.info = buf.getD 2 0x00
      else if s.host.check = true ∧ rx ≠ 0xABCD ∧ (crc16 ((buf.drop 2).take (len - 4))).toNat ≠ rx then
        t.result.outcome = .eCrc
      else if s.host.cap < n then t.result.outcome = .eShort ∧ t.result.info = 1
      else if len - 6 < n then t.result.outcome = .eShort ∧ t.result.info = 2
      else t.result.outcome = .ok ∧ t.result.obuf = (buf.drop 4).take n ∧ t.result.olen = n)

/-- 41_frame_codec.md R125: with `CHECK = 0` no checksum mismatch is ever reported, and a reply passes
whatever its two trailer bytes. -/
def Obligations.SuppressedParseIgnoresTrailer : Prop :=
  ∀ s : State, s.phase = .idle → s.host.check = false →
    (∃ t, exec .frameParse s = .next t ∧ t.result.outcome ≠ .eCrc) ∧
    (∀ (p : List Byte) (x y : Byte), 1 ≤ p.length → p.length ≤ 256 → p.length ≤ s.host.cap →
      s.host.ibuf = [0x02, 0x00, 0x00, encLen p.length] ++ p ++ [x, y] →
      ∃ t, exec .frameParse s = .next t ∧ EndsKeeping s t ∧ t.chan = s.chan ∧ t.result.outcome = .ok ∧
        t.result.obuf = p ∧ t.result.olen = p.length)

/-- 41_frame_codec.md R127: a received trailer `AB CD` passes whatever the span, with the rule's example and
its true checksum. -/
def Obligations.SentinelTrailerPassesParser : Prop :=
  (∀ (s : State) (p : List Byte), s.phase = .idle → s.host.check = true → 1 ≤ p.length → p.length ≤ 256 →
    p.length ≤ s.host.cap → s.host.ibuf = [0x02, 0x00, 0x00, encLen p.length] ++ p ++ [0xAB, 0xCD] →
    ∃ t, exec .frameParse s = .next t ∧ EndsKeeping s t ∧ t.chan = s.chan ∧ t.result.outcome = .ok ∧
      t.result.obuf = p ∧ t.result.olen = p.length) ∧
  crc16 [0x00, 0x01, 0x77] = 0x3D41

/-- 41_frame_codec.md R128: a hand-built reply is parsed to exactly its payload, with either value of `CHECK`;
and the four rejections. -/
def Obligations.ReplyFramesRoundTrip : Prop :=
  ∀ s : State, s.phase = .idle →
    (∀ p : List Byte, 1 ≤ p.length → p.length ≤ 256 → p.length ≤ s.host.cap → s.host.ibuf = replyBytes 0x00 p →
      ∃ t, exec .frameParse s = .next t ∧ EndsKeeping s t ∧ t.chan = s.chan ∧ t.result.outcome = .ok ∧
        t.result.obuf = p ∧ t.result.olen = p.length) ∧
    (s.host.ibuf.length < 6 → ∃ t, exec .frameParse s = .next t ∧ t.result.outcome = .eShort) ∧
    (6 ≤ s.host.ibuf.length → s.host.ibuf.take 2 ≠ [0x02, 0x00] →
      ∃ t, exec .frameParse s = .next t ∧ t.result.outcome = .eHeader) ∧
    (6 ≤ s.host.ibuf.length → s.host.ibuf.take 2 = [0x02, 0x00] → s.host.ibuf.getD 2 0x00 ≠ 0x00 →
      ∃ t, exec .frameParse s = .next t ∧ t.result.outcome = .eStatus ∧ t.result.info = s.host.ibuf.getD 2 0x00) ∧
    (∀ (p body : List Byte) (c : Word) (k : Nat), 1 ≤ p.length → p.length ≤ 256 → s.host.check = true → k < 16 →
      body = [0x00, encLen p.length] ++ p → c = crc16 body ^^^ (1#16 <<< k) → c ≠ 0xABCD →
      s.host.ibuf = [0x02, 0x00] ++ body ++ [hi c, lo c] →
      ∃ t, exec .frameParse s = .next t ∧ t.result.outcome = .eCrc)

/-- 95_test_vectors.md part 1.3: a reply whose payload differs in one bit from what its trailer covers is a
checksum mismatch, unless the trailer is the sentinel. -/
def Obligations.PayloadBitFlipIsMismatch : Prop :=
  ∀ (s : State) (before after : List Byte) (b : Byte) (k : Nat) (c : Word),
    s.phase = .idle → s.host.check = true → k < 8 →
    c = crc16 ([0x00, encLen (before ++ b :: after).length] ++ (before ++ b :: after)) → c ≠ 0xABCD →
    s.host.ibuf = [0x02, 0x00, 0x00, encLen (before ++ b :: after).length] ++
      (before ++ (b ^^^ (1#8 <<< k)) :: after) ++ [hi c, lo c] →
    ∃ t, exec .frameParse s = .next t ∧ EndsKeeping s t ∧ t.chan = s.chan ∧ t.result.outcome = .eCrc

/-! ### Transport Adapter -/

/-- 42_transport.md R141: TX.WRITE_ALL sends exactly the bytes given, in order, or fails at one of them, which
may or may not have gone out; it reads nothing from the queue. -/
def Obligations.TxWriteAllHandsOverEveryByte : Prop :=
  encode .txWriteAll = [0x14] ∧
  ∀ s : State, s.phase = .idle →
    (s.session ≠ .opened → refuses .txWriteAll s) ∧
    (s.session = .opened →
      ∃ t, exec .txWriteAll s = .next t ∧ EndsKeeping s t ∧
        (s.chan.rxDepth = none → s.chan.rxFifo <+: t.chan.rxFifo ∧ pendingRx t.chan = pendingRx s.chan) ∧
        (t.result.outcome = .ok ∧ t.chan.tx = s.chan.tx ++ s.host.ibuf ∨
          t.result.outcome = .eIo ∧ ∃ i < s.host.ibuf.length,
            t.chan.tx = s.chan.tx ++ s.host.ibuf.take i ∨ t.chan.tx = s.chan.tx ++ s.host.ibuf.take (i + 1)) ∧
        (noFail s.chan.link = true ∨ s.host.ibuf = [] → t.result.outcome = .ok))

/-- 42_transport.md R141, R150 in the model's terms (logs 4, 20, 21): answers of the link at the head of its
events belong to the bytes one by one, in no time; the failing byte goes out as the event says; a link without
an answer accepts; a byte that cuts in joins the queue, full or not, and the transfer goes on. -/
def Obligations.TransmissionFollowsLinkAnswers : Prop :=
  ∀ (s : State) (k : Nat) (l : List LinkEvent), s.phase = .idle → s.session = .opened →
    (∀ sent : Bool, k < s.host.ibuf.length → s.chan.link = List.replicate k .ok ++ .fail sent :: l →
      ∃ t, exec .txWriteAll s = .next t ∧ EndsKeeping s t ∧ t.result.outcome = .eIo ∧
        t.chan = { s.chan with tx := s.chan.tx ++ s.host.ibuf.take (if sent then k + 1 else k), link := l }) ∧
    (k ≤ s.host.ibuf.length → s.chan.link = List.replicate k .ok ++ l →
      (k = s.host.ibuf.length ∨ ∀ e ∈ l.head?, isAnswer e = false ∧ isCutIn e = false) →
      ∃ t, exec .txWriteAll s = .next t ∧ EndsKeeping s t ∧ t.result.outcome = .ok ∧
        t.chan = { s.chan with tx := s.chan.tx ++ s.host.ibuf, link := l }) ∧
    (∀ b : Byte, k < s.host.ibuf.length → s.chan.link = List.replicate k .ok ++ .cutIn b :: l →
      exec .txWriteAll s =
        exec .txWriteAll { s with chan := pushRx b { s.chan with link := List.replicate k .ok ++ l } }) ∧
    (∀ b : Byte, s.chan.link = .cutIn b :: l → 1 ≤ s.host.n →
      exec .rxReadExact s = exec .rxReadExact { s with chan := pushRx b { s.chan with link := l } })

/-- 42_transport.md R142: RX.READ_EXACT returns the oldest `N` bytes of the RX stream, waits while there are
fewer, fails when the link does, and does not touch the link when `N = 0`. -/
def Obligations.ReadExactTakesOldestBytes : Prop :=
  encode .rxReadExact = [0x15] ∧
  ∀ s : State, s.phase = .idle →
    (s.session ≠ .opened → refuses .rxReadExact s) ∧
    (s.session = .opened →
      (s.host.n = 0 → ∃ t, exec .rxReadExact s = .next t ∧ EndsKeeping s t ∧ t.chan = s.chan ∧
        t.result.outcome = .ok ∧ t.result.obuf = [] ∧ t.result.olen = 0) ∧
      (calm s.chan = true → s.host.n ≤ (pendingRx s.chan).length →
        ∃ t, exec .rxReadExact s = .next t ∧ EndsKeeping s t ∧ t.chan.tx = s.chan.tx ∧ t.result.outcome = .ok ∧
          t.result.obuf = (pendingRx s.chan).take s.host.n ∧ t.result.olen = s.host.n ∧
          pendingRx t.chan = (pendingRx s.chan).drop s.host.n) ∧
      (calm s.chan = true → (pendingRx s.chan).length < s.host.n →
        ∃ t, exec .rxReadExact s = .next t ∧ WaitsKeeping s t ∧ t.chan.tx = s.chan.tx ∧ t.phase = .rxWait ∧
          t.work.acc = pendingRx s.chan ∧ pendingRx t.chan = []) ∧
      (∀ (l : List LinkEvent) (sent : Bool) (rest : List LinkEvent), s.chan.rxDepth = none →
        s.chan.link = l ++ .fail sent :: rest → noFail l = true →
        (s.chan.rxFifo ++ arrivals l).length < s.host.n →
        ∃ t, exec .rxReadExact s = .next t ∧ EndsKeeping s t ∧ t.chan.tx = s.chan.tx ∧ t.chan.link = rest ∧
          t.result.outcome = .eIo))

/-- 42_transport.md R144: RX.READ_BYTE is RX.READ_EXACT with `N = 1`. -/
def Obligations.ReadByteIsReadExactOfOne : Prop :=
  encode .rxReadByte = [0x17] ∧
  ∀ s : State, s.phase = .idle →
    (s.session ≠ .opened → refuses .rxReadByte s) ∧
    (s.session = .opened →
      (s.host.n = 1 → exec .rxReadByte s = exec .rxReadExact s) ∧
      (∀ (b : Byte) (rest : List Byte), calm s.chan = true → pendingRx s.chan = b :: rest →
        ∃ t, exec .rxReadByte s = .next t ∧ EndsKeeping s t ∧ t.chan.tx = s.chan.tx ∧ t.result.outcome = .ok ∧
          t.result.obuf = [b] ∧ t.result.olen = 1 ∧ pendingRx t.chan = rest) ∧
      (calm s.chan = true → pendingRx s.chan = [] →
        ∃ t, exec .rxReadByte s = .next t ∧ WaitsKeeping s t ∧ t.chan.tx = s.chan.tx ∧ pendingRx t.chan = []) ∧
      (∀ (sent : Bool) (rest : List LinkEvent), s.chan.link = .fail sent :: rest →
        ∃ t, exec .rxReadByte s = .next t ∧ EndsKeeping s t ∧ t.chan.tx = s.chan.tx ∧ t.result.outcome = .eIo))

/-- 42_transport.md R145: RX.DISCARD drops exactly the queued bytes; bytes still to come stay; the link may
fail instead. That it takes no time is the model's choice (log 20). -/
def Obligations.DiscardDropsQueuedBytes : Prop :=
  encode .rxDiscard = [0x18] ∧
  ∀ s : State, s.phase = .idle →
    (s.session ≠ .opened → refuses .rxDiscard s) ∧
    (s.session = .opened →
      ((∀ e ∈ s.chan.link.head?, isFail e = false) →
        ∃ t, exec .rxDiscard s = .next t ∧ EndsKeeping s t ∧ t.chan.tx = s.chan.tx ∧ t.chan.now = s.chan.now ∧
          t.result.outcome = .ok ∧ t.chan.rxFifo = [] ∧ pendingRx t.chan = arrivals s.chan.link) ∧
      (∀ (sent : Bool) (rest : List LinkEvent), s.chan.link = .fail sent :: rest →
        ∃ t, exec .rxDiscard s = .next t ∧ EndsKeeping s t ∧ t.chan.tx = s.chan.tx ∧ t.chan.now = s.chan.now ∧
          t.result.outcome = .eIo))

/-- 42_transport.md R146 and R147: whatever the link does, RX.READ_DEADLINE ends, at most 100 ms after its
deadline; short of `N` bytes it does not end before the deadline; the bytes it returns, or counts, are the oldest
of the stream; and a byte that arrives before the deadline is taken when it arrives (events are the model's form of
link and time, log 4; taking the byte takes no time, log 20). `Now()` is `Channel.now`, which advances in ticks of
`TICK`, 1 to 101 ms (log 26). -/
def Obligations.DeadlineReadEndsInItsWindow : Prop :=
  ∀ s : State, s.phase = .idle →
    (s.session ≠ .opened ∨ s.host.n = 0 → refuses .rxReadDeadline s) ∧
    (s.session = .opened → 1 ≤ s.host.n →
      ∃ t, exec .rxReadDeadline s = .next t ∧ EndsKeeping s t ∧ t.chan.tx = s.chan.tx ∧
        s.chan.now ≤ t.chan.now ∧ t.chan.now ≤ s.chan.now + s.host.tmo + 100 ∧
        (t.result.outcome = .ok ∧ t.result.olen = s.host.n ∧ t.result.obuf.length = s.host.n ∧
            (s.chan.rxDepth = none → t.result.obuf ++ pendingRx t.chan = pendingRx s.chan) ∨
          t.result.outcome = .noData ∧ t.result.olen = 0 ∧ s.chan.now + s.host.tmo ≤ t.chan.now ∧
            (s.chan.rxDepth = none → pendingRx t.chan = pendingRx s.chan) ∨
          t.result.outcome = .ePartial ∧ s.chan.now + s.host.tmo ≤ t.chan.now ∧
            (∃ taken : List Byte, 1 ≤ taken.length ∧ taken.length < s.host.n ∧
              t.result.info = BitVec.ofNat 8 (taken.length % 256) ∧
              (s.chan.rxDepth = none → taken ++ pendingRx t.chan = pendingRx s.chan)) ∨
          t.result.outcome = .eIo ∧ noFail s.chan.link = false)) ∧
    (∀ (waits : List Nat) (b : Byte) (l : List LinkEvent), s.session = .opened → s.host.n = 1 →
      s.chan.rxDepth = none → s.chan.rxFifo = [] → s.chan.link = waits.map .elapse ++ .arrive b :: l →
      waits.sum * tickMs s.chan < s.host.tmo →
      ∃ t, exec .rxReadDeadline s = .next t ∧ EndsKeeping s t ∧ t.result.outcome = .ok ∧ t.result.obuf = [b] ∧
        t.result.olen = 1 ∧ t.chan = { s.chan with now := s.chan.now + waits.sum * tickMs s.chan, link := l })

/-- 42_transport.md R146, R147: bytes that are queued when the read starts are taken at once, oldest first. "At
once" is no time at all (log 20). -/
def Obligations.DeadlineReadTakesQueuedBytesAtOnce : Prop :=
  ∀ s : State, s.phase = .idle → s.session = .opened → calm s.chan = true → 1 ≤ s.host.n → 1 ≤ s.host.tmo →
    s.host.n ≤ s.chan.rxFifo.length →
    ∃ t, exec .rxReadDeadline s = .next t ∧ EndsKeeping s t ∧ t.chan.tx = s.chan.tx ∧ t.chan.now = s.chan.now ∧
      t.result.outcome = .ok ∧ t.result.obuf = s.chan.rxFifo.take s.host.n ∧ t.result.olen = s.host.n ∧
      s.chan.rxFifo.drop s.host.n <+: t.chan.rxFifo ∧ pendingRx t.chan = (pendingRx s.chan).drop s.host.n

/-- 42_transport.md R146 and R148 on a silent link: with nothing queued the outcome is `NO_DATA`, with some
bytes but not all it is `E_PARTIAL` with their count, and they are lost; it ends in the window of R147. -/
def Obligations.SilentDeadlineReadReportsWhatItHas : Prop :=
  ∀ s : State, s.phase = .idle → s.session = .opened → s.chan.link = [] → 1 ≤ s.host.tmo →
    s.chan.rxFifo.length < s.host.n →
    ∃ t, exec .rxReadDeadline s = .next t ∧ EndsKeeping s t ∧ t.chan.tx = s.chan.tx ∧ t.chan.rxFifo = [] ∧
      s.chan.now + s.host.tmo ≤ t.chan.now ∧ t.chan.now ≤ s.chan.now + s.host.tmo + 100 ∧
      (s.chan.rxFifo = [] → t.result.outcome = .noData ∧ t.result.olen = 0) ∧
      (s.chan.rxFifo ≠ [] → t.result.outcome = .ePartial ∧ t.result.info = BitVec.ofNat 8 (s.chan.rxFifo.length % 256))

/-- 42_transport.md R146, corner case `TMO = 0`, which admits both orders of clock test and poll (log 19): a
queued byte is left, unless the link's events call for one poll more. Neither takes time (log 20). -/
def Obligations.ZeroDeadlineAdmitsBothOrders : Prop :=
  ∀ (s : State) (b : Byte) (q : List Byte), s.phase = .idle → s.session = .opened → s.host.n = 1 → s.host.tmo = 0 →
    s.chan.rxFifo = b :: q →
    (s.chan.link = [] → ∃ t, exec .rxReadDeadline s = .next t ∧ EndsKeeping s t ∧ t.chan = s.chan ∧
      t.result.outcome = .noData ∧ t.result.olen = 0) ∧
    (s.chan.link = [.latePoll] → ∃ t, exec .rxReadDeadline s = .next t ∧ EndsKeeping s t ∧
      t.chan = { s.chan with rxFifo := q, link := [] } ∧ t.result.outcome = .ok ∧ t.result.obuf = [b] ∧
      t.result.olen = 1)

/-! ### Command/Reply Engine -/

/-- 43_command_reply.md R161, R162, R163: CMD.WRITE sends its frame, takes seven bytes, and reports the first
test they fail; the acknowledgement byte itself is not looked at. -/
def Obligations.CmdWriteValidatesAcknowledgement : Prop :=
  encode .cmdWrite = [0x19] ∧
  ∀ s : State, s.phase = .idle →
    (s.session ≠ .opened ∨ s.host.ibuf = [] ∨ 256 < s.host.ibuf.length → refuses .cmdWrite s) ∧
    (s.session = .opened → s.host.ibuf ≠ [] → s.host.ibuf.length ≤ 256 →
      (∀ reply rest : List Byte, calm s.chan = true → reply.length = 7 → pendingRx s.chan = reply ++ rest →
        ∃ t, exec .cmdWrite s = .next t ∧ EndsKeeping s t ∧
          t.chan.tx = s.chan.tx ++ writeBytes s.host.addr s.host.ibuf ∧ pendingRx t.chan = rest ∧
          t.result.outcome = replyOutcome 1 reply ∧ replyInfo reply t.result.outcome t.result.info ∧
          (∀ ack, reply = replyBytes 0x00 [ack] → t.result.outcome = .ok)) ∧
      (calm s.chan = true → (pendingRx s.chan).length < 7 →
        ∃ t, exec .cmdWrite s = .next t ∧ WaitsKeeping s t ∧
          t.chan.tx = s.chan.tx ++ writeBytes s.host.addr s.host.ibuf ∧ pendingRx t.chan = []) ∧
      (∀ (l : List LinkEvent) (sent : Bool) (rest : List LinkEvent), s.chan.rxDepth = none →
        s.chan.link = l ++ .fail sent :: rest → noFail l = true → (s.chan.rxFifo ++ arrivals l).length < 7 →
        ∃ t, exec .cmdWrite s = .next t ∧ EndsKeeping s t ∧ t.chan.link = rest ∧ t.result.outcome = .eIo))

/-- 43_command_reply.md R164, R165: CMD.READ sends its frame, takes `N + 6` bytes, and returns as many payload
bytes as the reply's length byte says, or the first test that fails. -/
def Obligations.CmdReadExtractsPayload : Prop :=
  encode .cmdRead = [0x1A] ∧
  ∀ s : State, s.phase = .idle →
    (s.session ≠ .opened ∨ s.host.n = 0 ∨ 256 < s.host.n → refuses .cmdRead s) ∧
    (s.session = .opened → 1 ≤ s.host.n → s.host.n ≤ 256 →
      (∀ reply rest : List Byte, calm s.chan = true → reply.length = s.host.n + 6 →
        pendingRx s.chan = reply ++ rest →
        ∃ t, exec .cmdRead s = .next t ∧ EndsKeeping s t ∧
          t.chan.tx = s.chan.tx ++ readBytes s.host.addr s.host.n ∧ pendingRx t.chan = rest ∧
          t.result.outcome = replyOutcome s.host.n reply ∧ replyInfo reply t.result.outcome t.result.info ∧
          (t.result.outcome = .ok → t.result.olen = decLen (reply.getD 3 0x00) ∧
            t.result.obuf = (reply.drop 4).take t.result.olen ∧ 1 ≤ t.result.olen ∧ t.result.olen ≤ s.host.n) ∧
          (isError t.result.outcome = true → ∃ k, t.result.obuf = Config.freeBytes k)) ∧
      (calm s.chan = true → (pendingRx s.chan).length < s.host.n + 6 →
        ∃ t, exec .cmdRead s = .next t ∧ WaitsKeeping s t ∧
          t.chan.tx = s.chan.tx ++ readBytes s.host.addr s.host.n ∧ pendingRx t.chan = []) ∧
      (∀ (l : List LinkEvent) (sent : Bool) (rest : List LinkEvent), s.chan.rxDepth = none →
        s.chan.link = l ++ .fail sent :: rest → noFail l = true →
        (s.chan.rxFifo ++ arrivals l).length < s.host.n + 6 →
        ∃ t, exec .cmdRead s = .next t ∧ EndsKeeping s t ∧ t.chan.link = rest ∧ t.result.outcome = .eIo))

/-- 43_command_reply.md R164, 41_frame_codec.md R128: a right reply of `N` bytes, the 256 of the sentinel
included, reaches the host whole. -/
def Obligations.CmdReadReturnsWholePayload : Prop :=
  ∀ (s : State) (p rest : List Byte), s.phase = .idle → s.session = .opened → calm s.chan = true →
    1 ≤ p.length → p.length ≤ 256 → s.host.n = p.length → pendingRx s.chan = replyBytes 0x00 p ++ rest →
    ∃ t, exec .cmdRead s = .next t ∧ EndsKeeping s t ∧ t.chan.tx = s.chan.tx ++ readBytes s.host.addr s.host.n ∧
      pendingRx t.chan = rest ∧ t.result.outcome = .ok ∧ t.result.obuf = p ∧ t.result.olen = p.length

/-- 43_command_reply.md R160: "a transmit failure means no read is attempted", for the operations that begin
with a command frame. The model's own choices are the form of the failure as an event after `k` answers (log 4),
that a transmission takes no time, so that the channel keeps its `now` (log 20), and that the event says whether
the failing byte went out (log 21). -/
def Obligations.FailedTransmitReadsNothing : Prop :=
  ∀ (s : State) (k : Nat) (sent : Bool) (l : List LinkEvent) (frame : List Byte), s.phase = .idle →
    k < frame.length → s.chan.link = List.replicate k .ok ++ .fail sent :: l →
    ∀ i, (i = .cmdWrite ∧ s.session = .opened ∧ 1 ≤ s.host.ibuf.length ∧ s.host.ibuf.length ≤ 256 ∧
          frame = writeBytes s.host.addr s.host.ibuf ∨
        i = .cmdRead ∧ s.session = .opened ∧ 1 ≤ s.host.n ∧ s.host.n ≤ 256 ∧ frame = readBytes s.host.addr s.host.n ∨
        i = .scanSetTimeout ∧ s.session = .opened ∧ 1 ≤ s.host.tmo ∧ s.host.tmo ≤ 25500 ∧
          frame = writeBytes s.params.addrScanTimeout [BitVec.ofNat 8 (s.host.tmo / 100)]) →
      ∃ t, exec i s = .next t ∧ EndsKeeping s t ∧ t.result.outcome = .eIo ∧
        t.chan = { s.chan with tx := s.chan.tx ++ frame.take (if sent then k + 1 else k), link := l }

/-- 43_command_reply.md R160, R171: CMD.READ does what the host does who builds the frame, sends it, reads the
reply and parses it with the four operations by hand. -/
def Obligations.CmdReadIsItsFourSteps : Prop :=
  ∀ s u₁ u₂ u₃ u₄ : State, s.phase = .idle → s.session = .opened → calm s.chan = true → 1 ≤ s.host.n →
    s.host.n ≤ 256 →
    exec .frameBuild { s with host := { s.host with ft := 0x07, len := 0x01, rlenEn := true, rlen := s.host.n, ibuf := [] } } =
      .next u₁ →
    exec .txWriteAll { u₁ with host := { u₁.host with ibuf := u₁.result.obuf } } = .next u₂ →
    exec .rxReadExact { u₂ with host := { u₂.host with n := s.host.n + 6 } } = .next u₃ → u₃.phase = .idle →
    exec .frameParse { u₃ with host := { u₃.host with ibuf := u₃.result.obuf, cap := s.host.n, check := true } } = .next u₄ →
    ∃ t, exec .cmdRead s = .next t ∧ EndsKeeping s t ∧ t.chan = u₄.chan ∧ t.result.outcome = u₄.result.outcome ∧
      (t.result.outcome = .ok → t.result.obuf = u₄.result.obuf ∧ t.result.olen = u₄.result.olen) ∧
      (t.result.outcome = .eStatus ∨ t.result.outcome = .eShort → t.result.info = u₄.result.info)

/-- 43_command_reply.md R160, R171: the same of CMD.WRITE. -/
def Obligations.CmdWriteIsItsFourSteps : Prop :=
  ∀ s u₁ u₂ u₃ u₄ : State, s.phase = .idle → s.session = .opened → calm s.chan = true → s.host.ibuf ≠ [] →
    s.host.ibuf.length ≤ 256 →
    exec .frameBuild { s with host := { s.host with ft := 0x08, len := encLen s.host.ibuf.length, rlenEn := false } } =
      .next u₁ →
    exec .txWriteAll { u₁ with host := { u₁.host with ibuf := u₁.result.obuf } } = .next u₂ →
    exec .rxReadExact { u₂ with host := { u₂.host with n := 7 } } = .next u₃ → u₃.phase = .idle →
    exec .frameParse { u₃ with host := { u₃.host with ibuf := u₃.result.obuf, cap := 1, check := true } } = .next u₄ →
    ∃ t, exec .cmdWrite s = .next t ∧ EndsKeeping s t ∧ t.chan = u₄.chan ∧ t.result.outcome = u₄.result.outcome ∧
      (t.result.outcome = .eStatus ∨ t.result.outcome = .eShort → t.result.info = u₄.result.info)

/-- 43_command_reply.md R168 to R170: the pseudo-operations are their commands, and what SCAN.START, SCAN.STOP
and FACTORY.RESET transmit; `SCAN_TIMEOUT` is not touched. -/
def Obligations.PseudoOperationsAreTheirCommands : Prop :=
  ∀ (s : State) (o : Operands) (rest : List Request), s.phase = .idle →
    (∀ (a : Word) (v : Byte), s.requests = write1 o a v :: rest →
      step s = exec .cmdWrite { s with requests := rest, host := { o with op := 0x19, addr := a, ibuf := [v] } }) ∧
    (∀ (a : Word) (n : Nat), s.requests = readN o a n :: rest →
      step s = exec .cmdRead { s with requests := rest, host := { o with op := 0x1A, addr := a, n := n } }) ∧
    (s.session = .opened → calm s.chan = true → ∀ (r : Request) (frame : List Byte), s.requests = r :: rest →
      (r = scanStart o s.params ∧ frame = writeBytes s.params.addrScanTrigger [0x01] ∨
        r = scanStop o s.params ∧ frame = writeBytes s.params.addrScanTrigger [0x00] ∨
        r = factoryReset o ∧ frame = [0x7E, 0x00, 0x08, 0x01, 0x00, 0xD9, 0x50, 0x81, 0xD3]) →
      ∃ t, step s = .next t ∧ t.chan.tx = s.chan.tx ++ frame ∧ t.scanTimeout = s.scanTimeout ∧
        t.session = .opened ∧ (t.phase = .idle ↔ 7 ≤ (pendingRx s.chan).length))

/-- 70_reset_and_hazards.md R237, 42_transport.md R143: a command or exact read that lacks bytes never ends while
the link sends too few and does not fail; with a link that does nothing, its state does not move; when the link
fails, it ends with `E_IO`. -/
def Obligations.ShortReplyHangs : Prop :=
  ∀ s : State, s.phase = .rxWait → s.work.job ≠ .none → s.work.job ≠ .scanLines → s.requests = [] →
    (calm s.chan = true → s.work.acc.length + (pendingRx s.chan).length < jobBytes s.work.job →
      (∃ t, step s = .next t ∧ WaitsKeeping s t ∧ t.phase = .rxWait ∧ t.chan.tx = s.chan.tx ∧ pendingRx t.chan = [] ∧
        t.work = { s.work with acc := s.work.acc ++ pendingRx s.chan }) ∧
      (s.chan.rxFifo = [] → s.chan.link = [] → step s = .next s)) ∧
    (∀ (l : List LinkEvent) (sent : Bool) (rest : List LinkEvent), s.chan.rxDepth = none →
      s.chan.link = l ++ .fail sent :: rest → noFail l = true →
      s.work.acc.length + (s.chan.rxFifo ++ arrivals l).length < jobBytes s.work.job →
      ∃ t, step s = .next t ∧ EndsKeeping s t ∧ t.chan.tx = s.chan.tx ∧ t.chan.link = rest ∧ t.result.outcome = .eIo)

/-- 20_memory.md R62, 42_transport.md R143: that an operation waited is not seen in its result. The link's
events are cut in two; running on the first part up to the wait and going on with the second ends as
running on the whole does (logs 4, 5), with the same channel once the bytes about to cut in have landed. Nor is
it seen that an operation ran phase by phase: it passes its phases of 10_state.md R24 in their order, one a step, and
ends, or waits, as the operation that runs in one step does (log 5). -/
def Obligations.WaitingIsNotSeenInTheResult : Prop :=
  (∀ (i : Instr) (s u : State) (l₁ l₂ : List LinkEvent),
    i ∈ [Instr.rxReadExact, .rxReadByte, .cmdWrite, .cmdRead, .scanSetTimeout, .sessionOpen] →
    s.phase = .idle → calm s.chan = true → s.chan.link = l₁ ++ l₂ → (∀ e ∈ l₂, isAnswer e = false) →
    exec i { s with chan := { s.chan with link := l₁ } } = .next u → u.phase = .rxWait →
    ∃ t v, exec i s = .next t ∧ step { u with chan := { u.chan with link := l₂ }, requests := [] } = .next v ∧
      v.phase = t.phase ∧ v.work = t.work ∧ land v.chan.link v.chan = land t.chan.link t.chan ∧
      v.session = t.session ∧ v.scanTimeout = t.scanTimeout ∧
      (t.phase = .idle → v.result.outcome = t.result.outcome) ∧
      (t.phase = .idle → t.result.outcome = .ok → i ∈ [Instr.rxReadExact, .rxReadByte, .cmdRead] →
        v.result.obuf = t.result.obuf ∧ v.result.olen = t.result.olen)) ∧
  (∀ (i : Instr) (s t : State), s.phase = .idle → s.requests = [] → (∀ status p crc, i ≠ .wireReply status p crc) →
    exec i s = .next t →
    ∃ u v n, startPhased i s = .next u ∧ core.run n u = .next v ∧ SameEnd i t v ∧ n ≤ (phasesOf i).length ∧
      ∀ m < n, ∃ w, core.run m u = .next w ∧ (phasesOf i)[m]? = some w.phase)

/-- 30_encoding.md R81, R82: the frames the two commands send have the layouts and lengths of the rules, and
the decoder reads them back with their own checksum. -/
def Obligations.EngineFramesAreWireFrames : Prop :=
  (∀ (addr : Word) (p : List Byte), 1 ≤ p.length → p.length ≤ 256 →
    writeFrame addr p = writeBytes addr p ∧ (writeFrame addr p).length = p.length + 8 ∧
    decode .wire (writeFrame addr p) =
      .ok (.wireWrite addr p (crc16 ([0x08, encLen p.length, hi addr, lo addr] ++ p)), [])) ∧
  (∀ (addr : Word) (n : Nat), 1 ≤ n → n ≤ 256 →
    readFrame addr n = readBytes addr n ∧ (readFrame addr n).length = 9 ∧
    decode .wire (readFrame addr n) = .ok (.wireRead addr n (crc16 [0x07, 0x01, hi addr, lo addr, encLen n]), []))

/-! ### Scan Payload Decoder -/

/-- 44_scan_decoder.md R181 to R184 on the grammar of 30_encoding.md R86: SCAN.READ consumes exactly one
payload, keeps its non-empty lines in order, and only then looks at the classification code. -/
def Obligations.ScanReadParsesGrammar : Prop :=
  ∀ (s : State) (code : Byte) (q : List Byte) (items : List (List Byte)) (last rest : List Byte)
    (lines : List (List Byte)),
    s.phase = .idle → s.session = .opened → calm s.chan = true → s.params.lineCap = none → s.params.linesCap = none →
    1 ≤ s.scanTimeout → s.chan.rxFifo = code :: q → code ≠ 0x00 →
    (∀ line ∈ items, line.all dataByte = true) → last.all dataByte = true →
    pendingRx s.chan = code :: (scanBody items last ++ rest) → lines = (items ++ [last]).filter (· ≠ []) →
    ∃ t, exec .scanRead s = .next t ∧ EndsKeeping s t ∧ t.chan.tx = s.chan.tx ∧ pendingRx t.chan = rest ∧
      scanReport s.params code lines t.result

/-- 44_scan_decoder.md R181 to R184: a SCAN.READ that has waited goes on with the line it had begun and the
lines it had, and ends as if it had not waited (suspension is the model's form, log 5). -/
def Obligations.SuspendedScanReadGoesOn : Prop :=
  ∀ (s : State) (items : List (List Byte)) (last first : List Byte) (others : List (List Byte)) (rest : List Byte)
    (lines : List (List Byte)),
    s.phase = .scanLines → s.work.job = .scanLines → s.requests = [] → calm s.chan = true →
    s.params.lineCap = none → s.params.linesCap = none →
    (∀ line ∈ items, line.all dataByte = true) → last.all dataByte = true →
    pendingRx s.chan = scanBody items last ++ rest → items ++ [last] = first :: others →
    lines = s.work.lines ++ ((s.work.cur ++ first) :: others).filter (· ≠ []) →
    ∃ t, step s = .next t ∧ EndsKeeping s t ∧ t.chan.tx = s.chan.tx ∧ pendingRx t.chan = rest ∧
      scanReport s.params s.work.classCode lines t.result

/-- 44_scan_decoder.md R181: SCAN.READ reads its first byte as RX.READ_DEADLINE does with `N = 1` and the
session's timeout. None in time, or 0x00, is `NO_RESULT`; a failure ends it; any other byte is the code of a
payload, whenever in the window it came; a failure in the line loop after it ends it too. -/
def Obligations.ScanReadFirstByteUnderDeadline : Prop :=
  ∀ s : State, s.phase = .idle →
    (s.session ≠ .opened → refuses .scanRead s) ∧
    (∀ u : State, s.session = .opened →
      exec .rxReadDeadline { s with host := { s.host with n := 1, tmo := s.scanTimeout } } = .next u →
      (u.result.outcome = .noData ∨ u.result.outcome = .ok ∧ u.result.obuf = [0x00] →
        ∃ t, exec .scanRead s = .next t ∧ EndsKeeping s t ∧ t.chan = u.chan ∧ t.result.outcome = .noResult) ∧
      (u.result.outcome = .eIo →
        ∃ t, exec .scanRead s = .next t ∧ EndsKeeping s t ∧ t.chan = u.chan ∧ t.result.outcome = .eIo) ∧
      (∀ (code : Byte) (items : List (List Byte)) (last rest : List Byte), u.result.outcome = .ok →
        u.result.obuf = [code] → code ≠ 0x00 → calm u.chan = true → s.params.lineCap = none →
        s.params.linesCap = none → (∀ line ∈ items, line.all dataByte = true) → last.all dataByte = true →
        pendingRx u.chan = scanBody items last ++ rest →
        ∃ t, exec .scanRead s = .next t ∧ EndsKeeping s t ∧ t.chan.tx = s.chan.tx ∧ pendingRx t.chan = rest ∧
          scanReport s.params code ((items ++ [last]).filter (· ≠ [])) t.result) ∧
      (∀ (code : Byte) (l : List LinkEvent) (sent : Bool) (rest : List LinkEvent), u.result.outcome = .ok →
        u.result.obuf = [code] → code ≠ 0x00 → u.chan.rxDepth = none → u.chan.link = l ++ .fail sent :: rest →
        noFail l = true → s.params.lineCap = none → s.params.linesCap = none →
        (∀ b ∈ u.chan.rxFifo ++ arrivals l, b ≠ 0x0D) →
        ∃ t, exec .scanRead s = .next t ∧ EndsKeeping s t ∧ t.chan.tx = s.chan.tx ∧ t.chan.link = rest ∧
          t.result.outcome = .eIo))

/-- 70_reset_and_hazards.md R238: after a nonzero first byte SCAN.READ does not end while no carriage return
comes and the link does not fail, neither when it starts nor when it goes on; one that waits ends with `E_IO`
when the link fails (44_scan_decoder.md R181). -/
def Obligations.ScanWithoutCarriageReturnHangs : Prop :=
  (∀ (s : State) (code : Byte) (q data : List Byte), s.phase = .idle → s.session = .opened → calm s.chan = true →
    s.params.lineCap = none → s.params.linesCap = none → 1 ≤ s.scanTimeout → s.chan.rxFifo = code :: q →
    code ≠ 0x00 → pendingRx s.chan = code :: data → (∀ b ∈ data, b ≠ 0x0D) →
    ∃ t, exec .scanRead s = .next t ∧ WaitsKeeping s t ∧ t.phase = .scanLines ∧ t.chan.tx = s.chan.tx ∧
      pendingRx t.chan = []) ∧
  (∀ s : State, s.phase = .scanLines → s.work.job = .scanLines → s.requests = [] → calm s.chan = true →
    s.params.lineCap = none → s.params.linesCap = none → (∀ b ∈ pendingRx s.chan, b ≠ 0x0D) →
    ∃ t, step s = .next t ∧ WaitsKeeping s t ∧ t.phase = .scanLines ∧ t.chan.tx = s.chan.tx ∧ pendingRx t.chan = [] ∧
      (s.chan.rxFifo = [] → s.chan.link = [] → t = s)) ∧
  (∀ (s : State) (l : List LinkEvent) (sent : Bool) (rest : List LinkEvent), s.phase = .scanLines →
    s.work.job = .scanLines → s.requests = [] → s.chan.rxDepth = none → s.chan.link = l ++ .fail sent :: rest →
    noFail l = true → s.params.lineCap = none → s.params.linesCap = none →
    (∀ b ∈ s.chan.rxFifo ++ arrivals l, b ≠ 0x0D) →
    ∃ t, step s = .next t ∧ EndsKeeping s t ∧ t.chan.tx = s.chan.tx ∧ t.chan.link = rest ∧ t.result.outcome = .eIo)

/-- 44_scan_decoder.md R183: the points of `CLASS_MAP` the source fixes, whatever the open parameters are. -/
def Obligations.ClassMapKeepsFixedPoints : Prop :=
  ∀ p : Params, classMap p 0x64 = .linear .ean13 ∧ classMap p 0x51 = .matrix .qr ∧ classMap p 0x99 = .none ∧
    ∃ code : Byte, code ∉ [(0x00 : Byte), 0x51, 0x64, 0x99] ∧ classMap p code = .matrix .dotMatrix

/-- 44_scan_decoder.md R182 item 9 with decision D25: a model with finite capacities faults on overflow, at the
byte that makes a line too long (the first line or a later one), or at the terminator (LF or CR) that ends one
non-empty line too many; when SCAN.READ starts, and when it goes on with the line and the lines it has. -/
def Obligations.FiniteCapacitiesFaultOnOverflow : Prop :=
  (∀ (s : State) (code : Byte) (q : List Byte) (items : List (List Byte)) (data rest : List Byte),
    s.phase = .idle → s.session = .opened → calm s.chan = true → 1 ≤ s.scanTimeout → s.chan.rxFifo = code :: q →
    code ≠ 0x00 → (∀ line ∈ items, line.all dataByte = true) → data.all dataByte = true →
    (∀ k, s.params.lineCap = some k → ∀ line ∈ items, line.length ≤ k) →
    (∀ k, s.params.linesCap = some k → (items.filter (· ≠ [])).length ≤ k) →
    (∀ k, s.params.lineCap = some k → data.length = k + 1 →
      pendingRx s.chan = code :: ((items.map (· ++ [0x0A])).flatten ++ data ++ rest) →
      exec .scanRead s = .fault .lineOverflow) ∧
    (∀ (k : Nat) (x : Byte), s.params.linesCap = some k → (items.filter (· ≠ [])).length = k → data ≠ [] →
      (∀ m, s.params.lineCap = some m → data.length ≤ m) → x = 0x0A ∨ x = 0x0D →
      pendingRx s.chan = code :: ((items.map (· ++ [0x0A])).flatten ++ data ++ x :: rest) →
      exec .scanRead s = .fault .linesOverflow)) ∧
  (∀ (s : State) (data rest : List Byte), s.phase = .scanLines → s.work.job = .scanLines → s.requests = [] →
    calm s.chan = true → data.all dataByte = true →
    (∀ k, s.params.lineCap = some k → s.work.cur.length ≤ k → s.work.cur.length + data.length = k + 1 →
      pendingRx s.chan = data ++ rest → step s = .fault .lineOverflow) ∧
    (∀ (k : Nat) (x : Byte), s.params.linesCap = some k → s.work.lines.length = k → s.work.cur ++ data ≠ [] →
      (∀ m, s.params.lineCap = some m → s.work.cur.length + data.length ≤ m) → x = 0x0A ∨ x = 0x0D →
      pendingRx s.chan = data ++ x :: rest → step s = .fault .linesOverflow))

/-- 44_scan_decoder.md R186: SCAN.SET_TIMEOUT validates, writes to the device, and stores the value only when
the device has acknowledged. -/
def Obligations.SetTimeoutStoresOnlyAcknowledgedValue : Prop :=
  encode .scanSetTimeout = [0x1C] ∧
  ∀ s : State, s.phase = .idle →
    (s.session ≠ .opened → refuses .scanSetTimeout s) ∧
    (s.session = .opened →
      (s.host.tmo = 0 → ∃ t, exec .scanSetTimeout s = .next t ∧ EndsKeeping s t ∧ t.chan = s.chan ∧
        t.result.outcome = .eRange ∧ t.result.info = 0) ∧
      (25500 < s.host.tmo → ∃ t, exec .scanSetTimeout s = .next t ∧ EndsKeeping s t ∧ t.chan = s.chan ∧
        t.result.outcome = .eRange ∧ t.result.info = 1) ∧
      (1 ≤ s.host.tmo → s.host.tmo ≤ 25500 →
        (∀ reply rest : List Byte, calm s.chan = true → reply.length = 7 → pendingRx s.chan = reply ++ rest →
          ∃ t, exec .scanSetTimeout s = .next t ∧
            EndsKeeping (if replyOutcome 1 reply = .ok then { s with scanTimeout := s.host.tmo } else s) t ∧
            t.chan.tx = s.chan.tx ++ writeBytes s.params.addrScanTimeout [BitVec.ofNat 8 (s.host.tmo / 100)] ∧
            pendingRx t.chan = rest ∧ t.result.outcome = replyOutcome 1 reply ∧
            replyInfo reply t.result.outcome t.result.info) ∧
        (calm s.chan = true → (pendingRx s.chan).length < 7 →
          ∃ t, exec .scanSetTimeout s = .next t ∧ WaitsKeeping s t) ∧
        (∀ (l : List LinkEvent) (sent : Bool) (rest : List LinkEvent), s.chan.rxDepth = none →
          s.chan.link = l ++ .fail sent :: rest → noFail l = true → (s.chan.rxFifo ++ arrivals l).length < 7 →
          ∃ t, exec .scanSetTimeout s = .next t ∧ EndsKeeping s t ∧ t.result.outcome = .eIo)))

/-- 30_encoding.md R89: the timeout byte is `floor(t / 100)` over the whole legal range. -/
def Obligations.TimeoutByteIsFloorOfHundredths : Prop :=
  (∀ t, 1 ≤ t → t ≤ 25500 → (timeoutByte t).toNat = t / 100) ∧
  timeoutByte 25500 = 255 ∧ timeoutByte 5000 = 0x32 ∧ (∀ t, 1 ≤ t → t ≤ 99 → timeoutByte t = 0x00)

/-! ### Sessions -/

/-- 70_reset_and_hazards.md R230: SESSION.OPEN discards, writes the decoding options, and only on a good
acknowledgement sets the default timeout and opens the session. -/
def Obligations.SessionOpenWritesOptionsThenOpens : Prop :=
  encode .sessionOpen = [0x1D] ∧
  ∀ s : State, s.phase = .idle →
    (s.session ≠ .closed → refuses .sessionOpen s) ∧
    (s.session = .closed →
      (∀ reply rest : List Byte, calm s.chan = true → reply.length = 7 → arrivals s.chan.link = reply ++ rest →
        ∃ t, exec .sessionOpen s = .next t ∧
          EndsKeeping
            (if replyOutcome 1 reply = .ok then { s with session := .opened, scanTimeout := 5000 } else s) t ∧
          t.chan.tx = s.chan.tx ++ writeBytes s.params.addrDecodeOpts (decodeOptsPayload s.params) ∧
          pendingRx t.chan = rest ∧ t.result.outcome = replyOutcome 1 reply ∧
          replyInfo reply t.result.outcome t.result.info) ∧
      (calm s.chan = true → (arrivals s.chan.link).length < 7 →
        ∃ t, exec .sessionOpen s = .next t ∧ WaitsKeeping s t ∧
          t.chan.tx = s.chan.tx ++ writeBytes s.params.addrDecodeOpts (decodeOptsPayload s.params) ∧
          pendingRx t.chan = []) ∧
      (∀ (l : List LinkEvent) (sent : Bool) (rest : List LinkEvent), s.chan.rxDepth = none →
        s.chan.link = l ++ .fail sent :: rest → noFail l = true → (arrivals l).length < 7 →
        ∃ t, exec .sessionOpen s = .next t ∧ EndsKeeping s t ∧ t.result.outcome = .eIo)) ∧
    1 ≤ (decodeOptsPayload s.params).length ∧ (decodeOptsPayload s.params).length ≤ 256

/-- 70_reset_and_hazards.md R231: SESSION.CLOSE releases the session, sends nothing and leaves the queue; a
following CMD.READ is refused. -/
def Obligations.SessionCloseOnlyReleases : Prop :=
  encode .sessionClose = [0x1E] ∧
  ∀ s : State, s.phase = .idle →
    (s.session ≠ .opened → refuses .sessionClose s) ∧
    (s.session = .opened →
      ∃ t, exec .sessionClose s = .next t ∧ t.result.outcome = .ok ∧ t.session = .closed ∧ t.chan = s.chan ∧
        EndsKeeping { s with session := .closed, scanTimeout := t.scanTimeout } t ∧ refuses .cmdRead t)

/-- 10_state.md R25: what a closed session refuses, who opens and closes it, and that the four pure operations
do not read it. -/
def Obligations.SessionGatesLinkOperations : Prop :=
  ∀ (s : State) (i : Instr), s.phase = .idle →
    (i ∈ [Instr.txWriteAll, .rxReadExact, .rxReadDeadline, .rxReadByte, .rxDiscard, .cmdWrite, .cmdRead, .scanRead,
        .scanSetTimeout] → s.session = .closed → refuses i s) ∧
    (i ∈ [Instr.crcCompute, .crcVerify, .frameBuild, .frameParse] → ∀ other : Session,
      ∃ t, exec i s = .next t ∧ exec i { s with session := other } = .next { t with session := other }) ∧
    (∀ t, exec .sessionOpen s = .next t → t.phase = .idle → t.result.outcome = .ok → t.session = .opened) ∧
    (∀ t, exec .sessionClose s = .next t → t.result.outcome = .ok → t.session = .closed)

/-! ### Wire formats -/

/-- 30_encoding.md R81 to R83 with 42_transport.md R141 (the reading is the model's, log 2): a command frame on
the TX side is handed to the link byte by byte, in no time (log 20), and nothing is read. -/
def Obligations.WireCommandFramesAreSentRaw : Prop :=
  ∀ s : State, s.phase = .idle → ∀ (i : Instr) (bytes : List Byte),
    ((∃ addr p crc, i = .wireWrite addr p crc ∧
        bytes = [0x7E, 0x00, 0x08, encLen p.length, hi addr, lo addr] ++ p ++ [hi crc, lo crc]) ∨
      (∃ addr n crc, i = .wireRead addr n crc ∧
        bytes = [0x7E, 0x00, 0x07, 0x01, hi addr, lo addr, encLen n, hi crc, lo crc]) ∨
      (∃ rest, i = .wirePersist rest ∧ bytes = [0x7E, 0x00, 0x09] ++ rest)) →
    (s.session ≠ .opened → refuses i s) ∧
    (s.session = .opened → noFail s.chan.link = true →
      ∃ t, exec i s = .next t ∧ EndsKeeping s t ∧ t.result.outcome = .ok ∧ t.chan.tx = s.chan.tx ++ bytes ∧
        t.chan.now = s.chan.now ∧
        (s.chan.rxDepth = none → s.chan.rxFifo <+: t.chan.rxFifo ∧ pendingRx t.chan = pendingRx s.chan)) ∧
    (s.session = .opened → ∀ (k : Nat) (sent : Bool) (l : List LinkEvent), k < bytes.length →
      s.chan.link = List.replicate k .ok ++ .fail sent :: l →
      ∃ t, exec i s = .next t ∧ EndsKeeping s t ∧ t.result.outcome = .eIo ∧
        t.chan = { s.chan with tx := s.chan.tx ++ bytes.take (if sent then k + 1 else k), link := l })

/-- 30_encoding.md R84 with 42_transport.md R150 (the reading is the model's, log 2): a reply's bytes join the
tail of the queue in order, whatever the engine is doing, and nothing else changes. -/
def Obligations.WireReplyArrivesInQueue : Prop :=
  ∀ (s : State) (status : Byte) (p : List Byte) (crc : Word), s.chan.rxDepth = none →
    exec (.wireReply status p crc) s = .next { s with chan := { s.chan with
      rxFifo := s.chan.rxFifo ++ ([0x02, 0x00, status, encLen p.length] ++ p ++ [hi crc, lo crc]) } }

/-! ### Errors and the whole machine -/

/-- 30_encoding.md R95: the fifteen selectors, and that an operation started with any other value, to run whole or
phase by phase, ends at once with `REFUSED`, touching no state. -/
def Obligations.ReservedSelectorsAreRefused : Prop :=
  (∀ op : Byte, decode .host [op] =
    match op.toNat with
    | 0x10 => .ok (.crcCompute, []) | 0x11 => .ok (.crcVerify, []) | 0x12 => .ok (.frameBuild, [])
    | 0x13 => .ok (.frameParse, []) | 0x14 => .ok (.txWriteAll, []) | 0x15 => .ok (.rxReadExact, [])
    | 0x16 => .ok (.rxReadDeadline, []) | 0x17 => .ok (.rxReadByte, []) | 0x18 => .ok (.rxDiscard, [])
    | 0x19 => .ok (.cmdWrite, []) | 0x1A => .ok (.cmdRead, []) | 0x1B => .ok (.scanRead, [])
    | 0x1C => .ok (.scanSetTimeout, []) | 0x1D => .ok (.sessionOpen, []) | 0x1E => .ok (.sessionClose, [])
    | _ => .error (.reservedSelector op)) ∧
  (∀ (s : State) (o : Operands) (rest : List Request), s.phase = .idle →
    s.requests = .operation o :: rest ∨ s.requests = .phased o :: rest → (o.op.toNat < 0x10 ∨ 0x1E < o.op.toNat) →
    ∃ t, step s = .next t ∧ EndsKeeping { s with host := o, requests := rest } t ∧ t.chan = s.chan ∧
      t.result.outcome = .refused)

/-- 60_exceptions.md R215 (the model's form, log 23): while an operation runs no second one gets a step, and a
request for one is not taken up. -/
def Obligations.RunningOperationIsAlone : Prop :=
  ∀ s : State, s.phase ≠ .idle →
    (∀ i : Instr, (∀ status p crc, i ≠ .wireReply status p crc) → exec i s = .refused .engineBusy) ∧
    (∀ (o : Operands) (rest : List Request) (t : State),
      s.requests = .operation o :: rest ∨ s.requests = .phased o :: rest → step s = .next t →
      t.requests = s.requests ∧ t.host = s.host)

/-- 60_exceptions.md R210, with the codes of R200 and R201 and the `INFO` of R204: what raising an error
does, and that it does nothing else. -/
def Obligations.RaiseDoesExactlyThis : Prop :=
  (∀ (e : Error) (s : State), EndsKeeping s (raise e s) ∧ (raise e s).chan = s.chan ∧
    (raise e s).result.outcome = errorOutcome e) ∧
  (∀ s : State,
    outcomeByte (raise .ioFailure s).result.outcome = 0x10 ∧
    (∀ c, outcomeByte (raise (.shortReply c) s).result.outcome = 0x11) ∧
    outcomeByte (raise .invalidHeader s).result.outcome = 0x12 ∧
    (∀ code, outcomeByte (raise (.deviceError code) s).result.outcome = 0x13 ∧
      (raise (.deviceError code) s).result.info = code) ∧
    outcomeByte (raise .checksumMismatch s).result.outcome = 0x14 ∧
    (∀ code, outcomeByte (raise (.unsupportedType code) s).result.outcome = 0x15 ∧
      (raise (.unsupportedType code) s).result.info = code) ∧
    (∀ c, outcomeByte (raise (.outOfRange c) s).result.outcome = 0x16) ∧
    (∀ k, outcomeByte (raise (.partialRead k) s).result.outcome = 0x20 ∧
      (raise (.partialRead k) s).result.info = BitVec.ofNat 8 (k % 256)) ∧
    outcomeByte (raise .refused s).result.outcome = 0x21 ∧
    (raise (.shortReply .tooShort) s).result.info = 0 ∧ (raise (.shortReply .overCapacity) s).result.info = 1 ∧
    (raise (.shortReply .overRoom) s).result.info = 2 ∧ (raise (.outOfRange .zero) s).result.info = 0 ∧
    (raise (.outOfRange .tooLarge) s).result.info = 1)

/-- 60_exceptions.md R203: no operation ends with an outcome its row of the matrix leaves blank, neither at once
nor in a later step of it, a command's short reply is `OVER_CAPACITY` only, and only the operations that may hang
are ever left waiting. (`jobInstr` says whose row a running job has, log 5; a raw command frame counts as
TX.WRITE_ALL, log 2; a reply that arrives is no operation.) -/
def Obligations.OutcomesStayInTheMatrix : Prop :=
  (∀ (i : Instr) (s t : State), (∀ status p crc, i ≠ .wireReply status p crc) → exec i s = .next t →
    (t.phase = .idle → mayEndWith i t.result.outcome = true ∧
      (i ∈ [Instr.cmdWrite, .cmdRead, .scanSetTimeout, .sessionOpen] → t.result.outcome = .eShort →
        t.result.info = 1)) ∧
    (t.phase ≠ .idle →
      i ∈ [Instr.rxReadExact, .rxReadByte, .cmdWrite, .cmdRead, .scanRead, .scanSetTimeout, .sessionOpen] ∧
      (i ≠ .rxReadByte → jobInstr t.work.job = some i))) ∧
  (∀ (i : Instr) (s t : State), Inv s → s.phase ≠ .idle → jobInstr s.work.job = some i → advance s = .next t →
    (t.phase = .idle → mayEndWith i t.result.outcome = true ∧
      (i ∈ [Instr.cmdWrite, .cmdRead, .scanSetTimeout, .sessionOpen] → t.result.outcome = .eShort →
        t.result.info = 1)) ∧
    (t.phase ≠ .idle → jobInstr t.work.job = some i))

/-- 60_exceptions.md R201: `REFUSED` changes no state, transmits nothing and removes nothing, whichever
operation ends with it. -/
def Obligations.RefusedTouchesNothing : Prop :=
  ∀ (i : Instr) (s t : State), (∀ status p crc, i ≠ .wireReply status p crc) → exec i s = .next t → t.phase = .idle →
    t.result.outcome = .refused → EndsKeeping s t ∧ t.chan = s.chan

/-- 60_exceptions.md R211: an operation that ends in an error, at once or in a later step, leaves the session and
`SCAN_TIMEOUT` as they were, leaves every result register but `OUTCOME` and `INFO` unspecified, and takes
back neither bytes sent nor bytes removed. -/
def Obligations.ErrorsRollNothingBack : Prop :=
  ∀ s t : State,
    ((∃ i : Instr, (∀ status p crc, i ≠ .wireReply status p crc) ∧ exec i s = .next t) ∨
      (s.phase ≠ .idle ∧ advance s = .next t)) →
    t.phase = .idle → isError t.result.outcome = true →
    EndsKeeping s t ∧ s.chan.tx <+: t.chan.tx ∧
    (∃ k, t.result = { unspecified k with outcome := t.result.outcome, info := t.result.info }) ∧
    (s.chan.rxDepth = none → pendingRx t.chan <:+ pendingRx s.chan)

/-- 10_state.md R30, R22: the table of who writes what, as a frame for every instruction; the result registers
an operation does not list keep their values when it ends well (log 7). The model's own are the rows of the wire
formats, which the table lacks (log 2), and that a transmission takes no time (log 20). -/
def Obligations.AccessTableIsTheFrame : Prop :=
  ∀ (i : Instr) (s t : State), exec i s = .next t →
    t.host = s.host ∧ t.params = s.params ∧ t.requests = s.requests ∧
    (i ∈ [Instr.crcCompute, .crcVerify, .frameBuild, .frameParse, .sessionClose] → t.chan = s.chan) ∧
    (i = .txWriteAll ∨ i.port = .wire ∧ (∀ status p crc, i ≠ .wireReply status p crc) →
      t.chan.now = s.chan.now ∧
      (s.chan.rxDepth = none → s.chan.rxFifo <+: t.chan.rxFifo ∧ pendingRx t.chan = pendingRx s.chan)) ∧
    (i ∈ [Instr.rxReadExact, .rxReadByte, .rxReadDeadline, .rxDiscard, .scanRead] → t.chan.tx = s.chan.tx) ∧
    (i ≠ .sessionOpen → i ≠ .sessionClose → t.session = s.session) ∧
    (i ≠ .sessionOpen → i ≠ .sessionClose → i ≠ .scanSetTimeout → t.scanTimeout = s.scanTimeout) ∧
    (t.phase = .idle → isError t.result.outcome = false → (∀ status p crc, i ≠ .wireReply status p crc) →
      t.result.info = s.result.info ∧
      (i ≠ .crcCompute → t.result.crcout = s.result.crcout) ∧
      (i ≠ .scanRead → t.result.scan = s.result.scan) ∧
      (i ∉ [Instr.frameBuild, .frameParse, .rxReadExact, .rxReadDeadline, .rxReadByte, .cmdRead] →
        t.result.obuf = s.result.obuf ∧ t.result.olen = s.result.olen)) ∧
    ((∃ status p crc, i = .wireReply status p crc) →
      t.result = s.result ∧ t.phase = s.phase ∧ t.work = s.work ∧ t.chan.tx = s.chan.tx ∧ t.chan.now = s.chan.now)

/-- 20_memory.md R63, 10_state.md R26: with an unbounded queue, what is still to be read after any operation,
or any part of one, is a tail of what was to be read before: bytes leave oldest first, and none is made
up. -/
def Obligations.BytesLeaveTheQueueOldestFirst : Prop :=
  ∀ s t : State,
    ((∃ i : Instr, (∀ status p crc, i ≠ .wireReply status p crc) ∧ exec i s = .next t) ∨ advance s = .next t) →
    s.chan.rxDepth = none → pendingRx t.chan <:+ pendingRx s.chan

/-- 00_scope.md R6, R9; 42_transport.md R149: over any step the configuration stays, bytes sent stay sent, and
time does not go back. -/
def Obligations.StepKeepsConfigurationSentBytesAndClock : Prop :=
  ∀ s t : State, step s = .next t →
    t.params = s.params ∧ t.chan.rxDepth = s.chan.rxDepth ∧ t.chan.tick = s.chan.tick ∧ s.chan.tx <+: t.chan.tx ∧
    s.chan.now ≤ t.chan.now

/-- The invariant of Safety.lean holds after reset. -/
def Obligations.ResetMeetsInvariant : Prop := Inv State.reset

/-- Every step keeps it: no transient state between operations (10_state.md R24, R27), a legal `SCAN_TIMEOUT`
in an open session (R23), the session each running job needs (R25), the depth of the queue (R26), clean
lines (44_scan_decoder.md R182), and a running operation in one of its own phases (R24). That one which runs whole
stands between two steps only where it waits holds of the model, and is no rule of the spec (log 5). -/
def Obligations.StepKeepsInvariant : Prop :=
  ∀ s t : State, Inv s → step s = .next t → Inv t

/-- 10_state.md R33, 70_reset_and_hazards.md R233: after power-on the session is closed and no operation runs,
which makes SESSION.OPEN the first operation that can do anything to the link. -/
def Obligations.OnlySessionOpenReachesTheLinkAfterReset : Prop :=
  State.reset.session = .closed ∧ State.reset.phase = .idle ∧
  ∀ (i : Instr) (s t : State), s.session = .closed → i ≠ .sessionOpen → (∀ status p crc, i ≠ .wireReply status p crc) →
    exec i s = .next t → t.chan = s.chan ∧ t.session = .closed

/-- 30_encoding.md R95, R100; 20_memory.md R67: a step runs the instruction decoded from what the host presents,
with the operand registers it was given, whole or, where the host asks for it, up to its first phase (log 5); with
nothing presented, the running operation goes on or the link and time move. -/
def Obligations.StepRunsDecodedInstruction : Prop :=
  (∀ (s : State) (o : Operands) (rest : List Request) (i : Instr), s.phase = .idle →
    s.requests = .operation o :: rest → decode .host [o.op] = .ok (i, []) →
    step s = exec i { s with requests := rest, host := o }) ∧
  (∀ (s : State) (o : Operands) (rest : List Request) (i : Instr), s.phase = .idle →
    s.requests = .phased o :: rest → decode .host [o.op] = .ok (i, []) →
    step s = startPhased i { s with requests := rest, host := o }) ∧
  (∀ (s : State) (bytes more : List Byte) (rest : List Request) (i : Instr),
    (s.phase = .idle ∨ ∃ status p crc, i = .wireReply status p crc) →
    s.requests = .wire bytes :: rest → decode .wire bytes = .ok (i, more) →
    step s = exec i { s with requests := (if more = [] then [] else [.wire more]) ++ rest }) ∧
  (∀ s : State, s.requests = [] → step s = advance s) ∧
  (∀ (s : State) (rest : List Request), s.requests = .pause :: rest → step s = advance { s with requests := rest })

/-! ### Encoding -/

/-- Decoding undoes encoding for every well-formed instruction, and stops where the frame stops. -/
def Obligations.DecodeUndoesEncode : Prop :=
  ∀ i : Instr, i.wellFormed = true →
    decode i.port (encode i) = .ok (i, []) ∧
    (∀ more : List Byte, i.port = .wire → (∀ rest, i ≠ .wirePersist rest) →
      decode .wire (encode i ++ more) = .ok (i, more))

/-- Whatever decodes was the encoding of a well-formed instruction: no two instructions share bytes, and no
bit is dropped. -/
def Obligations.DecodedBytesAreTheEncoding : Prop :=
  ∀ (port : Port) (bytes more : List Byte) (i : Instr), decode port bytes = .ok (i, more) →
    i.port = port ∧ i.wellFormed = true ∧ bytes = encode i ++ more

/-- The example words of 30_encoding.md R81, R82, R84, R95 and 43_command_reply.md R170 decode to what the spec
says they are. -/
def Obligations.SpecWordsDecode : Prop :=
  decode .host [0x1B] = .ok (.scanRead, []) ∧
  decode .wire [0x7E, 0x00, 0x08, 0x01, 0x00, 0x0A, 0x3E, 0x4C, 0xCF] = .ok (.wireWrite 0x000A [0x3E] 0x4CCF, []) ∧
  decode .wire [0x7E, 0x00, 0x07, 0x01, 0x00, 0x0A, 0x01, 0xEE, 0x8A] = .ok (.wireRead 0x000A 1 0xEE8A, []) ∧
  decode .wire [0x02, 0x00, 0x00, 0x01, 0x00, 0x33, 0x31] = .ok (.wireReply 0x00 [0x00] 0x3331, []) ∧
  decode .wire [0x7E, 0x00, 0x08, 0x01, 0x00, 0xD9, 0x50, 0x81, 0xD3] = .ok (.wireWrite 0x00D9 [0x50] 0x81D3, [])

end
end

