-- ==== Sys2Proof/Laws/Crc.lean ====
section
/-! SUPPORT. The checksum register: the loop as a fold, and that one step is linear and injective. -/

namespace Sys2Proof.Machine

@[simp] theorem withValue_eq (k : Word → Word) (c : Word) : withValue k c = k c := by
  unfold withValue
  split
  · rename_i h; congr 1; exact (BitVec.toNat_inj.mp (by simpa using h)).symm
  · rename_i n h; congr 1; rw [← Nat.succ_eq_add_one, ← h]; simp

@[simp] theorem crcFrom_nil (c : Word) : crcFrom [] c = c := rfl

@[simp] theorem crcFrom_cons (b : Byte) (s : List Byte) (c : Word) : crcFrom (b :: s) c = crcFrom s (crcByte c b) := by
  simp [crcFrom]

/-- Continuation (40_checksum.md R114 law 4). -/
theorem crcFrom_append (s t : List Byte) (c : Word) : crcFrom (s ++ t) c = crcFrom t (crcFrom s c) := by
  induction s generalizing c with
  | nil => rfl
  | cons b s ih => simp [ih]

/-- The loop is the fold of one byte's step over the span. -/
theorem crcFrom_eq_foldl (s : List Byte) (c : Word) : crcFrom s c = s.foldl crcByte c := by
  induction s generalizing c with
  | nil => rfl
  | cons b s ih => simp [ih]

/-- CRC.VERIFY's test as a proposition (40_checksum.md R113). -/
theorem crcAccepts_iff {s : List Byte} {x : Word} : crcAccepts s x = true ↔ x = 0xABCD ∨ crc16 s = x := by
  simp only [crcAccepts, Bool.or_eq_true, decide_eq_true_eq]; rfl

@[simp] theorem crcBit_zero : crcBit 0#16 = 0#16 := by decide

theorem crcBit_xor (x y : Word) : crcBit (x ^^^ y) = crcBit x ^^^ crcBit y := by
  unfold crcBit
  rw [BitVec.msb_xor]
  have cancel : ∀ z : Word, Config.crcPoly ^^^ (Config.crcPoly ^^^ z) = z := fun z => by
    rw [← BitVec.xor_assoc, BitVec.xor_self, BitVec.zero_xor]
  cases x.msb <;> cases y.msb <;> simp [BitVec.shiftLeft_xor_distrib]
  · ac_rfl
  · ac_rfl
  · rw [show x <<< 1 ^^^ Config.crcPoly ^^^ (y <<< 1 ^^^ Config.crcPoly) =
      Config.crcPoly ^^^ (Config.crcPoly ^^^ (x <<< 1 ^^^ y <<< 1)) by ac_rfl, cancel]

/-- A register with a clear top bit is only shifted. -/
theorem crcBit_of_msb_false {x : Word} (h : x.msb = false) : crcBit x = x <<< 1 := by simp [crcBit, h]

/-- No register but zero steps to zero: the polynomial's low bit shows a one that was shifted out. -/
theorem crcBit_eq_zero {x : Word} : crcBit x = 0#16 ↔ x = 0#16 := by
  constructor
  · intro h
    unfold crcBit at h
    split at h
    · have h0 : ((x <<< 1) ^^^ Config.crcPoly).getLsbD 0 = false := by rw [h]; rfl
      simp [Config.crcPoly] at h0
    · rename_i hm
      ext i hi
      have hi' := congrArg (fun v : Word => v.getLsbD (i + 1)) h
      rcases Nat.lt_or_ge (i + 1) 16 with h16 | h16
      · simp at hi'
        simpa [BitVec.getLsbD_eq_getElem hi] using hi' (by omega)
      · have : i = 15 := by omega
        subst this
        simp [BitVec.msb_eq_getLsbD_last] at hm
        simpa using hm
  · rintro rfl; rfl

/-- A zero byte leaves a zero register at zero, and no other (40_checksum.md R114 law 3). -/
@[simp] theorem crcByte_zero_eq_zero {x : Word} : crcByte x 0#8 = 0#16 ↔ x = 0#16 := by
  simp [crcByte, crcBit_eq_zero]

theorem crcByte_xor (c d : Word) (a b : Byte) : crcByte (c ^^^ d) (a ^^^ b) = crcByte c a ^^^ crcByte d b := by
  have h : (c ^^^ d) ^^^ ((a ^^^ b).setWidth 16 <<< 8) =
      (c ^^^ (a.setWidth 16 <<< 8)) ^^^ (d ^^^ (b.setWidth 16 <<< 8)) := by
    rw [BitVec.setWidth_xor, BitVec.shiftLeft_xor_distrib]; ac_rfl
  unfold crcByte
  rw [h]
  simp only [crcBit_xor]

end Sys2Proof.Machine
end

