-- ==== Sys2Proof/Laws/Codec.lean ====
section
/-! SUPPORT. The field helpers, the shape of frames, and what the parser answers. -/

namespace Sys2Proof

/-- The bits of a two-byte field: the second byte holds the low eight (20_memory.md R54). -/
theorem be_getLsbD (a b : Byte) (i : Nat) : (be a b).getLsbD i = if i < 8 then b.getLsbD i else a.getLsbD (i - 8) := by
  have h := BitVec.getLsbD_append (x := a) (y := b) (i := i)
  exact h.trans (by split <;> simp_all)

/-- Splitting a 16-bit field and putting it together again (30_encoding.md R87). -/
@[simp] theorem be_hi_lo (v : Word) : be (hi v) (lo v) = v := by
  apply BitVec.eq_of_getLsbD_eq
  intro i h
  rw [be_getLsbD]
  split
  · simp [lo, *]
  · simp only [hi, BitVec.getLsbD_extractLsb']
    rw [decide_eq_true (by omega), Bool.true_and]
    congr 1; omega

@[simp] theorem hi_be (a b : Byte) : hi (be a b) = a := by
  apply BitVec.eq_of_getLsbD_eq
  intro i h
  simp [hi, be_getLsbD, h]

@[simp] theorem lo_be (a b : Byte) : lo (be a b) = b := by
  apply BitVec.eq_of_getLsbD_eq
  intro i h
  simp [lo, be_getLsbD, h]

/-- `dec_len` undoes `enc_len` on every encodable length (30_encoding.md R88). -/
theorem decLen_encLen {n : Nat} (h : encodableLength n = true) : decLen (encLen n) = n := by
  simp only [encodableLength, Bool.and_eq_true, decide_eq_true_eq] at h
  unfold decLen encLen
  split
  · rename_i h0
    have h1 := congrArg BitVec.toNat h0
    simp at h1
    omega
  · rename_i h0
    have : n ≠ 256 := by rintro rfl; exact h0 rfl
    simp; omega

/-- `enc_len` undoes `dec_len` on every byte (30_encoding.md R88). -/
@[simp] theorem encLen_decLen (b : Byte) : encLen (decLen b) = b := by
  unfold encLen decLen
  split
  · rename_i h; rw [h]; rfl
  · simp

/-- Every byte stands for an encodable length (30_encoding.md R88). -/
@[simp] theorem encodableLength_decLen (b : Byte) : encodableLength (decLen b) = true := by
  unfold encodableLength decLen
  split
  · rfl
  · rename_i h
    have h1 : b.toNat ≠ 0 := fun h0 => h (BitVec.toNat_inj.mp (by simpa using h0))
    have := b.isLt
    simp; omega

namespace Machine

@[simp] theorem byteAt_cons_zero (b : Byte) (s : List Byte) : byteAt (b :: s) 0 = b := rfl
@[simp] theorem byteAt_cons_succ (b : Byte) (s : List Byte) (i : Nat) : byteAt (b :: s) (i + 1) = byteAt s i := rfl

/-- A byte in the second part of a buffer. -/
theorem byteAt_append_right {s t : List Byte} {i : Nat} (h : s.length ≤ i) : byteAt (s ++ t) i = byteAt t (i - s.length) := by
  simp [byteAt, List.getD_eq_getElem?_getD, List.getElem?_append_right h]

/-- A frame is four bytes longer than its body (41_frame_codec.md R120). -/
@[simp] theorem wrapFrame_length (body : List Byte) : (wrapFrame body).length = body.length + 4 := by
  simp [wrapFrame]

/-- The trailer of a buffer that ends in a 16-bit value is that value. -/
theorem replyTrailer_append (s : List Byte) (v : Word) : replyTrailer (s ++ [hi v, lo v]) = v := by
  have h1 : (s ++ [hi v, lo v]).length - 2 = s.length := by simp
  have h2 : (s ++ [hi v, lo v]).length - 1 = s.length + 1 := by simp
  rw [replyTrailer, h1, h2, byteAt_append_right (Nat.le_refl _), byteAt_append_right (Nat.le_add_right _ _)]
  simp

/-- The span of a buffer with a two-byte head and a two-byte trailer is what lies between (41_frame_codec.md R123). -/
theorem replySpan_wrap (a b c d : Byte) (body : List Byte) : replySpan (a :: b :: (body ++ [c, d])) = body := by
  simp [replySpan]

/-- The parser's answer to a buffer of reply shape, test by test (41_frame_codec.md R123). -/
theorem parseReply_shape (h0 h1 status len : Byte) (room : List Byte) (v : Word) (cap : Nat) (check : Bool) :
    parseReply (h0 :: h1 :: status :: len :: (room ++ [hi v, lo v])) cap check =
      if h0 ≠ Config.replyHdr ∨ h1 ≠ Config.rsvd then .error .invalidHeader
      else if status ≠ Config.statusOk then .error (.deviceError status)
      else if crcAccepts (status :: len :: room) (if check then v else Config.crcSkip) = false then
        .error .checksumMismatch
      else if cap < decLen len then .error (.shortReply .overCapacity)
      else if room.length < decLen len then .error (.shortReply .overRoom)
      else .ok (room.take (decLen len), decLen len) := by
  have hs : replySpan (h0 :: h1 :: status :: len :: (room ++ [hi v, lo v])) = status :: len :: room :=
    replySpan_wrap h0 h1 (hi v) (lo v) (status :: len :: room)
  have ht : replyTrailer (h0 :: h1 :: status :: len :: (room ++ [hi v, lo v])) = v :=
    replyTrailer_append (h0 :: h1 :: status :: len :: room) v
  have hr : (h0 :: h1 :: status :: len :: (room ++ [hi v, lo v])).length - Config.envelope = room.length := by
    simp [Config.envelope]
  have hl : ¬ (h0 :: h1 :: status :: len :: (room ++ [hi v, lo v])).length < Config.envelope := by simp [Config.envelope]
  have e0 : byteAt (h0 :: h1 :: status :: len :: (room ++ [hi v, lo v])) 0 = h0 := rfl
  have e1 : byteAt (h0 :: h1 :: status :: len :: (room ++ [hi v, lo v])) 1 = h1 := rfl
  have e2 : byteAt (h0 :: h1 :: status :: len :: (room ++ [hi v, lo v])) 2 = status := rfl
  have e3 : byteAt (h0 :: h1 :: status :: len :: (room ++ [hi v, lo v])) 3 = len := rfl
  unfold parseReply
  rw [hs, ht, hr, e0, e1, e2, e3, if_neg hl]
  by_cases h : room.length < decLen len
  · rw [if_pos h, if_pos h]
  · rw [if_neg h, if_neg h, List.drop_succ_cons, List.drop_succ_cons, List.drop_succ_cons, List.drop_succ_cons,
      List.drop_zero, List.take_append_of_le_length (by omega)]

/-- Test (a) comes first: a buffer without an envelope (41_frame_codec.md R123). -/
theorem parseReply_tooShort {buf : List Byte} (h : buf.length < 6) (cap : Nat) (check : Bool) :
    parseReply buf cap check = .error (.shortReply .tooShort) := by
  unfold parseReply; exact if_pos h

/-- Every buffer of at least six bytes has reply shape. -/
theorem exists_reply_shape {buf : List Byte} (h : Config.envelope ≤ buf.length) :
    ∃ h0 h1 status len room, ∃ v : Word, buf = h0 :: h1 :: status :: len :: (room ++ [hi v, lo v]) := by
  simp only [Config.envelope] at h
  match buf, h with
  | h0 :: h1 :: status :: len :: tail, h =>
    simp only [List.length_cons] at h
    refine ⟨h0, h1, status, len, tail.take (tail.length - 2), be (byteAt tail (tail.length - 2)) (byteAt tail (tail.length - 1)), ?_⟩
    congr 4
    rw [hi_be, lo_be]
    have h2 : tail.drop (tail.length - 2) = [byteAt tail (tail.length - 2), byteAt tail (tail.length - 1)] := by
      apply List.ext_getElem
      · simp; omega
      · intro i hi1 hi2
        have : i = 0 ∨ i = 1 := by simp at hi2; omega
        rcases this with rfl | rfl
        · simp [byteAt, List.getD_eq_getElem?_getD, List.getElem?_eq_getElem (show tail.length - 2 < tail.length by omega)]
        · have e : tail.length - 2 + 1 = tail.length - 1 := by omega
          simp [byteAt, List.getD_eq_getElem?_getD, List.getElem?_eq_getElem (show tail.length - 1 < tail.length by omega), e]
    rw [← h2, List.take_append_drop]

/-- The write frame is a write-format frame with the computed checksum (30_encoding.md R81). -/
theorem writeFrame_eq (addr : Word) (payload : List Byte) :
    writeFrame addr payload =
      encode (.wireWrite addr payload (crc16 (frameBody (writeFields addr payload)))) := by
  simp [writeFrame, writeFields, buildFrame, wrapFrame, frameBody, encode]

/-- The read frame is a read-format frame with the computed checksum (30_encoding.md R82). -/
theorem readFrame_eq (addr : Word) (n : Nat) :
    readFrame addr n = encode (.wireRead addr n (crc16 (frameBody (readFields addr n)))) := by
  simp [readFrame, readFields, buildFrame, wrapFrame, frameBody, encode]

end Machine

end Sys2Proof
end

