-- ==== Sys2Proof/Laws/State.lean ====
section
/-! SUPPORT. One lemma per field for the ways an operation ends, so that no later proof unfolds a record
update. -/

namespace Sys2Proof.Machine

section
variable (r : Results) (o : OutcomeCode) (e : Error) (p : Phase) (w : Work) (s : State)

@[simp] theorem finish_result : (finish r s).result = r := rfl
@[simp] theorem finish_phase : (finish r s).phase = .idle := rfl
@[simp] theorem finish_work : (finish r s).work = Work.clear := rfl
@[simp] theorem finish_host : (finish r s).host = s.host := rfl
@[simp] theorem finish_scanTimeout : (finish r s).scanTimeout = s.scanTimeout := rfl
@[simp] theorem finish_session : (finish r s).session = s.session := rfl
@[simp] theorem finish_chan : (finish r s).chan = s.chan := rfl
@[simp] theorem finish_requests : (finish r s).requests = s.requests := rfl
@[simp] theorem finish_params : (finish r s).params = s.params := rfl
@[simp] theorem finish_free : (finish r s).free = s.free := rfl

@[simp] theorem finishWith_result : (finishWith o s).result = { s.result with outcome := o } := rfl
@[simp] theorem finishWith_phase : (finishWith o s).phase = .idle := rfl
@[simp] theorem finishWith_work : (finishWith o s).work = Work.clear := rfl
@[simp] theorem finishWith_host : (finishWith o s).host = s.host := rfl
@[simp] theorem finishWith_scanTimeout : (finishWith o s).scanTimeout = s.scanTimeout := rfl
@[simp] theorem finishWith_session : (finishWith o s).session = s.session := rfl
@[simp] theorem finishWith_chan : (finishWith o s).chan = s.chan := rfl
@[simp] theorem finishWith_requests : (finishWith o s).requests = s.requests := rfl
@[simp] theorem finishWith_params : (finishWith o s).params = s.params := rfl
@[simp] theorem finishWith_free : (finishWith o s).free = s.free := rfl

@[simp] theorem raise_outcome : (raise e s).result.outcome = errorOutcome e := rfl
@[simp] theorem raise_info : (raise e s).result.info = errorInfo e s.free := rfl
@[simp] theorem raise_phase : (raise e s).phase = .idle := rfl
@[simp] theorem raise_work : (raise e s).work = Work.clear := rfl
@[simp] theorem raise_host : (raise e s).host = s.host := rfl
@[simp] theorem raise_scanTimeout : (raise e s).scanTimeout = s.scanTimeout := rfl
@[simp] theorem raise_session : (raise e s).session = s.session := rfl
@[simp] theorem raise_chan : (raise e s).chan = s.chan := rfl
@[simp] theorem raise_requests : (raise e s).requests = s.requests := rfl
@[simp] theorem raise_params : (raise e s).params = s.params := rfl
@[simp] theorem raise_free : (raise e s).free = s.free + 1 := rfl

@[simp] theorem enter_result : (enter p w s).result = s.result := rfl
@[simp] theorem enter_host : (enter p w s).host = s.host := rfl
@[simp] theorem enter_scanTimeout : (enter p w s).scanTimeout = s.scanTimeout := rfl
@[simp] theorem enter_session : (enter p w s).session = s.session := rfl
@[simp] theorem enter_chan : (enter p w s).chan = s.chan := rfl
@[simp] theorem enter_requests : (enter p w s).requests = s.requests := rfl
@[simp] theorem enter_params : (enter p w s).params = s.params := rfl
@[simp] theorem enter_free : (enter p w s).free = s.free := rfl
@[simp] theorem enter_phase : (enter p w s).phase = p := rfl
@[simp] theorem enter_work : (enter p w s).work = w := rfl

/-- The phase after an end does not depend on the phase before it (10_state.md R24). -/
@[simp] theorem finish_enter : finish r (enter p w s) = finish r s := rfl
@[simp] theorem finishWith_enter : finishWith o (enter p w s) = finishWith o s := rfl
@[simp] theorem raise_enter : raise e (enter p w s) = raise e s := rfl

@[simp] theorem suspend_host : (suspend p w s).host = s.host := rfl
@[simp] theorem suspend_scanTimeout : (suspend p w s).scanTimeout = s.scanTimeout := rfl
@[simp] theorem suspend_session : (suspend p w s).session = s.session := rfl
@[simp] theorem suspend_chan : (suspend p w s).chan = s.chan := rfl
@[simp] theorem suspend_requests : (suspend p w s).requests = s.requests := rfl
@[simp] theorem suspend_params : (suspend p w s).params = s.params := rfl
@[simp] theorem suspend_result : (suspend p w s).result = unspecified s.free := rfl
@[simp] theorem suspend_free : (suspend p w s).free = s.free + 1 := rfl
@[simp] theorem suspend_phase : (suspend p w s).phase = p := rfl
@[simp] theorem suspend_work : (suspend p w s).work = w := rfl

/-- An operation that has ended is left as it is, … -/
theorem park_idle {s : State} (h : s.phase = .idle) : park s = s := by simp [park, h]

/-- … one that stands in a phase is suspended there. -/
theorem park_enter {p : Phase} (h : p ≠ .idle) : park (enter p w s) = suspend p w s := by simp [park, h]; rfl

/-- Every error is reported by an outcome that is an error (60_exceptions.md R200, R201). -/
@[simp] theorem errorOutcome_isError : isError (errorOutcome e) = true := by cases e <;> rfl

end

section
variable {e : Exec} {k : State → Exec} {t : State}

@[simp] theorem andThen_next : andThen (.next t) k = k t := rfl
@[simp] theorem andThen_fault {f : Fault} : andThen (.fault f) k = .fault f := rfl
@[simp] theorem andThen_refused {r : Refusal} : andThen (.refused r) k = .refused r := rfl

/-- There is a next state only where both parts have one. -/
theorem andThen_eq_next : andThen e k = .next t ↔ ∃ u, e = .next u ∧ k u = .next t := by
  cases e <;> simp [andThen]

end

section
variable {s : State} {body : Exec}

/-- While no operation runs, the guard is no guard. -/
@[simp] theorem whenIdle_idle (h : s.phase = .idle) : whenIdle s body = body := by simp [whenIdle, h]

/-- While one runs, no other gets a step (60_exceptions.md R215). -/
@[simp] theorem whenIdle_busy (h : s.phase ≠ .idle) : whenIdle s body = .refused .engineBusy := by simp [whenIdle, h]

/-- In an open session the guard is no guard. -/
theorem whenOpen_opened (h : s.phase = .idle) (ho : s.session = .opened) : whenOpen s body = body := by
  simp [whenOpen, h, ho]

/-- Without one the operation is refused (10_state.md R25). -/
theorem whenOpen_closed (h : s.phase = .idle) (ho : s.session ≠ .opened) :
    whenOpen s body = .next (raise .refused s) := by
  simp [whenOpen, h, ho]

/-- What a guarded meaning may answer. -/
theorem whenIdle_next {t : State} (h : whenIdle s body = .next t) : s.phase = .idle ∧ body = .next t := by
  unfold whenIdle at h
  split at h
  · exact ⟨‹_›, h⟩
  · cases h

/-- What a meaning guarded by the session may answer. -/
theorem whenOpen_next {t : State} (h : whenOpen s body = .next t) :
    s.phase = .idle ∧ (s.session = .opened ∧ body = .next t ∨ s.session ≠ .opened ∧ t = raise .refused s) := by
  obtain ⟨hi, h⟩ := whenIdle_next h
  split at h
  · exact ⟨hi, .inl ⟨‹_›, h⟩⟩
  · cases h; exact ⟨hi, .inr ⟨‹_›, rfl⟩⟩

end

end Sys2Proof.Machine
end

