-- ==== Sys2Proof/Laws/Link.lean ====
section
/-! SUPPORT. What each transfer on the channel can do, said once: what it sends, takes, and leaves alone. -/

namespace Sys2Proof.Machine

/-! ### Ends that keep what an operation does not own -/

section
variable (r : Results) (o : OutcomeCode) (e : Error) (s : State)

theorem endsKeeping_finish : EndsKeeping s (finish r s) := ⟨rfl, rfl, rfl, rfl, rfl, rfl, rfl⟩
theorem endsKeeping_finishWith : EndsKeeping s (finishWith o s) := ⟨rfl, rfl, rfl, rfl, rfl, rfl, rfl⟩
theorem endsKeeping_raise : EndsKeeping s (raise e s) := ⟨rfl, rfl, rfl, rfl, rfl, rfl, rfl⟩

theorem waitsKeeping_enter {p : Phase} (h : p ≠ .idle) (w : Work) : WaitsKeeping s (enter p w s) :=
  ⟨h, rfl, rfl, rfl, rfl, rfl⟩
theorem waitsKeeping_suspend {p : Phase} (h : p ≠ .idle) (w : Work) : WaitsKeeping s (suspend p w s) :=
  ⟨h, rfl, rfl, rfl, rfl, rfl⟩

end

/-- The channel is no part of what `EndsKeeping` compares. -/
theorem EndsKeeping.of_chan {s t : State} {c : Channel} (h : EndsKeeping { s with chan := c } t) : EndsKeeping s t :=
  ⟨h.phase, h.work, h.host, h.session, h.scanTimeout, h.params, h.requests⟩

theorem WaitsKeeping.of_chan {s t : State} {c : Channel} (h : WaitsKeeping { s with chan := c } t) : WaitsKeeping s t :=
  ⟨h.busy, h.host, h.session, h.scanTimeout, h.params, h.requests⟩

/-! ### The receive queue -/

section
variable (b : Byte) (c : Channel)

@[simp] theorem pushRx_tx : (pushRx b c).tx = c.tx := by unfold pushRx; split <;> (try split) <;> (try split) <;> rfl
@[simp] theorem pushRx_now : (pushRx b c).now = c.now := by unfold pushRx; split <;> (try split) <;> (try split) <;> rfl
@[simp] theorem pushRx_link : (pushRx b c).link = c.link := by unfold pushRx; split <;> (try split) <;> (try split) <;> rfl
@[simp] theorem pushRx_rxDepth : (pushRx b c).rxDepth = c.rxDepth := by unfold pushRx; split <;> (try split) <;> (try split) <;> rfl
@[simp] theorem pushRx_tick : (pushRx b c).tick = c.tick := by unfold pushRx; split <;> (try split) <;> (try split) <;> rfl

@[simp] theorem tickMs_pushRx : tickMs (pushRx b c) = tickMs c := by unfold tickMs; rw [pushRx_tick]

/-- An unbounded queue takes every byte, at its tail (10_state.md R26). -/
theorem pushRx_unbounded (h : c.rxDepth = none) : pushRx b c = { c with rxFifo := c.rxFifo ++ [b] } := by
  simp [pushRx, h]

/-- A finite queue keeps within its depth (10_state.md R26). -/
theorem pushRx_fits {d : Nat} (hd : c.rxDepth = some d) (h : c.rxFifo.length ≤ d) :
    (pushRx b c).rxFifo.length ≤ d := by
  unfold pushRx
  rw [hd]
  dsimp only
  split
  · simp; omega
  · split <;> simp <;> omega

end

@[simp] theorem pushAll_tx (bs : List Byte) (c : Channel) : (pushAll bs c).tx = c.tx := by
  induction bs generalizing c with
  | nil => rfl
  | cons b bs ih => simp [pushAll, ih]

@[simp] theorem pushAll_now (bs : List Byte) (c : Channel) : (pushAll bs c).now = c.now := by
  induction bs generalizing c with
  | nil => rfl
  | cons b bs ih => simp [pushAll, ih]

@[simp] theorem pushAll_link (bs : List Byte) (c : Channel) : (pushAll bs c).link = c.link := by
  induction bs generalizing c with
  | nil => rfl
  | cons b bs ih => simp [pushAll, ih]

@[simp] theorem pushAll_rxDepth (bs : List Byte) (c : Channel) : (pushAll bs c).rxDepth = c.rxDepth := by
  induction bs generalizing c with
  | nil => rfl
  | cons b bs ih => simp [pushAll, ih]

@[simp] theorem pushAll_tick (bs : List Byte) (c : Channel) : (pushAll bs c).tick = c.tick := by
  induction bs generalizing c with
  | nil => rfl
  | cons b bs ih => simp [pushAll, ih]

/-- An unbounded queue takes a frame whole, in order (42_transport.md R150). -/
theorem pushAll_unbounded (bs : List Byte) (c : Channel) (h : c.rxDepth = none) :
    pushAll bs c = { c with rxFifo := c.rxFifo ++ bs } := by
  induction bs generalizing c with
  | nil => simp [pushAll]
  | cons b bs ih => rw [pushAll, ih _ (by simpa using h), pushRx_unbounded b c h]; simp

theorem pushAll_fits (bs : List Byte) (c : Channel) {d : Nat} (hd : c.rxDepth = some d) (h : c.rxFifo.length ≤ d) :
    (pushAll bs c).rxFifo.length ≤ d := by
  induction bs generalizing c with
  | nil => exact h
  | cons b bs ih => exact ih _ (by simpa using hd) (pushRx_fits b c hd h)

/-! ### Moves of a channel

Everything a transfer does to a channel beside the bytes it hands over: it never takes back what was sent,
never turns time back, and keeps the queue within its depth. -/

/-- `c'` may follow `c`. -/
structure Channel.Later (c c' : Channel) : Prop where
  /-- Bytes transmitted stay transmitted (42_transport.md R149). -/
  sent : c.tx <+: c'.tx
  /-- Time never goes backwards (00_scope.md R9). -/
  time : c.now ≤ c'.now
  /-- The depth is configuration. -/
  depth : c'.rxDepth = c.rxDepth
  /-- So is the resolution of the clock. -/
  tick : c'.tick = c.tick
  /-- A finite queue keeps within its depth. -/
  fits : ∀ d, c.rxDepth = some d → c.rxFifo.length ≤ d → c'.rxFifo.length ≤ d

theorem Channel.Later.refl (c : Channel) : c.Later c := ⟨List.prefix_rfl, Nat.le_refl _, rfl, rfl, fun _ _ h => h⟩

theorem Channel.Later.trans {a b c : Channel} (h : a.Later b) (h' : b.Later c) : a.Later c :=
  ⟨h.sent.trans h'.sent, h.time.trans h'.time, h'.depth.trans h.depth, h'.tick.trans h.tick,
    fun d hd hl => h'.fits d (h.depth.trans hd) (h.fits d hd hl)⟩

theorem Channel.later_push (b : Byte) (c : Channel) : c.Later (pushRx b c) :=
  ⟨by simp, by simp, by simp, by simp, fun _ hd h => pushRx_fits b c hd h⟩

theorem Channel.later_pushAll (bs : List Byte) (c : Channel) : c.Later (pushAll bs c) :=
  ⟨by simp, by simp, by simp, by simp, fun _ hd h => pushAll_fits bs c hd h⟩

/-- Taking from the queue, letting time pass and moving along the events is always later. -/
theorem Channel.Later.of_taken (c c' : Channel) (htx : c'.tx = c.tx) (hn : c.now ≤ c'.now) (hd : c'.rxDepth = c.rxDepth)
    (hq : c'.rxFifo.length ≤ c.rxFifo.length) (ht : c'.tick = c.tick := by rfl) : c.Later c' :=
  ⟨by simp [htx], hn, hd, ht, fun _ _ h => hq.trans h⟩

/-! ### What is still to be read -/

@[simp] theorem arrivals_append (l l' : List LinkEvent) : arrivals (l ++ l') = arrivals l ++ arrivals l' := by
  induction l with
  | nil => rfl
  | cons e l ih => cases e <;> simp [arrivals, ih]

@[simp] theorem arrivals_replicate_ok (k : Nat) : arrivals (List.replicate k .ok) = [] := by
  induction k with
  | zero => rfl
  | succ k ih => simpa [List.replicate_succ, arrivals] using ih

/-- A link that does not fail stays one while its events are used up. -/
theorem noFail_suffix {l l' : List LinkEvent} (h : l' <:+ l) (hl : noFail l = true) : noFail l' = true := by
  obtain ⟨l₁, rfl⟩ := h
  rw [noFail, List.all_append, Bool.and_eq_true] at hl
  exact hl.2

theorem calm_iff {c : Channel} : calm c = true ↔ c.rxDepth = none ∧ noFail c.link = true := by
  simp [calm, noFail]

/-! ### Bytes that cut in -/

theorem land_later (l : List LinkEvent) (c : Channel) : c.Later (land l c) := by
  fun_induction land l c with
  | case1 b l c ih => exact (Channel.later_push b c).trans ih
  | case2 l c => exact .of_taken _ _ rfl (Nat.le_refl _) rfl (Nat.le_refl _)

/-- Bytes that cut in touch nothing but the queue, and use up no other event. -/
theorem land_frame (l : List LinkEvent) (c : Channel) :
    (land l c).tx = c.tx ∧ (land l c).now = c.now ∧ (land l c).link <:+ l ∧
    (∀ e ∈ (land l c).link.head?, isCutIn e = false) := by
  fun_induction land l c with
  | case1 b l c ih => exact ⟨by simpa using ih.1, by simpa using ih.2.1, ih.2.2.1.trans (List.suffix_cons _ _), ih.2.2.2⟩
  | case2 l c h =>
    refine ⟨rfl, rfl, List.suffix_rfl, fun e he => ?_⟩
    cases l with
    | nil => cases he
    | cons e' l =>
      cases he
      cases e <;> first | rfl | exact (h _ _ rfl).elim

@[simp] theorem land_tx (l : List LinkEvent) (c : Channel) : (land l c).tx = c.tx := (land_frame l c).1
@[simp] theorem land_now (l : List LinkEvent) (c : Channel) : (land l c).now = c.now := (land_frame l c).2.1
@[simp] theorem land_rxDepth (l : List LinkEvent) (c : Channel) : (land l c).rxDepth = c.rxDepth := (land_later l c).depth
@[simp] theorem land_tick (l : List LinkEvent) (c : Channel) : (land l c).tick = c.tick := (land_later l c).tick

@[simp] theorem tickMs_land (l : List LinkEvent) (c : Channel) : tickMs (land l c) = tickMs c := by unfold tickMs; rw [land_tick]

/-- Into an unbounded queue they go at its tail: what is still to be read is the same (10_state.md R26). -/
theorem land_unbounded {c : Channel} (h : c.rxDepth = none) (l : List LinkEvent) :
    c.rxFifo <+: (land l c).rxFifo ∧ pendingRx (land l c) = c.rxFifo ++ arrivals l := by
  fun_induction land l c with
  | case1 b l c ih =>
    obtain ⟨h1, h2⟩ := ih (by simpa using h)
    rw [pushRx_unbounded b c h] at h1 h2 ⊢
    exact ⟨(List.prefix_append _ _).trans h1, by rw [h2]; simp [arrivals]⟩
  | case2 l c => exact ⟨List.prefix_rfl, rfl⟩

theorem land_calm {c : Channel} (h : calm c = true) : calm (land c.link c) = true := by
  rw [calm_iff] at h ⊢
  exact ⟨by simpa using h.1, noFail_suffix (land_frame c.link c).2.2.1 h.2⟩

/-- With no byte that cuts in, none does. -/
theorem land_quiet {l : List LinkEvent} (h : ∀ e ∈ l.head?, isCutIn e = false) (c : Channel) :
    land l c = { c with link := l } := by
  unfold land
  split
  · simp [isCutIn] at h
  · rfl

/-! ### Transmitting -/

/-- The channel a transmission leaves. -/
def TxAnswer.chan : TxAnswer → Channel
  | .sent c => c
  | .ioFail c => c

/-- A transmission only appends to the TX stream, takes no time, and moves along the events. -/
theorem transmit_later (l : List LinkEvent) (bs : List Byte) (c : Channel) :
    c.Later (transmit l bs c).chan ∧ (transmit l bs c).chan.now = c.now := by
  fun_induction transmit l bs c with
  | case1 x l b bs c ih => exact ⟨(Channel.later_push x c).trans ih.1, by simpa using ih.2⟩
  | case2 l b bs c ih =>
    have h : c.Later { c with tx := c.tx ++ [b], link := l } :=
      ⟨List.prefix_append _ _, Nat.le_refl _, rfl, rfl, fun _ _ h => h⟩
    exact ⟨h.trans ih.1, ih.2⟩
  | case3 sent l b bs c =>
    refine ⟨⟨?_, Nat.le_refl _, rfl, rfl, fun _ _ h => h⟩, rfl⟩
    simp only [TxAnswer.chan]
    split <;> simp
  | case4 l bs c => exact ⟨⟨List.prefix_append _ _, Nat.le_refl _, rfl, rfl, fun _ _ h => h⟩, rfl⟩

/-- Whether it succeeds or fails, a transmission leaves what is still to be read alone, and an unbounded queue
keeps what it held. -/
theorem transmit_unbounded {c : Channel} (hd : c.rxDepth = none) (l : List LinkEvent) (bs : List Byte) :
    c.rxFifo <+: (transmit l bs c).chan.rxFifo ∧ pendingRx (transmit l bs c).chan = c.rxFifo ++ arrivals l := by
  fun_induction transmit l bs c with
  | case1 x l b bs c ih =>
    obtain ⟨h1, h2⟩ := ih (by simpa using hd)
    rw [pushRx_unbounded x c hd] at h1 h2 ⊢
    exact ⟨(List.prefix_append _ _).trans h1, by rw [h2]; simp [arrivals]⟩
  | case2 l b bs c ih => exact ih hd
  | case3 sent l b bs c => exact ⟨List.prefix_rfl, rfl⟩
  | case4 l bs c => exact ⟨List.prefix_rfl, rfl⟩

/-- A transmission that succeeds sent exactly the bytes, in order (42_transport.md R141). -/
theorem transmit_sent {l : List LinkEvent} {bs : List Byte} {c c' : Channel} (h : transmit l bs c = .sent c') :
    c'.tx = c.tx ++ bs ∧ c'.link <:+ l := by
  fun_induction transmit l bs c with
  | case1 x l b bs c ih =>
    obtain ⟨h1, h2⟩ := ih h
    exact ⟨by simpa using h1, h2.trans (List.suffix_cons _ _)⟩
  | case2 l b bs c ih =>
    obtain ⟨h1, h2⟩ := ih h
    exact ⟨by simpa using h1, h2.trans (List.suffix_cons _ _)⟩
  | case3 sent l b bs c => cases h
  | case4 l bs c => cases h; exact ⟨rfl, List.suffix_rfl⟩

/-- A transmission that fails met a failure of the link; the bytes before it were sent, and the failing byte
went out as the link says (42_transport.md R141). -/
theorem transmit_ioFail {l : List LinkEvent} {bs : List Byte} {c c' : Channel} (h : transmit l bs c = .ioFail c') :
    ∃ k < bs.length, ∃ out : Bool, .fail out :: c'.link <:+ l ∧ c'.tx = c.tx ++ bs.take (if out then k + 1 else k) := by
  fun_induction transmit l bs c with
  | case1 x l b bs c ih =>
    obtain ⟨k, hk, out, h1, h2⟩ := ih h
    exact ⟨k, hk, out, h1.trans (List.suffix_cons _ _), by simpa using h2⟩
  | case2 l b bs c ih =>
    obtain ⟨k, hk, out, h1, h2⟩ := ih h
    refine ⟨k + 1, by simpa using hk, out, h1.trans (List.suffix_cons _ _), ?_⟩
    rw [h2]; cases out <;> simp
  | case3 sent l b bs c =>
    cases h
    refine ⟨0, by simp, sent, List.suffix_rfl, ?_⟩
    cases sent <;> simp
  | case4 l bs c => cases h

/-- A link that does not fail lets every transmission through. -/
theorem transmit_calm {l : List LinkEvent} (h : noFail l = true) (bs : List Byte) (c : Channel) :
    ∃ c', transmit l bs c = .sent c' := by
  cases h' : transmit l bs c with
  | sent c' => exact ⟨c', rfl⟩
  | ioFail c' =>
    obtain ⟨k, -, out, hl, -⟩ := transmit_ioFail h'
    simpa [noFail, isFail] using noFail_suffix hl h

/-- A link with nothing to say accepts everything at once. -/
@[simp] theorem transmit_nil (bs : List Byte) (c : Channel) :
    transmit [] bs c = .sent { c with tx := c.tx ++ bs, link := [] } := by
  unfold transmit; rfl

/-- A transmission leaves what is still to be read alone … -/
theorem transmit_pendingRx {bs : List Byte} {c c' : Channel} (hd : c.rxDepth = none)
    (h : transmit c.link bs c = .sent c') : pendingRx c' = pendingRx c := by
  have := (transmit_unbounded hd c.link bs).2
  rwa [h] at this

/-- … and a link that does not fail stays one. -/
theorem transmit_calm_later {bs : List Byte} {c c' : Channel} (hc : calm c = true) (h : transmit c.link bs c = .sent c') :
    calm c' = true := by
  have hd := (transmit_later c.link bs c).1.depth
  rw [h] at hd
  rw [calm_iff] at hc ⊢
  exact ⟨hd.trans hc.1, noFail_suffix (transmit_sent h).2 hc.2⟩

/-! ### Waiting for a byte -/

/-- The channel a wait leaves. -/
def RxAnswer.chan : RxAnswer → Channel
  | .byte _ c => c
  | .ioFail c => c
  | .waiting c => c

theorem waitArrival_later (l : List LinkEvent) (c : Channel) : c.Later (waitArrival l c).chan := by
  fun_induction waitArrival l c with
  | case1 c => exact .of_taken _ _ rfl (Nat.le_refl _) rfl (Nat.le_refl _)
  | case2 b l c x q hq =>
    refine (Channel.later_push b c).trans (.of_taken _ _ rfl (Nat.le_refl _) rfl ?_)
    simp [RxAnswer.chan, hq]
  | case3 b l c hq ih => exact (Channel.later_push b c).trans ih
  | case4 b l c x q hq =>
    refine (Channel.later_push b c).trans (.of_taken _ _ rfl (Nat.le_refl _) rfl ?_)
    simp [RxAnswer.chan, hq]
  | case5 b l c hq ih => exact (Channel.later_push b c).trans ih
  | case6 k l c ih =>
    exact (Channel.Later.of_taken c { c with now := c.now + k * tickMs c } rfl (Nat.le_add_right _ _) rfl (Nat.le_refl _)).trans ih
  | case7 l c ih => exact ih
  | case8 l c ih => exact ih
  | case9 sent l c => exact .of_taken _ _ rfl (Nat.le_refl _) rfl (Nat.le_refl _)

/-- A wait sends nothing. -/
theorem waitArrival_tx (l : List LinkEvent) (c : Channel) : (waitArrival l c).chan.tx = c.tx := by
  fun_induction waitArrival l c <;> simp_all [RxAnswer.chan]

theorem takeByte_later (c : Channel) : c.Later (takeByte c).chan ∧ (takeByte c).chan.tx = c.tx := by
  unfold takeByte
  split
  · exact ⟨waitArrival_later _ _, waitArrival_tx _ _⟩
  · rename_i b q hq
    split <;> exact ⟨.of_taken _ _ rfl (Nat.le_refl _) rfl (by simp [RxAnswer.chan, hq]), rfl⟩

theorem rxByte_later (c : Channel) : c.Later (rxByte c).chan := (land_later c.link c).trans (takeByte_later _).1

theorem rxByte_tx (c : Channel) : (rxByte c).chan.tx = c.tx := by
  simpa [rxByte] using (takeByte_later (land c.link c)).2

/-- The byte a wait takes, if it takes one. -/
def RxAnswer.taken : RxAnswer → List Byte
  | .byte b _ => [b]
  | .ioFail _ => []
  | .waiting _ => []

theorem waitArrival_taken {l : List LinkEvent} {c : Channel} (hd : c.rxDepth = none) (hq : c.rxFifo = []) :
    (waitArrival l c).taken ++ pendingRx (waitArrival l c).chan = arrivals l := by
  fun_induction waitArrival l c with
  | case1 c => simp [RxAnswer.chan, RxAnswer.taken, pendingRx, hq, arrivals]
  | case2 b l c x q hx =>
    rw [pushRx_unbounded b c hd, hq] at hx
    cases hx
    simp [RxAnswer.chan, RxAnswer.taken, pendingRx, arrivals]
  | case3 b l c hx ih =>
    rw [pushRx_unbounded b c hd] at hx
    simp at hx
  | case4 b l c x q hx =>
    rw [pushRx_unbounded b c hd, hq] at hx
    cases hx
    simp [RxAnswer.chan, RxAnswer.taken, pendingRx, arrivals]
  | case5 b l c hx ih =>
    rw [pushRx_unbounded b c hd] at hx
    simp at hx
  | case6 ms l c ih => exact ih hd hq
  | case7 l c ih => exact ih hd hq
  | case8 l c ih => exact ih hd hq
  | case9 sent l c => simp [RxAnswer.chan, RxAnswer.taken, pendingRx, hq, arrivals]

/-- A wait on an unbounded queue takes the next byte of the stream or nothing (20_memory.md R63). -/
theorem rxByte_taken {c : Channel} (hd : c.rxDepth = none) : (rxByte c).taken ++ pendingRx (rxByte c).chan = pendingRx c := by
  have key : ∀ c : Channel, c.rxDepth = none → (takeByte c).taken ++ pendingRx (takeByte c).chan = pendingRx c := by
    intro c hd
    unfold takeByte
    split
    · rename_i hq; simpa [pendingRx, hq] using waitArrival_taken (l := c.link) hd hq
    · rename_i b q hq
      split <;> rename_i hl <;> simp [RxAnswer.chan, RxAnswer.taken, pendingRx, arrivals, *]
  unfold rxByte
  rw [key _ (by simpa using hd), (land_unbounded hd c.link).2]
  rfl

/-- A link that does not fail and has bytes to come delivers the first of them. -/
theorem waitArrival_calm {l : List LinkEvent} {c : Channel} (hd : c.rxDepth = none) (hq : c.rxFifo = [])
    (hl : l.all (fun e => !isFail e) = true) :
    (∀ b bs, arrivals l = b :: bs → ∃ c', waitArrival l c = .byte b c' ∧ calm c' = true ∧ pendingRx c' = bs) ∧
    (arrivals l = [] → ∃ c', waitArrival l c = .waiting c' ∧ calm c' = true ∧ c'.rxFifo = [] ∧ c'.link = []) := by
  fun_induction waitArrival l c with
  | case1 c => simp [arrivals, calm, hd, hq]
  | case2 b l c x q hx =>
    rw [pushRx_unbounded b c hd, hq] at hx
    cases hx
    simp only [List.all_cons, Bool.and_eq_true] at hl
    constructor
    · rintro b' bs ⟨rfl, rfl⟩
      refine ⟨_, rfl, ?_, rfl⟩
      simpa [calm, hd] using hl.2
    · intro h; cases h
  | case3 b l c hx ih =>
    rw [pushRx_unbounded b c hd] at hx
    simp at hx
  | case4 b l c x q hx =>
    rw [pushRx_unbounded b c hd, hq] at hx
    cases hx
    simp only [List.all_cons, Bool.and_eq_true] at hl
    constructor
    · rintro b' bs ⟨rfl, rfl⟩
      refine ⟨_, rfl, ?_, rfl⟩
      simpa [calm, hd] using hl.2
    · intro h; cases h
  | case5 b l c hx ih =>
    rw [pushRx_unbounded b c hd] at hx
    simp at hx
  | case6 ms l c ih =>
    simp only [List.all_cons, Bool.and_eq_true] at hl
    simpa [arrivals] using ih hd hq hl.2
  | case7 l c ih =>
    simp only [List.all_cons, Bool.and_eq_true] at hl
    simpa [arrivals] using ih hd hq hl.2
  | case8 l c ih =>
    simp only [List.all_cons, Bool.and_eq_true] at hl
    simpa [arrivals] using ih hd hq hl.2
  | case9 sent l c => simp [isFail] at hl

theorem takeByte_calm {c : Channel} (hc : calm c = true) :
    (∀ b bs, pendingRx c = b :: bs → ∃ c', takeByte c = .byte b c' ∧ calm c' = true ∧ pendingRx c' = bs) ∧
    (pendingRx c = [] → ∃ c', takeByte c = .waiting c' ∧ calm c' = true ∧ c'.rxFifo = [] ∧ c'.link = []) := by
  simp only [calm, Bool.and_eq_true, decide_eq_true_eq] at hc
  obtain ⟨hd, hl⟩ := hc
  unfold takeByte
  split
  · rename_i hq
    simpa [pendingRx, hq] using waitArrival_calm hd hq hl
  · rename_i b q hq
    constructor
    · rintro b' bs h
      simp only [pendingRx, hq, List.cons_append, List.cons.injEq] at h
      obtain ⟨rfl, rfl⟩ := h
      split
      · rename_i heq; simp [heq, isFail] at hl
      · rename_i l heq
        refine ⟨_, rfl, ?_, by simp [pendingRx, heq, arrivals]⟩
        simp only [heq, List.all_cons, Bool.and_eq_true] at hl
        simpa [calm, hd] using hl.2
      · exact ⟨_, rfl, by simpa [calm, hd] using hl, rfl⟩
    · intro h; simp [pendingRx, hq] at h

/-- A read takes the oldest byte (10_state.md R26), whether it is queued or still to come. -/
theorem rxByte_calm {c : Channel} (hc : calm c = true) :
    (∀ b bs, pendingRx c = b :: bs → ∃ c', rxByte c = .byte b c' ∧ calm c' = true ∧ pendingRx c' = bs) ∧
    (pendingRx c = [] → ∃ c', rxByte c = .waiting c' ∧ calm c' = true ∧ c'.rxFifo = [] ∧ c'.link = []) := by
  have h := takeByte_calm (land_calm hc)
  rwa [(land_unbounded (calm_iff.1 hc).1 c.link).2] at h

/-! ### Reading a known number of bytes -/

/-- The channel an exact read leaves. -/
def ReadAnswer.chan : ReadAnswer → Channel
  | .done _ c => c
  | .ioFail c => c
  | .waiting _ c => c

theorem readMore_later (k : Nat) (acc : List Byte) (c : Channel) : c.Later (readMore k acc c).chan := by
  induction k generalizing acc c with
  | zero => exact .refl c
  | succ k ih =>
    have h := rxByte_later c
    unfold readMore
    cases hr : rxByte c <;> rw [hr] at h
    · exact h.trans (ih _ _)
    · exact h
    · exact h

theorem readMore_tx (k : Nat) (acc : List Byte) (c : Channel) : (readMore k acc c).chan.tx = c.tx := by
  induction k generalizing acc c with
  | zero => rfl
  | succ k ih =>
    have h := rxByte_tx c
    unfold readMore
    cases hr : rxByte c <;> rw [hr] at h
    · rw [ih]; exact h
    · exact h
    · exact h

/-- A read that ends has exactly the bytes asked for. -/
theorem readMore_done_length {k : Nat} {acc acc' : List Byte} {c c' : Channel}
    (h : readMore k acc c = .done acc' c') : acc'.length = acc.length + k := by
  induction k generalizing acc c with
  | zero => cases h; rfl
  | succ k ih =>
    unfold readMore at h
    split at h
    · have := ih h; simp at this; omega
    · cases h
    · cases h

/-- A read that waits lacks bytes. -/
theorem readMore_waiting_length {k : Nat} {acc acc' : List Byte} {c c' : Channel}
    (h : readMore k acc c = .waiting acc' c') : acc'.length < acc.length + k := by
  induction k generalizing acc c with
  | zero => cases h
  | succ k ih =>
    unfold readMore at h
    split at h
    · have := ih h; simp at this; omega
    · cases h
    · cases h; omega

/-- With a link that does not fail, a read of `k` bytes takes the next `k` of the stream, in order, and
leaves the rest (42_transport.md R142). -/
theorem readMore_calm {k : Nat} {c : Channel} (acc : List Byte) (hc : calm c = true) (hk : k ≤ (pendingRx c).length) :
    ∃ c', readMore k acc c = .done (acc ++ (pendingRx c).take k) c' ∧ calm c' = true ∧
      pendingRx c' = (pendingRx c).drop k ∧ c'.tx = c.tx := by
  induction k generalizing acc c with
  | zero => exact ⟨c, by simp [readMore], hc, by simp, rfl⟩
  | succ k ih =>
    cases hp : pendingRx c with
    | nil => simp [hp] at hk
    | cons b bs =>
      obtain ⟨c', hr, hc', hp'⟩ := (rxByte_calm hc).1 b bs hp
      have htx := rxByte_tx c
      rw [hr] at htx
      obtain ⟨c'', h1, h2, h3, h4⟩ := ih (acc ++ [b]) hc' (by rw [hp']; simpa [hp] using hk)
      refine ⟨c'', ?_, h2, by simpa [hp'] using h3, h4.trans htx⟩
      simp only [readMore, hr, h1, hp', List.take_succ_cons, List.append_assoc, List.singleton_append]

/-- … and with fewer bytes to come it takes them all and waits (70_reset_and_hazards.md R237). -/
theorem readMore_short {k : Nat} {c : Channel} (acc : List Byte) (hc : calm c = true) (hk : (pendingRx c).length < k) :
    ∃ c', readMore k acc c = .waiting (acc ++ pendingRx c) c' ∧ calm c' = true ∧ c'.rxFifo = [] ∧ c'.link = [] ∧
      c'.tx = c.tx := by
  induction k generalizing acc c with
  | zero => simp at hk
  | succ k ih =>
    have htx := rxByte_tx c
    cases hp : pendingRx c with
    | nil =>
      obtain ⟨c', hr, h1, h2, h3⟩ := (rxByte_calm hc).2 hp
      rw [hr] at htx
      exact ⟨c', by simp [readMore, hr], h1, h2, h3, htx⟩
    | cons b bs =>
      obtain ⟨c', hr, hc', hp'⟩ := (rxByte_calm hc).1 b bs hp
      rw [hr] at htx
      obtain ⟨c'', h1, h2, h3, h4, h5⟩ := ih (acc ++ [b]) hc' (by rw [hp']; simpa [hp] using hk)
      exact ⟨c'', by simp [readMore, hr, h1, hp'], h2, h3, h4, h5.trans htx⟩

/-! ### Emptying the queue -/

theorem discardRx_later (c : Channel) : c.Later (discardRx c).chan := by
  unfold discardRx
  split <;> exact .of_taken _ _ rfl (Nat.le_refl _) rfl (by simp [TxAnswer.chan])

/-- A discard that succeeds leaves an empty queue and touches nothing on the TX side (42_transport.md R145). -/
theorem discardRx_sent {c c' : Channel} (h : discardRx c = .sent c') :
    c'.rxFifo = [] ∧ c'.tx = c.tx ∧ c'.now = c.now ∧ arrivals c'.link = arrivals c.link := by
  unfold discardRx at h
  split at h
  · cases h
  · rename_i heq; cases h; simp [heq, arrivals]
  · cases h; simp

/-- With a link that does not fail at once the discard succeeds. -/
theorem discardRx_calm {c : Channel} (h : ∀ e ∈ c.link.head?, isFail e = false) :
    ∃ c', discardRx c = .sent c' := by
  unfold discardRx
  split
  · rename_i heq; simp [heq, isFail] at h
  · exact ⟨_, rfl⟩
  · exact ⟨_, rfl⟩

/-- A discard that fails leaves the queue as it was. -/
theorem discardRx_ioFail {c c' : Channel} (h : discardRx c = .ioFail c') :
    c'.rxFifo = c.rxFifo ∧ c'.tx = c.tx ∧ ∃ out, c.link = .fail out :: c'.link := by
  unfold discardRx at h
  split at h
  · rename_i out l heq; cases h; exact ⟨rfl, rfl, out, heq⟩
  · cases h
  · cases h

end Sys2Proof.Machine
end

