-- ==== Sys2Proof/Laws/Deadline.lean ====
section
/-! SUPPORT. What a poll and a deadline read can do, said once: how long they last, what they take, and that
the loop's fuel is never used up. -/

namespace Sys2Proof.Machine

/-! ### Ticks -/

section
variable {c c' : Channel} {tmo elapsed : Nat}

theorem tickMs_pos (c : Channel) : 0 < tickMs c := Nat.succ_pos _

/-- A tick is at most 101 ms (log 26). -/
theorem tickMs_le (c : Channel) : tickMs c ≤ 101 := c.tick.isLt

theorem tickMs_of_tick (h : c'.tick = c.tick) : tickMs c' = tickMs c := by unfold tickMs; rw [h]

/-- A poll ends no later than 100 ms after the deadline (42_transport.md R147). -/
theorem pollTicks_le (h : elapsed ≤ tmo + Config.pollMs) :
    elapsed + pollTicks tmo elapsed c * tickMs c ≤ tmo + Config.pollMs := by
  have h1 := Nat.mul_le_mul_right (tickMs c)
    (Nat.min_le_right ((Config.pollMs + tickMs c - 1) / tickMs c) ((tmo + Config.pollMs - elapsed) / tickMs c))
  have h2 := Nat.div_mul_le_self (tmo + Config.pollMs - elapsed) (tickMs c)
  unfold pollTicks
  omega

/-- A poll before the deadline lasts at least one tick, unless something happens. -/
theorem pollTicks_pos (h : elapsed < tmo) : 0 < pollTicks tmo elapsed c := by
  have hp := tickMs_pos c
  have hl := tickMs_le c
  unfold pollTicks
  refine Nat.lt_min.2 ⟨Nat.div_pos ?_ hp, Nat.div_pos ?_ hp⟩ <;> simp only [Config.pollMs] <;> omega

end

/-! ### One poll -/

/-- The channel a poll leaves. -/
def PollAnswer.chan : PollAnswer → Channel
  | .byte _ c => c
  | .empty c => c
  | .ioFail c => c

/-- What a poll of at most `w` ticks does: it sends nothing, lasts at most `w`, adds no event, and if it comes
back empty-handed before its time an event was used up. -/
structure PollAnswer.Within (w : Nat) (c : Channel) (r : PollAnswer) : Prop where
  later : c.Later r.chan
  tx : r.chan.tx = c.tx
  time : r.chan.now ≤ c.now + w * tickMs c
  events : r.chan.link.length ≤ c.link.length
  early : ∀ c', r = .empty c' → c'.now = c.now + w * tickMs c ∨ c'.link.length < c.link.length

theorem pollArrival_within {w : Nat} {l : List LinkEvent} {c : Channel} (hl : l.length ≤ c.link.length) :
    (pollArrival w l c).Within w c := by
  fun_induction pollArrival w l c with
  | case1 w c =>
    exact ⟨.of_taken _ _ rfl (Nat.le_add_right _ _) rfl (Nat.le_refl _), rfl, Nat.le_refl _, Nat.zero_le _,
      fun c' h => by cases h; exact .inl rfl⟩
  | case2 w b l c x q hq =>
    refine ⟨(Channel.later_push b c).trans (.of_taken _ _ rfl (Nat.le_refl _) rfl ?_), ?_, ?_, ?_, ?_⟩
    · simp [PollAnswer.chan, hq]
    · simp [PollAnswer.chan]
    · simp [PollAnswer.chan]
    · simp only [PollAnswer.chan]; simp at hl; omega
    · intro c' h; cases h
  | case3 w b l c hq ih =>
    have h := ih (by simp at hl ⊢; omega)
    exact ⟨(Channel.later_push b c).trans h.later, by simpa using h.tx, by simpa using h.time, by simpa using h.events,
      by simpa using h.early⟩
  | case4 w b l c x q hq =>
    refine ⟨(Channel.later_push b c).trans (.of_taken _ _ rfl (Nat.le_refl _) rfl ?_), ?_, ?_, ?_, ?_⟩
    · simp [PollAnswer.chan, hq]
    · simp [PollAnswer.chan]
    · simp [PollAnswer.chan]
    · simp only [PollAnswer.chan]; simp at hl; omega
    · intro c' h; cases h
  | case5 w b l c hq ih =>
    have h := ih (by simp at hl ⊢; omega)
    exact ⟨(Channel.later_push b c).trans h.later, by simpa using h.tx, by simpa using h.time, by simpa using h.events,
      by simpa using h.early⟩
  | case6 w k l c hlt ih =>
    have h := ih (by simp at hl ⊢; omega)
    have hk : k * tickMs c + (w - k) * tickMs c = w * tickMs c := by rw [← Nat.add_mul]; congr 1; omega
    refine ⟨(Channel.Later.of_taken c { c with now := c.now + k * tickMs c } rfl (Nat.le_add_right _ _) rfl
      (Nat.le_refl _)).trans h.later, h.tx, ?_, h.events, ?_⟩
    · have : _ ≤ c.now + k * tickMs c + (w - k) * tickMs c := h.time
      omega
    · intro c' he
      have : c'.now = c.now + k * tickMs c + (w - k) * tickMs c ∨ _ := h.early c' he
      dsimp only at this
      omega
  | case7 w ms l c hge =>
    refine ⟨.of_taken _ _ rfl (Nat.le_add_right _ _) rfl (Nat.le_refl _), rfl, Nat.le_refl _, ?_, ?_⟩
    · simp only [PollAnswer.chan]
      split <;> simp at hl ⊢ <;> omega
    · intro c' h; cases h; exact .inl rfl
  | case8 w l c =>
    refine ⟨.of_taken _ _ rfl (Nat.le_refl _) rfl (Nat.le_refl _), rfl, Nat.le_add_right _ _, ?_, ?_⟩
    · simp only [PollAnswer.chan]; simp at hl; omega
    · intro c' h; cases h; exact .inr (by simp at hl ⊢; omega)
  | case9 w l c ih => exact ih (by simp at hl; omega)
  | case10 w sent l c =>
    refine ⟨.of_taken _ _ rfl (Nat.le_refl _) rfl (Nat.le_refl _), rfl, Nat.le_add_right _ _, ?_, ?_⟩
    · simp only [PollAnswer.chan]; simp at hl; omega
    · intro c' h; cases h

theorem pollByte_within (w : Nat) (c : Channel) : (pollByte w c).Within w c := by
  unfold pollByte
  split
  · exact pollArrival_within (Nat.le_refl _)
  · rename_i b q hq
    split <;> refine ⟨.of_taken _ _ rfl (Nat.le_refl _) rfl (by simp [PollAnswer.chan, hq]), rfl, Nat.le_add_right _ _,
      ?_, fun c' h => by cases h⟩ <;> simp [PollAnswer.chan, *]

theorem poll_within (w : Nat) (c : Channel) : (poll w c).Within w c := by
  have h := pollByte_within w (land c.link c)
  have hl := (land_frame c.link c).2.2.1.length_le
  exact ⟨(land_later c.link c).trans h.later, h.tx.trans (land_tx _ _), h.time.trans (by simp), h.events.trans hl,
    fun c' he => (h.early c' he).imp (fun h => by simpa using h) (Nat.lt_of_lt_of_le · hl)⟩

/-! ### The deadline read -/

/-- The channel a deadline read leaves. -/
def DeadlineAnswer.chan : DeadlineAnswer → Channel
  | .done _ c => c
  | .expired _ c => c
  | .ioFail c => c

/-- What polls remain possible: bytes to take, events to use up, ticks until the deadline. -/
def deadlineLeft (n tmo tStart : Nat) (acc : List Byte) (c : Channel) : Nat :=
  (n - acc.length) + c.link.length + (tStart + tmo - c.now)

/-- The poll a deadline read makes next ends no later than 100 ms after the deadline; it takes a byte, uses up an
event, or brings the deadline nearer. -/
theorem nextPoll_within {tmo tStart : Nat} {c : Channel} {r : PollAnswer} (hs : tStart ≤ c.now)
    (h : nextPoll tmo (c.now - tStart) c = some r) :
    c.Later r.chan ∧ r.chan.tx = c.tx ∧ r.chan.now ≤ tStart + tmo + Config.pollMs ∧
    r.chan.link.length ≤ c.link.length ∧
    (∀ c', r = .empty c' → c'.link.length < c.link.length ∨ c.now < tStart + tmo ∧ c.now < c'.now) := by
  unfold nextPoll at h
  split at h
  · rename_i hlt
    cases h
    have hw := poll_within (pollTicks tmo (c.now - tStart) c) c
    have hb := pollTicks_le (c := c) (tmo := tmo) (elapsed := c.now - tStart) (by omega)
    have hp := Nat.mul_pos (pollTicks_pos (c := c) hlt) (tickMs_pos c)
    refine ⟨hw.later, hw.tx, ?_, hw.events, fun c' he => ?_⟩
    · have := hw.time; omega
    · rcases hw.early c' he with h1 | h1
      · exact .inr ⟨by omega, by omega⟩
      · exact .inl h1
  · split at h
    · rename_i l heq
      split at h
      · rename_i hle
        cases h
        have hw := poll_within (pollTicks tmo (c.now - tStart) c) { c with link := l }
        have hl : l.length < c.link.length := by simp [heq]
        refine ⟨(Channel.Later.of_taken c { c with link := l } rfl (Nat.le_refl _) rfl (Nat.le_refl _)).trans hw.later,
          hw.tx, ?_, hw.events.trans hl.le, fun c' he => .inl ?_⟩
        · have h1 : _ ≤ c.now + pollTicks tmo (c.now - tStart) c * tickMs c := hw.time
          have h2 := pollTicks_le (c := c) hle
          omega
        · have h3 := hw.events
          rw [he] at h3
          exact lt_of_le_of_lt h3 hl
      · cases h
    · cases h

/-- A deadline read that gives up does so only once the deadline has passed. -/
theorem nextPoll_none {tmo elapsed : Nat} {c : Channel} (h : nextPoll tmo elapsed c = none) : tmo ≤ elapsed := by
  unfold nextPoll at h
  split at h
  · cases h
  · omega

/-- What the deadline loop can do (42_transport.md R147): it ends inside the window, with all the bytes, or
short of them and not before the deadline. -/
theorem deadlineLoop_window {fuel n tmo tStart : Nat} {acc : List Byte} {c : Channel}
    (hf : deadlineLeft n tmo tStart acc c < fuel) (ha : acc.length ≤ n) (hs : tStart ≤ c.now)
    (hw : c.now ≤ tStart + tmo + Config.pollMs) :
    c.Later (deadlineLoop fuel n tmo tStart acc c).chan ∧
    (deadlineLoop fuel n tmo tStart acc c).chan.tx = c.tx ∧
    (deadlineLoop fuel n tmo tStart acc c).chan.now ≤ tStart + tmo + Config.pollMs ∧
    (∀ acc' c', deadlineLoop fuel n tmo tStart acc c = .done acc' c' → acc'.length = n) ∧
    (∀ acc' c', deadlineLoop fuel n tmo tStart acc c = .expired acc' c' →
      acc'.length < n ∧ tStart + tmo ≤ c'.now) := by
  induction fuel generalizing acc c with
  | zero => omega
  | succ fuel ih =>
    unfold deadlineLoop
    split
    · rename_i hn
      refine ⟨.refl c, rfl, hw, fun acc' c' h => (by cases h; exact hn), fun acc' c' h => (by cases h)⟩
    · rename_i hn
      have hlt : acc.length < n := by omega
      cases hp : nextPoll tmo (c.now - tStart) c with
      | none =>
        have := nextPoll_none hp
        refine ⟨.refl c, rfl, hw, fun acc' c' h => (by cases h), fun acc' c' h => ?_⟩
        cases h
        exact ⟨hlt, by omega⟩
      | some r =>
        obtain ⟨h1, h2, h3, h4, h5⟩ := nextPoll_within hs hp
        have ht := h1.time
        cases r with
        | ioFail c' =>
          exact ⟨h1, h2, h3, fun acc' c' h => (by cases h), fun acc' c' h => (by cases h)⟩
        | empty c' =>
          simp only [PollAnswer.chan] at h1 h2 h3 h4 ht
          have hm : deadlineLeft n tmo tStart acc c' < fuel := by
            rcases h5 c' rfl with h6 | ⟨h6, h7⟩ <;> simp only [deadlineLeft] at * <;> omega
          obtain ⟨i1, i2, i3⟩ := ih hm ha (hs.trans ht) h3
          exact ⟨h1.trans i1, i2.trans h2, i3⟩
        | byte b c' =>
          simp only [PollAnswer.chan] at h1 h2 h3 h4 ht
          have hm : deadlineLeft n tmo tStart (acc ++ [b]) c' < fuel := by
            simp only [deadlineLeft, List.length_append, List.length_cons, List.length_nil] at *
            omega
          obtain ⟨i1, i2, i3⟩ := ih hm (by simp; omega) (hs.trans ht) h3
          exact ⟨h1.trans i1, i2.trans h2, i3⟩

/-- The fuel of a deadline read outlasts its polls. -/
theorem deadlineLeft_lt_fuel (n tmo tStart : Nat) (c : Channel) :
    deadlineLeft n tmo tStart [] c < deadlineFuel n tmo tStart c := by
  simp only [deadlineLeft, deadlineFuel, List.length_nil]
  omega

/-- The same of the whole read. -/
theorem readDeadline_window (n tmo : Nat) (c : Channel) :
    c.Later (readDeadline n tmo c).chan ∧ (readDeadline n tmo c).chan.tx = c.tx ∧
    (readDeadline n tmo c).chan.now ≤ c.now + tmo + Config.pollMs ∧
    (∀ acc c', readDeadline n tmo c = .done acc c' → acc.length = n) ∧
    (∀ acc c', readDeadline n tmo c = .expired acc c' → acc.length < n ∧ c.now + tmo ≤ c'.now) :=
  deadlineLoop_window (deadlineLeft_lt_fuel n tmo c.now c) (Nat.zero_le _) (Nat.le_refl _) (by omega)

/-! ### What is taken -/

/-- The byte a poll takes, if it takes one. -/
def PollAnswer.taken : PollAnswer → List Byte
  | .byte b _ => [b]
  | .empty _ => []
  | .ioFail _ => []

theorem pollArrival_taken {w : Nat} {l : List LinkEvent} {c : Channel} (hd : c.rxDepth = none) (hq : c.rxFifo = []) :
    (pollArrival w l c).taken ++ pendingRx (pollArrival w l c).chan = arrivals l := by
  fun_induction pollArrival w l c with
  | case1 w c => simp [PollAnswer.chan, PollAnswer.taken, pendingRx, hq, arrivals]
  | case2 w b l c x q hx =>
    rw [pushRx_unbounded b c hd, hq] at hx
    cases hx
    simp [PollAnswer.chan, PollAnswer.taken, pendingRx, arrivals]
  | case3 w b l c hx ih =>
    rw [pushRx_unbounded b c hd] at hx
    simp at hx
  | case4 w b l c x q hx =>
    rw [pushRx_unbounded b c hd, hq] at hx
    cases hx
    simp [PollAnswer.chan, PollAnswer.taken, pendingRx, arrivals]
  | case5 w b l c hx ih =>
    rw [pushRx_unbounded b c hd] at hx
    simp at hx
  | case6 w ms l c hlt ih => exact ih hd hq
  | case7 w ms l c hge =>
    simp only [PollAnswer.chan, PollAnswer.taken, pendingRx, hq]; split <;> simp [arrivals]
  | case8 w l c => simp [PollAnswer.chan, PollAnswer.taken, pendingRx, hq, arrivals]
  | case9 w l c ih => exact ih hd hq
  | case10 w sent l c => simp [PollAnswer.chan, PollAnswer.taken, pendingRx, hq, arrivals]

theorem pollByte_taken {c : Channel} (hd : c.rxDepth = none) (w : Nat) :
    (pollByte w c).taken ++ pendingRx (pollByte w c).chan = pendingRx c := by
  unfold pollByte
  split
  · rename_i hq; simpa [pendingRx, hq] using pollArrival_taken (w := w) (l := c.link) hd hq
  · rename_i b q hq
    split <;> rename_i hl <;> simp [PollAnswer.chan, PollAnswer.taken, pendingRx, arrivals, *]

/-- A poll of an unbounded queue takes the next byte of the stream or nothing (20_memory.md R63). -/
theorem poll_taken {c : Channel} (hd : c.rxDepth = none) (w : Nat) :
    (poll w c).taken ++ pendingRx (poll w c).chan = pendingRx c := by
  unfold poll
  rw [pollByte_taken (by simpa using hd), (land_unbounded hd c.link).2]
  rfl

/-- A poll of a queue that holds a byte takes the oldest at once, while the link does not fail. -/
theorem poll_queued {c : Channel} {b : Byte} {q : List Byte} (hc : calm c = true) (hq : c.rxFifo = b :: q) (w : Nat) :
    ∃ c', poll w c = .byte b c' ∧ calm c' = true ∧ q <+: c'.rxFifo ∧ pendingRx c' = q ++ arrivals c.link ∧
      c'.tx = c.tx ∧ c'.now = c.now := by
  have hd := (calm_iff.1 hc).1
  obtain ⟨q', hq', hpre⟩ : ∃ q', (land c.link c).rxFifo = b :: q' ∧ q <+: q' := by
    obtain ⟨l, hl⟩ := (land_unbounded hd c.link).1
    exact ⟨q ++ l, by rw [← hl, hq]; rfl, List.prefix_append _ _⟩
  have hp := (land_unbounded hd c.link).2
  have hl := (calm_iff.1 (land_calm hc)).2
  rw [hq, pendingRx, hq', List.cons_append, List.cons_append, List.cons.injEq] at hp
  unfold poll pollByte
  rw [hq']
  dsimp only
  split
  · rename_i heq; simp [heq, noFail, isFail] at hl
  · rename_i l heq
    rw [heq] at hp
    refine ⟨_, rfl, ?_, hpre, hp.2, by simp, by simp⟩
    simpa [calm_iff, hd, heq, noFail, isFail] using hl
  · exact ⟨_, rfl, by simpa [calm_iff, hd] using hl, hpre, hp.2, by simp, by simp⟩

theorem nextPoll_later {tmo elapsed : Nat} {c : Channel} {r : PollAnswer} (h : nextPoll tmo elapsed c = some r) :
    c.Later r.chan := by
  unfold nextPoll at h
  split at h
  · cases h; exact (poll_within _ c).later
  · split at h
    · rename_i l hl
      split at h
      · cases h
        exact (Channel.Later.of_taken c { c with link := l } rfl (Nat.le_refl _) rfl (Nat.le_refl _)).trans
          (poll_within _ _).later
      · cases h
    · cases h

theorem nextPoll_taken {tmo elapsed : Nat} {c : Channel} {r : PollAnswer} (hd : c.rxDepth = none)
    (h : nextPoll tmo elapsed c = some r) : r.taken ++ pendingRx r.chan = pendingRx c := by
  unfold nextPoll at h
  split at h
  · cases h; exact poll_taken hd _
  · split at h
    · rename_i l hl
      split at h
      · cases h
        rw [poll_taken (c := { c with link := l }) hd]
        simp [pendingRx, hl, arrivals]
      · cases h
    · cases h

/-- The bytes a deadline read has when it ends, none after a failure. -/
def DeadlineAnswer.acc : DeadlineAnswer → List Byte
  | .done acc _ => acc
  | .expired acc _ => acc
  | .ioFail _ => []

/-- A deadline read takes the oldest bytes, in order, and leaves the rest (42_transport.md R146); after a failure
the bytes it had taken are lost (R149). -/
theorem deadlineLoop_taken {fuel n tmo tStart : Nat} {acc : List Byte} {c : Channel} (hd : c.rxDepth = none) :
    (deadlineLoop fuel n tmo tStart acc c).acc ++ pendingRx (deadlineLoop fuel n tmo tStart acc c).chan =
      acc ++ pendingRx c ∨
    (∃ c', deadlineLoop fuel n tmo tStart acc c = .ioFail c' ∧ pendingRx c' <:+ pendingRx c) := by
  induction fuel generalizing acc c with
  | zero => exact .inl rfl
  | succ fuel ih =>
    unfold deadlineLoop
    split
    · exact .inl rfl
    · split
      · exact .inl rfl
      · rename_i c' h
        have ht := nextPoll_taken hd h
        exact .inr ⟨c', rfl, by simpa [PollAnswer.taken, PollAnswer.chan] using ht ▸ List.suffix_rfl⟩
      · rename_i c' h
        have ht := nextPoll_taken hd h
        simp only [PollAnswer.taken, PollAnswer.chan, List.nil_append] at ht
        rw [← ht]
        exact (ih ((nextPoll_later h).depth.trans hd)).imp id (fun ⟨x, h1, h2⟩ => ⟨x, h1, h2⟩)
      · rename_i b c' h
        have ht := nextPoll_taken hd h
        simp only [PollAnswer.taken, PollAnswer.chan] at ht
        rw [← ht]
        refine (ih (acc := acc ++ [b]) ((nextPoll_later h).depth.trans hd)).imp (fun h1 => by simpa [PollAnswer.chan] using h1) ?_
        exact fun ⟨x, h1, h2⟩ => ⟨x, h1, h2.trans (List.suffix_cons _ _)⟩

/-- Bytes that are there before the deadline are taken at once, oldest first, while the link has nothing to
say. -/
theorem deadlineLoop_queued {fuel n tmo tStart : Nat} {acc : List Byte} {c : Channel} (hl : c.link = [])
    (hq : n ≤ acc.length + c.rxFifo.length) (ha : acc.length ≤ n) (hf : n - acc.length < fuel)
    (ht : c.now - tStart < tmo) :
    deadlineLoop fuel n tmo tStart acc c =
      .done (acc ++ c.rxFifo.take (n - acc.length)) { c with rxFifo := c.rxFifo.drop (n - acc.length) } := by
  induction fuel generalizing acc c with
  | zero => omega
  | succ fuel ih =>
    unfold deadlineLoop
    split
    · rename_i hn; simp [hn]
    · rename_i hn
      cases hx : c.rxFifo with
      | nil => simp [hx] at hq; omega
      | cons b q =>
        have hp : nextPoll tmo (c.now - tStart) c = some (.byte b { c with rxFifo := q }) := by
          simp [nextPoll, ht, poll, pollByte, land, hx, hl]
        rw [hp]
        dsimp only
        rw [ih (acc := acc ++ [b]) (c := { c with rxFifo := q }) hl (by simp [hx] at hq ⊢; omega) (by simp; omega) (by simp; omega)
          ht]
        obtain ⟨k, hk⟩ : ∃ k, n - acc.length = k + 1 := ⟨n - acc.length - 1, by omega⟩
        have hk' : n - (acc.length + 1) = k := by omega
        simp [hk, hk']

/-- An empty queue and a silent link: the read lasts a whole number of polls, until the deadline, and has nothing
new (42_transport.md R146). -/
theorem deadlineLoop_silent {fuel n tmo tStart : Nat} {acc : List Byte} {c : Channel} (hl : c.link = [])
    (hq : c.rxFifo = []) (ha : acc.length ≠ n) (hs : tStart ≤ c.now) (hf : tStart + tmo - c.now < fuel) :
    ∃ t, deadlineLoop fuel n tmo tStart acc c = .expired acc { c with now := t } ∧ c.now ≤ t ∧ tStart + tmo ≤ t := by
  induction fuel generalizing c with
  | zero => omega
  | succ fuel ih =>
    unfold deadlineLoop
    rw [if_neg ha]
    by_cases hlt : c.now - tStart < tmo
    · have hp := Nat.mul_pos (pollTicks_pos (c := c) hlt) (tickMs_pos c)
      generalize hw : pollTicks tmo (c.now - tStart) c * tickMs c = w at hp
      have hn : nextPoll tmo (c.now - tStart) c = some (.empty { c with now := c.now + w }) := by
        have hland : land c.link c = c := by rw [hl]; exact congrArg (fun l => { c with link := l }) hl.symm
        unfold nextPoll poll pollByte
        rw [if_pos hlt, hland, hq, hl, ← hw]
        simp [pollArrival, hq]
      rw [hn]
      dsimp only
      obtain ⟨t, h1, h2, h3⟩ := ih (c := { c with now := c.now + w }) hl hq (by dsimp only; omega) (by dsimp only; omega)
      dsimp only at h1 h2
      exact ⟨t, h1, by omega, h3⟩
    · refine ⟨c.now, ?_, Nat.le_refl _, by omega⟩
      have hp : nextPoll tmo (c.now - tStart) c = none := by simp [nextPoll, hlt, hl]
      rw [hp]

end Sys2Proof.Machine
end

