-- ==== Sys2Proof/Laws/Decode.lean ====
section
/-! SUPPORT. What each part of the decoder answers on the bytes the encoder writes. -/

namespace Sys2Proof

/-- A payload and its checksum field are split where they were joined. -/
theorem splitChecked_append (payload : List Byte) (crc : Word) (rest : List Byte) :
    splitChecked payload.length (payload ++ (hi crc :: lo crc :: rest)) = .ok (payload, crc, rest) := by
  simp [splitChecked]

/-- What a split answers was there: the payload has the length asked for. -/
theorem splitChecked_ok {n : Nat} {bytes payload rest : List Byte} {crc : Word}
    (h : splitChecked n bytes = .ok (payload, crc, rest)) :
    payload.length = n ∧ bytes = payload ++ (hi crc :: lo crc :: rest) := by
  unfold splitChecked at h
  split at h
  · rename_i ch cl tail heq
    cases h
    have hlen := congrArg List.length heq
    simp only [List.length_drop, List.length_cons] at hlen
    refine ⟨by simp; omega, ?_⟩
    rw [hi_be, lo_be, ← heq, List.take_append_drop]
  · cases h

/-- A selector that decodes stands in the table of 30_encoding.md R95. -/
theorem decodeHost_mem {op : Byte} {i : Instr} (h : decodeHost op = .ok i) : (op, i) ∈ hostOps := by
  unfold decodeHost at h
  split at h
  · rename_i j hj
    cases h
    obtain ⟨l₁, l₂, he, -⟩ := List.lookup_eq_some_iff.mp hj
    simp [he]
  · cases h

/-- Every entry of that table is the encoding of its operation, on the host side. -/
theorem hostOps_encode : ∀ p ∈ hostOps, encode p.2 = [p.1] ∧ p.2.port = .host ∧ p.2.wellFormed = true := by decide

/-- The frame a write command leaves after `7E 00 08`. -/
theorem decodeWriteFrame_append (addr : Word) (payload : List Byte) (crc : Word) (rest : List Byte)
    (h : encodableLength payload.length = true) :
    decodeWriteFrame (encLen payload.length :: hi addr :: lo addr :: (payload ++ (hi crc :: lo crc :: rest))) =
      .ok (.wireWrite addr payload crc, rest) := by
  simp [decodeWriteFrame, decLen_encLen h, splitChecked_append]

/-- The frame a reply leaves after `02 00`. -/
theorem decodeReplyFrame_append (status : Byte) (payload : List Byte) (crc : Word) (rest : List Byte)
    (h : encodableLength payload.length = true) :
    decodeReplyFrame (status :: encLen payload.length :: (payload ++ (hi crc :: lo crc :: rest))) =
      .ok (.wireReply status payload crc, rest) := by
  simp [decodeReplyFrame, decLen_encLen h, splitChecked_append]

/-- The longest instruction has 264 bytes, for a persist frame no longer than that (30_encoding.md R80, R84). -/
theorem encode_length_le {i : Instr} (h : i.wellFormed = true) (hp : ∀ rest, i = .wirePersist rest → rest.length ≤ 261) :
    (encode i).length ≤ maxInstrBytes := by
  cases i <;> simp [encode, maxInstrBytes, Instr.wellFormed, encodableLength] at h ⊢ <;> (try omega)
  rename_i rest
  have := hp rest rfl
  omega

end Sys2Proof
end

