-- ==== Sys2Proof/Laws/Scan.lean ====
section
/-! SUPPORT. What the line loop of SCAN.READ can do, said once, and the parameters it reads. -/

namespace Sys2Proof.Machine

/-- The channel the line loop leaves, if it leaves one. -/
def ScanAnswer.chan? : ScanAnswer → Option Channel
  | .done _ c => some c
  | .ioFail c => some c
  | .waiting _ _ c => some c
  | .overflow _ => none

theorem scanLoop_later (fuel : Nat) (p : Params) (cur : List Byte) (lines : List (List Byte)) (c c' : Channel)
    (h : (scanLoop fuel p cur lines c).chan? = some c') : c.Later c' ∧ c'.tx = c.tx := by
  induction fuel generalizing cur lines c with
  | zero =>
    simp only [scanLoop, ScanAnswer.chan?, Option.some.injEq] at h
    subst h
    exact ⟨.refl c, rfl⟩
  | succ fuel ih =>
    have hl := rxByte_later c
    have ht := rxByte_tx c
    unfold scanLoop at h
    cases hr : rxByte c <;> rw [hr] at h hl ht <;> dsimp only [RxAnswer.chan] at h hl ht
    · split at h
      · split at h
        · obtain ⟨h1, h2⟩ := ih _ _ _ h; exact ⟨hl.trans h1, h2.trans ht⟩
        · cases h
      · split at h
        · split at h
          · cases h; exact ⟨hl, ht⟩
          · cases h
        · split at h
          · obtain ⟨h1, h2⟩ := ih _ _ _ h; exact ⟨hl.trans h1, h2.trans ht⟩
          · cases h
    · cases h; exact ⟨hl, ht⟩
    · cases h; exact ⟨hl, ht⟩

/-- An empty line is dropped, any other is emitted if it fits (44_scan_decoder.md R182 item 2). -/
theorem emitLine_ok {p : Params} {cur : List Byte} {lines lines' : List (List Byte)}
    (h : emitLine p cur lines = .ok lines') : cur = [] ∧ lines' = lines ∨ cur ≠ [] ∧ lines' = lines ++ [cur] := by
  unfold emitLine at h
  split at h
  · cases h; exact .inl ⟨‹_›, rfl⟩
  · split at h
    · cases h; exact .inr ⟨‹_›, rfl⟩
    · cases h

theorem growLine_ok {p : Params} {cur cur' : List Byte} {b : Byte} (h : growLine p cur b = .ok cur') :
    cur' = cur ++ [b] := by
  unfold growLine at h
  split at h
  · cases h; rfl
  · cases h

/-- A line loop that goes on waiting holds clean lines, if it started with clean ones (44_scan_decoder.md R182 items
1, 2). -/
theorem scanLoop_clean {fuel : Nat} {p : Params} {cur cur' : List Byte} {lines lines' : List (List Byte)} {c c' : Channel}
    (hl : (∀ line ∈ lines, line ≠ [] ∧ line.all dataByte = true) ∧ cur.all dataByte = true)
    (h : scanLoop fuel p cur lines c = .waiting cur' lines' c') :
    (∀ line ∈ lines', line ≠ [] ∧ line.all dataByte = true) ∧ cur'.all dataByte = true := by
  induction fuel generalizing cur lines c with
  | zero => simp only [scanLoop, ScanAnswer.waiting.injEq] at h; obtain ⟨rfl, rfl, -⟩ := h; exact hl
  | succ fuel ih =>
    unfold scanLoop at h
    split at h
    · cases h
    · simp only [ScanAnswer.waiting.injEq] at h; obtain ⟨rfl, rfl, -⟩ := h; exact hl
    · split at h
      · split at h
        · rename_i he
          refine ih ⟨?_, rfl⟩ h
          rcases emitLine_ok he with ⟨-, rfl⟩ | ⟨hn, rfl⟩
          · exact hl.1
          · intro line hmem
            rw [List.mem_append, List.mem_singleton] at hmem
            rcases hmem with hmem | rfl
            · exact hl.1 _ hmem
            · exact ⟨hn, hl.2⟩
        · cases h
      · split at h
        · split at h <;> cases h
        · split at h
          · rename_i h1 h2 _ _ hg
            refine ih ⟨hl.1, ?_⟩ h
            rw [growLine_ok hg, List.all_append, hl.2]
            simp [dataByte, h1, h2]
          · cases h

/-- Without capacities no line overflows (10_state.md R27, "unbounded by default"). -/
theorem emitLine_unbounded {p : Params} (h : p.linesCap = none) (cur : List Byte) (lines : List (List Byte)) :
    emitLine p cur lines = .ok (if cur = [] then lines else lines ++ [cur]) := by
  unfold emitLine
  split <;> simp [fits, h]

theorem growLine_unbounded {p : Params} (h : p.lineCap = none) (cur : List Byte) (b : Byte) :
    growLine p cur b = .ok (cur ++ [b]) := by
  simp [growLine, fits, h]

/-- No more bytes can arrive than there are events. -/
theorem arrivals_length_le (l : List LinkEvent) : (arrivals l).length ≤ l.length := by
  induction l with
  | nil => simp [arrivals]
  | cons e l ih => cases e <;> simp [arrivals] <;> omega

/-- The fuel of the line loop outlasts the bytes. -/
theorem pendingRx_lt_scanFuel (c : Channel) : (pendingRx c).length < scanFuel c := by
  have := arrivals_length_le c.link
  simp [pendingRx, scanFuel]
  omega

/-- A queued first byte is taken at once by a deadline read with time to spare (42_transport.md R147). -/
theorem readDeadline_one_queued {tmo : Nat} {c : Channel} {b : Byte} {q : List Byte} (hc : calm c = true)
    (hq : c.rxFifo = b :: q) (ht : 0 < tmo) :
    ∃ c', readDeadline 1 tmo c = .done [b] c' ∧ calm c' = true ∧ pendingRx c' = q ++ arrivals c.link ∧ c'.tx = c.tx ∧
      c'.now = c.now := by
  have hn : nextPoll tmo (c.now - c.now) c = some (poll (pollTicks tmo (c.now - c.now) c) c) := by simp [nextPoll, ht]
  obtain ⟨c', hp, h1, -, h⟩ := poll_queued hc hq (pollTicks tmo (c.now - c.now) c)
  refine ⟨c', ?_, h1, h⟩
  rw [hp] at hn
  obtain ⟨k, hk⟩ : ∃ k, deadlineFuel 1 tmo c.now c = k + 2 := ⟨deadlineFuel 1 tmo c.now c - 2, by unfold deadlineFuel; omega⟩
  unfold readDeadline readFrom
  rw [hk]
  unfold deadlineLoop
  rw [if_neg (by simp), hn]
  dsimp only
  unfold deadlineLoop
  simp

/-- A scan is classified whatever phase it stands in. -/
@[simp] theorem classify_enter (p : Phase) (w : Work) (code : Byte) (lines : List (List Byte)) (s : State) :
    classify code lines (enter p w s) = classify code lines s := rfl

/-- The code of "dot-matrix" is none of the codes the source settles (44_scan_decoder.md R183). -/
theorem dotMatrixCode_new (k : Fin 252) :
    dotMatrixCode k ≠ 0x00 ∧ dotMatrixCode k ≠ Config.classQr ∧ dotMatrixCode k ≠ Config.classEan13 ∧
    dotMatrixCode k ≠ Config.classUnknown := by
  revert k; decide +kernel

/-- `LINEAR_SELECT` returns a member of the list (44_scan_decoder.md R183). -/
theorem linearSelect_mem (p : Params) {lines : List (List Byte)} (h : lines ≠ []) : linearSelect p lines ∈ lines := by
  match lines, h with
  | [line], _ => simp [linearSelect]
  | line :: line' :: lines, _ =>
    have hlt : linearIndexOf p (line :: line' :: lines) % (lines.length + 1 + 1) < (line :: line' :: lines).length := by
      simpa using Nat.mod_lt _ (Nat.succ_pos _)
    simp only [linearSelect, List.length_cons, List.getD_eq_getElem?_getD, List.getElem?_eq_getElem hlt]
    exact List.getElem_mem hlt

end Sys2Proof.Machine
end

