-- ==== Sys2Proof/Laws/Sequencer.lean ====
section
/-! SUPPORT. What each phase of the sequencer can do, said once, and what an operation does that runs through its
phases in one step. -/

namespace Sys2Proof.Machine

/-! ### Running on -/

section
variable {s t : State} {k : Nat}

theorem phaseStep_idle (h : s.phase = .idle) : phaseStep s = .next s := by unfold phaseStep; rw [h]

/-- A phase that ends the operation, or in which it waits, is the last of its step, … -/
theorem settle_stop (h : phaseStep s = .next t) (ht : t.phase = .idle ∨ t.phase = s.phase) : settle (k + 1) s = .next t := by
  rw [settle, h, andThen_next, if_pos ht]

/-- … any other leads on. -/
theorem settle_on (h : phaseStep s = .next t) (h1 : t.phase ≠ .idle) (h2 : t.phase ≠ s.phase) :
    settle (k + 1) s = settle k t := by
  rw [settle, h, andThen_next, if_neg (not_or.2 ⟨h1, h2⟩)]

theorem settle_fault {f : Fault} (h : phaseStep s = .fault f) : settle (k + 1) s = .fault f := by
  rw [settle, h, andThen_fault]

theorem settle_idle (h : s.phase = .idle) : settle k s = .next s := by
  cases k with
  | zero => rfl
  | succ k => exact settle_stop (phaseStep_idle h) (.inl h)

/-- Running on does nothing to an operation that has ended, … -/
theorem runOn_idle (h : s.phase = .idle) : runOn (.next s) = .next s := by
  unfold runOn; rw [andThen_next, settle_idle h, andThen_next, park_idle h]

/-- … and starts nothing that was turned away. -/
@[simp] theorem runOn_whenIdle {body : Exec} : runOn (whenIdle s body) = whenIdle s (runOn body) := by
  unfold whenIdle; split <;> rfl

@[simp] theorem runOn_whenOpen {body : Exec} : runOn (whenOpen s body) = whenOpen s (runOn body) := by
  unfold whenOpen
  rw [runOn_whenIdle]
  split
  · rfl
  · rw [runOn_idle (raise_phase _ _)]

/-- An operation of one phase ends, waits, or stops in it. -/
theorem runOn_ends (h : phaseStep s = .next t) (ht : t.phase = .idle) : runOn (.next s) = .next t := by
  unfold runOn phaseCount; rw [andThen_next, settle_stop h (.inl ht), andThen_next, park_idle ht]

theorem runOn_waits (h : phaseStep s = .next t) (ht : t.phase = s.phase) : runOn (.next s) = .next (park t) := by
  unfold runOn phaseCount; rw [andThen_next, settle_stop h (.inr ht), andThen_next]

theorem runOn_fault {f : Fault} (h : phaseStep s = .fault f) : runOn (.next s) = .fault f := by
  unfold runOn phaseCount; rw [andThen_next, settle_fault h, andThen_fault]

end

/-! ### What a job does with its bytes -/

@[simp] theorem afterAck_enter (p : Phase) (w : Work) (next : AfterAck) (s : State) :
    afterAck next (enter p w s) = afterAck next s := by
  cases next <;> rfl

section
variable {acc data : List Byte} {n k : Nat} {e : Error} {next : AfterAck} (s : State)

theorem completeJob_readReply_ok (h : parseReply acc n true = .ok (data, k)) :
    completeJob (.readReply n) acc s = finish { s.result with outcome := .ok, obuf := data, olen := k } s := by
  simp only [completeJob, h]

theorem completeJob_readReply_error (h : parseReply acc n true = .error e) :
    completeJob (.readReply n) acc s = raise e s := by
  simp only [completeJob, h]

theorem completeJob_writeAck_ok (h : parseReply acc 1 true = .ok (data, k)) :
    completeJob (.writeAck next) acc s = afterAck next s := by
  simp only [completeJob, h]

theorem completeJob_writeAck_error (h : parseReply acc 1 true = .error e) :
    completeJob (.writeAck next) acc s = raise e s := by
  simp only [completeJob, h]

theorem completeJob_frameParse_ok {cap : Nat} {check : Bool} (h : parseReply acc cap check = .ok (data, k)) :
    completeJob (.frameParse cap check) acc s = finish { s.result with outcome := .ok, obuf := data, olen := k } s := by
  simp only [completeJob, h]

theorem completeJob_frameParse_error {cap : Nat} {check : Bool} (h : parseReply acc cap check = .error e) :
    completeJob (.frameParse cap check) acc s = raise e s := by
  simp only [completeJob, h]

end

/-- An acknowledgement, accepted or not, ends the write command; only an accepted one writes registers. -/
theorem completeJob_writeAck (next : AfterAck) (acc : List Byte) (s : State) :
    completeJob (.writeAck next) acc s = afterAck next s ∧ (∃ r, parseReply acc 1 true = .ok r) ∨
    ∃ e, completeJob (.writeAck next) acc s = raise e s ∧ parseReply acc 1 true = .error e := by
  unfold completeJob
  cases h : parseReply acc 1 true with
  | ok r => exact .inl ⟨rfl, r, rfl⟩
  | error e => exact .inr ⟨e, rfl, rfl⟩

/-- The phase an operation completes in is not seen afterwards. -/
theorem completeJob_enter {p : Phase} {w : Work} {job : Job} (h : isCommand job = true) (acc : List Byte) (s : State) :
    completeJob job acc (enter p w s) = completeJob job acc s := by
  cases job <;> try cases h
  · simp only [completeJob, afterAck_enter, raise_enter]
  · simp only [completeJob, raise_enter, finish_enter, enter_result]

/-- A command that parses its reply has ended. -/
theorem completeJob_idle {job : Job} (h : isCommand job = true) (acc : List Byte) (s : State) :
    (completeJob job acc s).phase = .idle := by
  cases job <;> try cases h
  · rename_i next
    rcases completeJob_writeAck next acc s with ⟨h, -⟩ | ⟨e, h, -⟩ <;> rw [h]
    · cases next <;> rfl
    · rfl
  · rename_i n
    cases h : parseReply acc n true with
    | ok r => rw [completeJob_readReply_ok s h]; rfl
    | error e => rw [completeJob_readReply_error s h]; rfl

/-! ### BUILD and TX -/

section
variable {s : State} {c : Channel}

/-- A command leaves BUILD with its frame laid out (43_command_reply.md R160). -/
theorem phaseStep_build (hp : s.phase = .build) (hj : isCommand s.work.job = true) :
    phaseStep s = .next (enter .tx { s.work with
      crc := crc16 (frameBody s.work.fields), frame := buildFrame s.work.fields, fields := FrameFields.clear } s) := by
  unfold phaseStep; rw [hp]; dsimp only; unfold buildPhase; rw [if_pos hj]

theorem phaseStep_tx_ioFail (hp : s.phase = .tx) (h : transmit s.chan.link s.work.frame s.chan = .ioFail c) :
    phaseStep s = .next (raise .ioFailure { s with chan := c }) := by
  unfold phaseStep; rw [hp]; dsimp only; unfold txPhase; rw [h]; rfl

/-- A frame that is out leads to RX_WAIT. -/
theorem phaseStep_tx_command (hp : s.phase = .tx) (hj : isCommand s.work.job = true)
    (h : transmit s.chan.link s.work.frame s.chan = .sent c) :
    phaseStep s = .next (enter .rxWait s.work { s with chan := c }) := by
  unfold phaseStep; rw [hp]; dsimp only; unfold txPhase; rw [h]; dsimp only; rw [if_pos hj]; rfl

theorem phaseStep_tx_send (hp : s.phase = .tx) (hj : s.work.job = .send)
    (h : transmit s.chan.link s.work.frame s.chan = .sent c) :
    phaseStep s = .next (finishWith .ok { s with chan := c }) := by
  unfold phaseStep; rw [hp]; dsimp only; unfold txPhase; rw [h]; dsimp only; rw [hj]; rfl

end

/-! ### RX_WAIT -/

section
variable {s : State} {acc : List Byte} {c : Channel}

theorem phaseStep_receive (hp : s.phase = .rxWait) (h : isCommand s.work.job = true ∨ ∃ n, s.work.job = .readExact n) :
    phaseStep s = .next (receive s) := by
  unfold phaseStep; rw [hp]; dsimp only; unfold rxPhase
  rcases h with h | ⟨n, h⟩
  · cases hj : s.work.job <;> rw [hj] at h <;> first | rfl | cases h
  · rw [h]

theorem receive_ioFail (h : readMore (jobBytes s.work.job - s.work.acc.length) s.work.acc s.chan = .ioFail c) :
    receive s = raise .ioFailure { s with chan := c } := by
  unfold receive; rw [h]

theorem receive_waiting (h : readMore (jobBytes s.work.job - s.work.acc.length) s.work.acc s.chan = .waiting acc c) :
    receive s = enter .rxWait { s.work with acc := acc } { s with chan := c } := by
  unfold receive; rw [h]

theorem receive_done (h : readMore (jobBytes s.work.job - s.work.acc.length) s.work.acc s.chan = .done acc c) :
    receive s =
      if isCommand s.work.job then enter .parse { s.work with acc := acc } { s with chan := c }
      else completeJob s.work.job acc { s with chan := c } := by
  unfold receive; rw [h]

/-- RX_WAIT brings all the bytes, fails, or goes on waiting. -/
theorem receive_cases (s : State) :
    (∃ acc c, readMore (jobBytes s.work.job - s.work.acc.length) s.work.acc s.chan = .done acc c ∧
      receive s =
        if isCommand s.work.job then enter .parse { s.work with acc := acc } { s with chan := c }
        else completeJob s.work.job acc { s with chan := c }) ∨
    (∃ c, readMore (jobBytes s.work.job - s.work.acc.length) s.work.acc s.chan = .ioFail c ∧
      receive s = raise .ioFailure { s with chan := c }) ∨
    (∃ acc c, readMore (jobBytes s.work.job - s.work.acc.length) s.work.acc s.chan = .waiting acc c ∧
      receive s = enter .rxWait { s.work with acc := acc } { s with chan := c }) := by
  cases h : readMore (jobBytes s.work.job - s.work.acc.length) s.work.acc s.chan with
  | done acc c => exact .inl ⟨acc, c, rfl, receive_done h⟩
  | ioFail c => exact .inr (.inl ⟨c, rfl, receive_ioFail h⟩)
  | waiting acc c => exact .inr (.inr ⟨acc, c, rfl, receive_waiting h⟩)

/-! From RX_WAIT to where the step ends: `k + 2` phases are enough, RX_WAIT and PARSE. -/

variable {k : Nat} (hp : s.phase = .rxWait)
include hp

theorem settle_rx_ioFail (hj : isCommand s.work.job = true ∨ ∃ n, s.work.job = .readExact n)
    (h : readMore (jobBytes s.work.job - s.work.acc.length) s.work.acc s.chan = .ioFail c) :
    settle (k + 2) s = .next (raise .ioFailure { s with chan := c }) :=
  settle_stop ((phaseStep_receive hp hj).trans (congrArg _ (receive_ioFail h))) (.inl rfl)

theorem settle_rx_waiting (hj : isCommand s.work.job = true ∨ ∃ n, s.work.job = .readExact n)
    (h : readMore (jobBytes s.work.job - s.work.acc.length) s.work.acc s.chan = .waiting acc c) :
    settle (k + 2) s = .next (enter .rxWait { s.work with acc := acc } { s with chan := c }) :=
  settle_stop ((phaseStep_receive hp hj).trans (congrArg _ (receive_waiting h))) (.inr hp.symm)

theorem settle_rx_done (hj : isCommand s.work.job = true ∨ ∃ n, s.work.job = .readExact n)
    (h : readMore (jobBytes s.work.job - s.work.acc.length) s.work.acc s.chan = .done acc c) :
    settle (k + 2) s = .next (completeJob s.work.job acc { s with chan := c }) := by
  have hr := (phaseStep_receive hp hj).trans (congrArg _ (receive_done h))
  by_cases hc : isCommand s.work.job = true
  · rw [if_pos hc] at hr
    rw [settle_on hr (by simp) (by simp [hp])]
    refine settle_stop (t := completeJob s.work.job acc { s with chan := c }) ?_ (.inl (completeJob_idle hc _ _))
    exact congrArg Host.Outcome.next (completeJob_enter hc acc { s with chan := c })
  · rw [if_neg hc] at hr
    obtain ⟨n, hn⟩ := hj.resolve_left hc
    refine settle_stop hr (.inl ?_)
    rw [hn]; rfl

/-- A step of an operation that runs whole and waits for bytes: it completes, fails, or goes on waiting. -/
theorem settle_rx_cases (hj : isCommand s.work.job = true ∨ ∃ n, s.work.job = .readExact n) :
    (∃ acc c, readMore (jobBytes s.work.job - s.work.acc.length) s.work.acc s.chan = .done acc c ∧
      settle (k + 2) s = .next (completeJob s.work.job acc { s with chan := c })) ∨
    (∃ c, readMore (jobBytes s.work.job - s.work.acc.length) s.work.acc s.chan = .ioFail c ∧
      settle (k + 2) s = .next (raise .ioFailure { s with chan := c })) ∨
    (∃ acc c, readMore (jobBytes s.work.job - s.work.acc.length) s.work.acc s.chan = .waiting acc c ∧
      settle (k + 2) s = .next (enter .rxWait { s.work with acc := acc } { s with chan := c })) := by
  cases h : readMore (jobBytes s.work.job - s.work.acc.length) s.work.acc s.chan with
  | done acc c => exact .inl ⟨acc, c, rfl, settle_rx_done hp hj h⟩
  | ioFail c => exact .inr (.inl ⟨c, rfl, settle_rx_ioFail hp hj h⟩)
  | waiting acc c => exact .inr (.inr ⟨acc, c, rfl, settle_rx_waiting hp hj h⟩)

end

/-! ### Whole operations -/

section
variable {s : State} {bytes acc : List Byte} {n : Nat} {c c' : Channel}

/-- A raw transmission ends as its transfer does (42_transport.md R141). -/
theorem runSend_sent (h : transmit s.chan.link bytes s.chan = .sent c) :
    runOn (.next (enterSend bytes s)) = .next (finishWith .ok { s with chan := c }) :=
  runOn_ends (phaseStep_tx_send (s := enterSend bytes s) rfl rfl h) rfl

theorem runSend_ioFail (h : transmit s.chan.link bytes s.chan = .ioFail c) :
    runOn (.next (enterSend bytes s)) = .next (raise .ioFailure { s with chan := c }) :=
  runOn_ends (phaseStep_tx_ioFail (s := enterSend bytes s) rfl h) rfl

/-- An exact read ends as its read does, or waits (42_transport.md R142). -/
theorem runRead_done (h : readMore n [] s.chan = .done acc c) :
    runOn (.next (enterRead n s)) =
      .next (finish { s.result with outcome := .ok, obuf := acc, olen := n } { s with chan := c }) := by
  refine runOn_ends ?_ rfl
  exact (phaseStep_receive (s := enterRead n s) rfl (.inr ⟨n, rfl⟩)).trans
    (congrArg _ (receive_done (s := enterRead n s) h))

theorem runRead_ioFail (h : readMore n [] s.chan = .ioFail c) :
    runOn (.next (enterRead n s)) = .next (raise .ioFailure { s with chan := c }) :=
  runOn_ends ((phaseStep_receive (s := enterRead n s) rfl (.inr ⟨n, rfl⟩)).trans
    (congrArg _ (receive_ioFail (s := enterRead n s) h))) rfl

theorem runRead_waiting (h : readMore n [] s.chan = .waiting acc c) :
    runOn (.next (enterRead n s)) =
      .next (suspend .rxWait { Work.clear with job := .readExact n, acc := acc } { s with chan := c }) :=
  runOn_waits ((phaseStep_receive (s := enterRead n s) rfl (.inr ⟨n, rfl⟩)).trans
    (congrArg _ (receive_waiting (s := enterRead n s) h))) rfl

end

/-- A command whose frame is out. -/
def commandSent (f : FrameFields) (job : Job) (c : Channel) (s : State) : State :=
  enter .rxWait { Work.clear with crc := crc16 (frameBody f), frame := buildFrame f, job := job } { s with chan := c }

section
variable {f : FrameFields} {acc : List Byte} {job : Job} {s : State} {c c' : Channel} (hj : isCommand job = true)
include hj

/-- A command lays out its frame and transmits it. -/
theorem settle_command {k : Nat} (h : transmit s.chan.link (buildFrame f) s.chan = .sent c) :
    settle (k + 2) (enterCommand f job s) = settle k (commandSent f job c s) := by
  rw [settle_on (phaseStep_build (s := enterCommand f job s) rfl hj) (by simp) (by simp [enterCommand])]
  exact settle_on (phaseStep_tx_command rfl hj h) (nofun : Phase.rxWait ≠ .idle) (nofun : Phase.rxWait ≠ .tx)

/-- A failed transmission ends the command before any read (43_command_reply.md R160). -/
theorem runCommand_ioFail (h : transmit s.chan.link (buildFrame f) s.chan = .ioFail c) :
    runOn (.next (enterCommand f job s)) = .next (raise .ioFailure { s with chan := c }) := by
  unfold runOn phaseCount
  rw [andThen_next, settle_on (phaseStep_build (s := enterCommand f job s) rfl hj) (by simp) (by simp [enterCommand]),
    settle_stop (phaseStep_tx_ioFail (by rfl) h) (.inl rfl)]
  rfl

/-- A frame that is out, and the whole reply read: the job does what it does with it. -/
theorem runCommand_done (h : transmit s.chan.link (buildFrame f) s.chan = .sent c)
    (hr : readMore (jobBytes job) [] c = .done acc c') :
    runOn (.next (enterCommand f job s)) = .next (completeJob job acc { s with chan := c' }) := by
  unfold runOn phaseCount
  rw [andThen_next, settle_command hj h, settle_rx_done (s := commandSent f job c s) rfl (.inl hj) hr, andThen_next]
  have he : completeJob job acc { commandSent f job c s with chan := c' } = completeJob job acc { s with chan := c' } :=
    completeJob_enter hj acc { s with chan := c' }
  rw [show (commandSent f job c s).work.job = job from rfl, he, park_idle (completeJob_idle hj _ _)]

theorem runCommand_readFails (h : transmit s.chan.link (buildFrame f) s.chan = .sent c)
    (hr : readMore (jobBytes job) [] c = .ioFail c') :
    runOn (.next (enterCommand f job s)) = .next (raise .ioFailure { s with chan := c' }) := by
  unfold runOn phaseCount
  rw [andThen_next, settle_command hj h, settle_rx_ioFail (s := commandSent f job c s) rfl (.inl hj) hr]
  rfl

/-- A frame that is out, and a reply that is not there yet (70_reset_and_hazards.md R237). -/
theorem runCommand_waiting (h : transmit s.chan.link (buildFrame f) s.chan = .sent c)
    (hr : readMore (jobBytes job) [] c = .waiting acc c') :
    runOn (.next (enterCommand f job s)) = .next (suspend .rxWait
      { Work.clear with crc := crc16 (frameBody f), frame := buildFrame f, job := job, acc := acc }
      { s with chan := c' }) := by
  unfold runOn phaseCount
  rw [andThen_next, settle_command hj h, settle_rx_waiting (s := commandSent f job c s) rfl (.inl hj) hr]
  rfl

end

/-! ### SCAN_LINES -/

/-- The line loop of a scan that holds `w`: it ends, fails, goes on waiting, or overflows. -/
theorem linesPhase_enter (w : Work) (s : State) :
    linesPhase (enter .scanLines w s) =
      match scanLoop (scanFuel s.chan) s.params w.cur w.lines s.chan with
      | .done lines c => .next (classify w.classCode lines { s with chan := c })
      | .ioFail c => .next (raise .ioFailure { s with chan := c })
      | .waiting cur lines c => .next (enter .scanLines { w with cur := cur, lines := lines } { s with chan := c })
      | .overflow f => .fault f := by
  unfold linesPhase; rfl

/-- A scan that is classified has ended. -/
@[simp] theorem classify_phase (code : Byte) (lines : List (List Byte)) (s : State) : (classify code lines s).phase = .idle := by
  unfold classify; split
  · rfl
  · split <;> rfl

/-- In one step the line loop is all there is. -/
theorem settle_lines {s : State} (hp : s.phase = .scanLines) (k : Nat) : settle (k + 1) s = linesPhase s := by
  have hs : phaseStep s = linesPhase s := by unfold phaseStep; rw [hp]
  cases h : linesPhase s with
  | fault f => exact settle_fault (hs.trans h)
  | refused r => unfold linesPhase at h; split at h <;> cases h
  | next t =>
    refine settle_stop (hs.trans h) ?_
    unfold linesPhase at h
    split at h <;> cases h
    · exact .inl (classify_phase _ _ _)
    · exact .inl rfl
    · exact .inr hp.symm

/-- The same at the start of a scan whose first byte is read: what is left to do waits suspended. -/
theorem runLines (w : Work) (s : State) :
    runOn (.next (enter .scanLines w s)) =
      match scanLoop (scanFuel s.chan) s.params w.cur w.lines s.chan with
      | .done lines c => .next (classify w.classCode lines { s with chan := c })
      | .ioFail c => .next (raise .ioFailure { s with chan := c })
      | .waiting cur lines c => .next (suspend .scanLines { w with cur := cur, lines := lines } { s with chan := c })
      | .overflow f => .fault f := by
  unfold runOn phaseCount
  rw [andThen_next, settle_lines rfl, linesPhase_enter]
  split
  · rw [andThen_next, park_idle (classify_phase _ _ _)]
  · rfl
  · rfl
  · rfl

/-! ### SCAN_FIRST -/

section
variable {s : State} {acc : List Byte} {c : Channel}

/-- SCAN.READ right after its start. -/
def scanStarted (s : State) : State := enter .scanFirst
  { Work.clear with tStart := s.chan.now, classCode := Config.freeClassCode s.free, job := .scanLines } s

theorem runScan_ioFail (h : readDeadline 1 s.scanTimeout s.chan = .ioFail c) :
    runOn (.next (scanStarted s)) = .next (raise .ioFailure { s with chan := c }) := by
  refine runOn_ends ?_ rfl
  have h' : readFrom (scanStarted s).work.tStart 1 (scanStarted s).scanTimeout (scanStarted s).chan = .ioFail c := h
  show Host.Outcome.next (firstPhase (scanStarted s)) = _
  unfold firstPhase; rw [h']; rfl

theorem runScan_none (h : (∃ acc, readDeadline 1 s.scanTimeout s.chan = .expired acc c) ∨
      ∃ acc, readDeadline 1 s.scanTimeout s.chan = .done acc c ∧ byteAt acc 0 = Config.noResultCode) :
    runOn (.next (scanStarted s)) = .next (finishWith .noResult { s with chan := c }) := by
  refine runOn_ends ?_ rfl
  show Host.Outcome.next (firstPhase (scanStarted s)) = _
  unfold firstPhase
  rcases h with ⟨acc, h⟩ | ⟨acc, h, hc⟩
  · have h' : readFrom (scanStarted s).work.tStart 1 (scanStarted s).scanTimeout (scanStarted s).chan = .expired acc c := h
    rw [h']; rfl
  · have h' : readFrom (scanStarted s).work.tStart 1 (scanStarted s).scanTimeout (scanStarted s).chan = .done acc c := h
    rw [h']; dsimp only; rw [if_pos hc]; rfl

/-- With a classification code read, the line loop follows (44_scan_decoder.md R181). -/
theorem runScan_code (h : readDeadline 1 s.scanTimeout s.chan = .done acc c) (hc : byteAt acc 0 ≠ Config.noResultCode) :
    runOn (.next (scanStarted s)) = runOn (.next (enter .scanLines
      { Work.clear with tStart := s.chan.now, classCode := byteAt acc 0, job := .scanLines } { s with chan := c })) := by
  have hs : phaseStep (scanStarted s) = .next (enter .scanLines
      { Work.clear with tStart := s.chan.now, classCode := byteAt acc 0, job := .scanLines } { s with chan := c }) := by
    show Host.Outcome.next (firstPhase (scanStarted s)) = _
    have h' : readFrom (scanStarted s).work.tStart 1 (scanStarted s).scanTimeout (scanStarted s).chan = .done acc c := h
    unfold firstPhase; rw [h']; dsimp only; rw [if_neg hc]; rfl
  unfold runOn phaseCount
  rw [andThen_next, andThen_next, settle_on hs (by simp) (by simp [scanStarted]), settle_lines rfl, settle_lines rfl]

end

end Sys2Proof.Machine
end

