-- ==== Sys2Proof/Laws/Exec.lean ====
section
/-! SUPPORT. What each meaning can answer as a next state, said once, so that no claim over all instructions
unfolds a meaning. `Moves c c'` is what the transfers of an operation may do to the channel. -/

namespace Sys2Proof.Machine

/-! ### Channels -/

/-- What an operation may do to the channel: `Later`, and with an unbounded queue it takes what is still to be
read from the front (20_memory.md R63). -/
structure Moves (c c' : Channel) : Prop where
  later : c.Later c'
  oldest : c.rxDepth = none → pendingRx c' <:+ pendingRx c

theorem Moves.refl (c : Channel) : Moves c c := ⟨.refl c, fun _ => List.suffix_rfl⟩

theorem Moves.trans {a b c : Channel} (h : Moves a b) (h' : Moves b c) : Moves a c :=
  ⟨h.later.trans h'.later, fun hd => (h'.oldest (h.later.depth.trans hd)).trans (h.oldest hd)⟩

theorem moves_transmit (bs : List Byte) (c : Channel) : Moves c (transmit c.link bs c).chan :=
  ⟨(transmit_later _ _ _).1, fun hd => (transmit_unbounded hd c.link bs).2 ▸ List.suffix_rfl⟩

theorem moves_discard (c : Channel) : Moves c (discardRx c).chan := by
  refine ⟨discardRx_later c, fun _ => ?_⟩
  cases h : discardRx c with
  | sent c' =>
    obtain ⟨h1, -, -, h2⟩ := discardRx_sent h
    simp [TxAnswer.chan, pendingRx, h1, h2]
  | ioFail c' =>
    obtain ⟨h1, -, out, h2⟩ := discardRx_ioFail h
    simp [TxAnswer.chan, pendingRx, h1, h2, arrivals]

theorem moves_rxByte (c : Channel) : Moves c (rxByte c).chan :=
  ⟨rxByte_later c, fun hd => rxByte_taken hd ▸ List.suffix_append _ _⟩

theorem moves_readMore (k : Nat) (acc : List Byte) (c : Channel) : Moves c (readMore k acc c).chan := by
  induction k generalizing acc c with
  | zero => exact .refl c
  | succ k ih =>
    have h := moves_rxByte c
    unfold readMore
    cases hr : rxByte c <;> rw [hr] at h
    · exact h.trans (ih _ _)
    · exact h
    · exact h

theorem moves_nextPoll {tmo elapsed : Nat} {c : Channel} {r : PollAnswer} (h : nextPoll tmo elapsed c = some r) :
    Moves c r.chan := ⟨nextPoll_later h, fun hd => nextPoll_taken hd h ▸ List.suffix_append _ _⟩

theorem moves_deadlineLoop (fuel n tmo tStart : Nat) (acc : List Byte) (c : Channel) :
    Moves c (deadlineLoop fuel n tmo tStart acc c).chan := by
  induction fuel generalizing acc c with
  | zero => exact .refl c
  | succ fuel ih =>
    unfold deadlineLoop
    split
    · exact .refl c
    · split
      · exact .refl c
      · rename_i h; exact moves_nextPoll h
      · rename_i h; exact (moves_nextPoll h).trans (ih _ _)
      · rename_i h; exact (moves_nextPoll h).trans (ih _ _)

theorem moves_readFrom (tStart n tmo : Nat) (c : Channel) : Moves c (readFrom tStart n tmo c).chan :=
  moves_deadlineLoop _ _ _ _ _ _

theorem moves_readDeadline (n tmo : Nat) (c : Channel) : Moves c (readDeadline n tmo c).chan := moves_readFrom _ _ _ _

theorem moves_scanLoop {fuel : Nat} {p : Params} {cur : List Byte} {lines : List (List Byte)} {c c' : Channel}
    (h : (scanLoop fuel p cur lines c).chan? = some c') : Moves c c' := by
  induction fuel generalizing cur lines c with
  | zero =>
    simp only [scanLoop, ScanAnswer.chan?, Option.some.injEq] at h
    subst h
    exact .refl c
  | succ fuel ih =>
    have hm := moves_rxByte c
    unfold scanLoop at h
    cases hr : rxByte c <;> rw [hr] at h hm <;> dsimp only [RxAnswer.chan] at h hm
    · split at h
      · split at h
        · exact hm.trans (ih h)
        · cases h
      · split at h
        · split at h
          · cases h; exact hm
          · cases h
        · split at h
          · exact hm.trans (ih h)
          · cases h
    · cases h; exact hm
    · cases h; exact hm

/-! ### Endings -/

/-- How a raw transmission ends; it takes no time and leaves what is queued and what is to come. -/
theorem runSend_next {bytes : List Byte} {s t : State} (h : runOn (.next (enterSend bytes s)) = .next t) :
    ∃ c, Moves s.chan c ∧ c.now = s.chan.now ∧
      (s.chan.rxDepth = none → s.chan.rxFifo <+: c.rxFifo ∧ pendingRx c = pendingRx s.chan) ∧
      (t = finishWith .ok { s with chan := c } ∨ t = raise .ioFailure { s with chan := c }) := by
  have hm := moves_transmit bytes s.chan
  have hn := (transmit_later s.chan.link bytes s.chan).2
  have hu := fun hd => transmit_unbounded (c := s.chan) hd s.chan.link bytes
  cases hr : transmit s.chan.link bytes s.chan with
  | sent c =>
    rw [hr] at hm hn hu
    rw [runSend_sent hr] at h; cases h
    exact ⟨c, hm, hn, hu, .inl rfl⟩
  | ioFail c =>
    rw [hr] at hm hn hu
    rw [runSend_ioFail hr] at h; cases h
    exact ⟨c, hm, hn, hu, .inr rfl⟩

/-- How an exact read ends; it sends nothing. -/
theorem runRead_next {n : Nat} {s t : State} (h : runOn (.next (enterRead n s)) = .next t) :
    ∃ c, Moves s.chan c ∧ c.tx = s.chan.tx ∧
      ((∃ acc, t = finish { s.result with outcome := .ok, obuf := acc, olen := n } { s with chan := c }) ∨
        t = raise .ioFailure { s with chan := c } ∨
        (∃ acc, acc.length < n ∧
          t = suspend .rxWait { Work.clear with job := .readExact n, acc := acc } { s with chan := c })) := by
  have hm := moves_readMore n [] s.chan
  have ht := readMore_tx n [] s.chan
  cases hr : readMore n [] s.chan with
  | done acc c =>
    rw [hr] at hm ht
    rw [runRead_done hr] at h; cases h
    exact ⟨c, hm, ht, .inl ⟨acc, rfl⟩⟩
  | ioFail c =>
    rw [hr] at hm ht
    rw [runRead_ioFail hr] at h; cases h
    exact ⟨c, hm, ht, .inr (.inl rfl)⟩
  | waiting acc c =>
    rw [hr] at hm ht
    rw [runRead_waiting hr] at h; cases h
    exact ⟨c, hm, ht, .inr (.inr ⟨acc, by simpa using readMore_waiting_length hr, rfl⟩)⟩

/-- How a command ends. -/
theorem runCommand_next {f : FrameFields} {job : Job} {s t : State} (hj : isCommand job = true)
    (h : runOn (.next (enterCommand f job s)) = .next t) :
    ∃ c, Moves s.chan c ∧
      ((∃ acc, acc.length = jobBytes job ∧ t = completeJob job acc { s with chan := c }) ∨
        t = raise .ioFailure { s with chan := c } ∨
        (∃ acc, acc.length < jobBytes job ∧ t = suspend .rxWait
          { Work.clear with crc := crc16 (frameBody f), frame := buildFrame f, job := job, acc := acc }
          { s with chan := c })) := by
  have hm := moves_transmit (buildFrame f) s.chan
  cases hr : transmit s.chan.link (buildFrame f) s.chan with
  | ioFail c =>
    rw [hr] at hm
    rw [runCommand_ioFail hj hr] at h; cases h
    exact ⟨c, hm, .inr (.inl rfl)⟩
  | sent c =>
    rw [hr] at hm
    have hm' := moves_readMore (jobBytes job) [] c
    cases hq : readMore (jobBytes job) [] c with
    | done acc c' =>
      rw [hq] at hm'
      rw [runCommand_done hj hr hq] at h; cases h
      exact ⟨c', hm.trans hm', .inl ⟨acc, by simpa using readMore_done_length hq, rfl⟩⟩
    | ioFail c' =>
      rw [hq] at hm'
      rw [runCommand_readFails hj hr hq] at h; cases h
      exact ⟨c', hm.trans hm', .inr (.inl rfl)⟩
    | waiting acc c' =>
      rw [hq] at hm'
      rw [runCommand_waiting hj hr hq] at h; cases h
      exact ⟨c', hm.trans hm', .inr (.inr ⟨acc, by simpa using readMore_waiting_length hq, rfl⟩)⟩

/-- How the line loop of SCAN.READ ends in the step that starts it. -/
theorem runLines_next {w : Work} {s t : State} (h : runOn (.next (enter .scanLines w s)) = .next t) :
    ∃ c, Moves s.chan c ∧ c.tx = s.chan.tx ∧
      ((∃ lines, t = classify w.classCode lines { s with chan := c }) ∨
        t = raise .ioFailure { s with chan := c } ∨
        (∃ cur lines, scanLoop (scanFuel s.chan) s.params w.cur w.lines s.chan = .waiting cur lines c ∧
          t = suspend .scanLines { w with cur := cur, lines := lines } { s with chan := c })) := by
  have hm : ∀ c, (scanLoop (scanFuel s.chan) s.params w.cur w.lines s.chan).chan? = some c →
      Moves s.chan c ∧ c.tx = s.chan.tx :=
    fun c hc => ⟨moves_scanLoop hc, (scanLoop_later _ _ _ _ _ _ hc).2⟩
  rw [runLines] at h
  split at h
  · rename_i lines c hc; rw [hc] at hm; cases h
    exact ⟨c, (hm c rfl).1, (hm c rfl).2, .inl ⟨lines, rfl⟩⟩
  · rename_i c hc; rw [hc] at hm; cases h
    exact ⟨c, (hm c rfl).1, (hm c rfl).2, .inr (.inl rfl)⟩
  · rename_i cur lines c hc; rw [hc] at hm; cases h
    exact ⟨c, (hm c rfl).1, (hm c rfl).2, .inr (.inr ⟨cur, lines, hc, rfl⟩)⟩
  · cases h

/-- … and in a later step. -/
theorem linesPhase_next {s t : State} (h : linesPhase s = .next t) :
    ∃ c, Moves s.chan c ∧ c.tx = s.chan.tx ∧
      ((∃ lines, t = classify s.work.classCode lines { s with chan := c }) ∨
        t = raise .ioFailure { s with chan := c } ∨
        (∃ cur lines, scanLoop (scanFuel s.chan) s.params s.work.cur s.work.lines s.chan = .waiting cur lines c ∧
          t = enter .scanLines { s.work with cur := cur, lines := lines } { s with chan := c })) := by
  have hm : ∀ c, (scanLoop (scanFuel s.chan) s.params s.work.cur s.work.lines s.chan).chan? = some c →
      Moves s.chan c ∧ c.tx = s.chan.tx :=
    fun c hc => ⟨moves_scanLoop hc, (scanLoop_later _ _ _ _ _ _ hc).2⟩
  unfold linesPhase at h
  split at h
  · rename_i lines c hc; rw [hc] at hm; cases h
    exact ⟨c, (hm c rfl).1, (hm c rfl).2, .inl ⟨lines, rfl⟩⟩
  · rename_i c hc; rw [hc] at hm; cases h
    exact ⟨c, (hm c rfl).1, (hm c rfl).2, .inr (.inl rfl)⟩
  · rename_i cur lines c hc; rw [hc] at hm; cases h
    exact ⟨c, (hm c rfl).1, (hm c rfl).2, .inr (.inr ⟨cur, lines, hc, rfl⟩)⟩
  · cases h

/-- How a classified scan ends (44_scan_decoder.md R181 step 4). -/
theorem classify_cases (code : Byte) (lines : List (List Byte)) (s : State) :
    classify code lines s = finishWith .noResult s ∨
    classify code lines s = raise (.unsupportedType code) s ∨
    ∃ scan, classify code lines s = finish { s.result with outcome := .ok, scan := scan } s := by
  unfold classify
  split
  · exact .inl rfl
  · split
    · exact .inr (.inl rfl)
    · exact .inr (.inr ⟨_, rfl⟩)
    · exact .inr (.inr ⟨_, rfl⟩)

/-- The errors a reply of `n + 6` bytes can show (41_frame_codec.md R126): never the other two short replies. -/
theorem parseReply_error {buf : List Byte} {cap : Nat} {check : Bool} {e : Error} (h : parseReply buf cap check = .error e) :
    (e = .shortReply .tooShort ∧ buf.length < 6) ∨ e = .invalidHeader ∨ e = .deviceError (byteAt buf 2) ∨
    e = .checksumMismatch ∨ e = .shortReply .overCapacity ∨ (e = .shortReply .overRoom ∧ buf.length - 6 < cap) := by
  unfold parseReply at h
  by_cases h1 : buf.length < Config.envelope
  · rw [if_pos h1] at h; cases h; exact .inl ⟨rfl, h1⟩
  rw [if_neg h1] at h
  by_cases h2 : byteAt buf 0 ≠ Config.replyHdr ∨ byteAt buf 1 ≠ Config.rsvd
  · rw [if_pos h2] at h; cases h; exact .inr (.inl rfl)
  rw [if_neg h2] at h
  by_cases h3 : byteAt buf 2 ≠ Config.statusOk
  · rw [if_pos h3] at h; cases h; exact .inr (.inr (.inl rfl))
  rw [if_neg h3] at h
  by_cases h4 : crcAccepts (replySpan buf) (if check then replyTrailer buf else Config.crcSkip) = false
  · rw [if_pos h4] at h; cases h; exact .inr (.inr (.inr (.inl rfl)))
  rw [if_neg h4] at h
  by_cases h5 : cap < decLen (byteAt buf 3)
  · rw [if_pos h5] at h; cases h; exact .inr (.inr (.inr (.inr (.inl rfl))))
  rw [if_neg h5] at h
  by_cases h6 : buf.length - Config.envelope < decLen (byteAt buf 3)
  · rw [if_pos h6] at h; cases h
    exact .inr (.inr (.inr (.inr (.inr ⟨rfl, Nat.lt_of_lt_of_le h6 (Nat.le_of_not_lt h5)⟩))))
  · rw [if_neg h6] at h; cases h

/-- The errors a command can find in a reply of the length it waits for (43_command_reply.md R161, R164; the matrix
of 60_exceptions.md R203). -/
theorem parseReply_error_full {acc : List Byte} {n : Nat} {e : Error} (hl : acc.length = n + 6)
    (h : parseReply acc n true = .error e) :
    e = .invalidHeader ∨ (∃ code, e = .deviceError code) ∨ e = .checksumMismatch ∨ e = .shortReply .overCapacity := by
  rcases parseReply_error h with ⟨-, h⟩ | h | h | h | h | ⟨-, h⟩
  · omega
  · exact .inl h
  · exact .inr (.inl ⟨_, h⟩)
  · exact .inr (.inr (.inl h))
  · exact .inr (.inr (.inr h))
  · omega

/-! ### One phase -/

/-- What an ending, or going on, leaves of a state: the channel moves, and nothing is written that no operation
writes (10_state.md R21, R30). -/
structure Goes (s t : State) : Prop where
  moves : Moves s.chan t.chan
  host : t.host = s.host
  requests : t.requests = s.requests
  params : t.params = s.params

theorem Goes.refl (s : State) : Goes s s := ⟨.refl _, rfl, rfl, rfl⟩

theorem Goes.trans {s t u : State} (h : Goes s t) (h' : Goes t u) : Goes s u :=
  ⟨h.moves.trans h'.moves, h'.host.trans h.host, h'.requests.trans h.requests, h'.params.trans h.params⟩

/-- How one phase can end: nothing, an error, an outcome that is none, an accepted acknowledgement, or a phase. -/
inductive Ends (s : State) : State → Prop
  | same : Ends s s
  | error (e : Error) (c : Channel) (h : Moves s.chan c) : Ends s (raise e { s with chan := c })
  | result (r : Results) (c : Channel) (h : Moves s.chan c) (hr : isError r.outcome = false) :
    Ends s (finish r { s with chan := c })
  | acknowledged (next : AfterAck) (c : Channel) (h : Moves s.chan c) : Ends s (afterAck next { s with chan := c })
  | phase (p : Phase) (w : Work) (c : Channel) (h : Moves s.chan c) (hp : p ≠ .idle) :
    Ends s (enter p w { s with chan := c })

theorem Ends.goes {s t : State} (h : Ends s t) : Goes s t := by
  cases h with
  | same => exact .refl s
  | error e c h => exact ⟨h, rfl, rfl, rfl⟩
  | result r c h => exact ⟨h, rfl, rfl, rfl⟩
  | acknowledged next c h => cases next <;> exact ⟨h, rfl, rfl, rfl⟩
  | phase p w c h _ => exact ⟨h, rfl, rfl, rfl⟩

theorem ends_classify (code : Byte) (lines : List (List Byte)) {s : State} {c : Channel} (h : Moves s.chan c) :
    Ends s (classify code lines { s with chan := c }) := by
  rcases classify_cases code lines { s with chan := c } with h' | h' | ⟨scan, h'⟩ <;> rw [h']
  · exact .result _ c h rfl
  · exact .error _ c h
  · exact .result _ c h rfl

theorem ends_completeJob (job : Job) (acc : List Byte) {s : State} {c : Channel} (h : Moves s.chan c) :
    Ends s (completeJob job acc { s with chan := c }) ∨ completeJob job acc { s with chan := c } = { s with chan := c } := by
  cases job with
  | readExact n => exact .inl (.result _ c h rfl)
  | writeAck next =>
    rcases completeJob_writeAck next acc { s with chan := c } with ⟨h', -⟩ | ⟨e, h', -⟩ <;> rw [h']
    · exact .inl (.acknowledged next c h)
    · exact .inl (.error e c h)
  | readReply n =>
    cases hp : parseReply acc n true with
    | ok r => rw [completeJob_readReply_ok _ hp]; exact .inl (.result _ c h rfl)
    | error e => rw [completeJob_readReply_error _ hp]; exact .inl (.error e c h)
  | frameParse cap check =>
    cases hp : parseReply acc cap check with
    | ok r => rw [completeJob_frameParse_ok _ hp]; exact .inl (.result _ c h rfl)
    | error e => rw [completeJob_frameParse_error _ hp]; exact .inl (.error e c h)
  | _ => exact .inr rfl

theorem ends_receive {s : State} (hj : isCommand s.work.job = true ∨ ∃ n, s.work.job = .readExact n) :
    Ends s (receive s) := by
  have hm := moves_readMore (jobBytes s.work.job - s.work.acc.length) s.work.acc s.chan
  rcases receive_cases s with ⟨acc, c, hr, hs⟩ | ⟨c, hr, hs⟩ | ⟨acc, c, hr, hs⟩ <;> rw [hr] at hm <;> rw [hs]
  · split
    · exact .phase _ _ _ hm nofun
    · obtain ⟨n, hn⟩ := hj.resolve_left ‹_›
      rw [hn]
      exact .result _ _ hm rfl
  · exact .error _ _ hm
  · exact .phase _ _ _ hm nofun

/-- What a phase can do to a state, whatever the state. -/
theorem phaseStep_ends {s t : State} (h : phaseStep s = .next t) : Ends s t := by
  unfold phaseStep at h
  split at h
  · cases h; exact .same
  · cases h; unfold buildPhase; split
    · exact .phase _ _ s.chan (.refl _) nofun
    · exact .result _ s.chan (.refl _) rfl
  · cases h
    have hm := moves_transmit s.work.frame s.chan
    unfold txPhase
    split <;> rename_i hr <;> rw [hr] at hm
    · exact .error _ _ hm
    · split
      · exact .phase _ _ _ hm nofun
      · exact .result _ _ hm rfl
  · cases h
    unfold rxPhase
    split
    · rename_i n tmo _
      have hm := moves_readFrom s.work.tStart n tmo s.chan
      unfold receiveUntil
      split <;> rename_i hr <;> rw [hr] at hm
      · exact .result _ _ hm rfl
      · exact .result _ _ hm rfl
      · exact .error _ _ hm
      · exact .error _ _ hm
    · rename_i hj; exact ends_receive (.inr ⟨_, hj⟩)
    · rename_i hj; exact ends_receive (.inl (congrArg isCommand hj))
    · rename_i hj; exact ends_receive (.inl (congrArg isCommand hj))
    all_goals exact .same
  · cases h
    rcases ends_completeJob s.work.job s.work.acc (.refl s.chan) with h | h
    · exact h
    · rw [show completeJob s.work.job s.work.acc s = s from h]; exact .same
  · cases h
    have hm := moves_readFrom s.work.tStart 1 s.scanTimeout s.chan
    unfold firstPhase
    split <;> rename_i hr <;> rw [hr] at hm
    · exact .error _ _ hm
    · exact .result _ _ hm rfl
    · split
      · exact .result _ _ hm rfl
      · exact .phase _ _ _ hm nofun
  · obtain ⟨c, hm, -, ⟨lines, rfl⟩ | rfl | ⟨cur, lines, -, rfl⟩⟩ := linesPhase_next h
    · exact ends_classify _ _ hm
    · exact .error _ c hm
    · exact .phase _ _ c hm nofun

/-- What follows a phase ends what went before it. -/
theorem Ends.after {s t : State} {p : Phase} {w : Work} {c : Channel} (hm : Moves s.chan c) (hp : p ≠ .idle)
    (h : Ends (enter p w { s with chan := c }) t) : Ends s t := by
  cases h with
  | same => exact .phase p w c hm hp
  | error e c' h => exact .error e c' (hm.trans h)
  | result r c' h hr => exact .result r c' (hm.trans h) hr
  | acknowledged next c' h =>
    exact (afterAck_enter p w next { s with chan := c' }).symm ▸ Ends.acknowledged next c' (hm.trans h)
  | phase p' w' c' h hp' => exact .phase p' w' c' (hm.trans h) hp'

/-- As many phases as a step runs end as one does. -/
theorem settle_ends {k : Nat} {s t : State} (h : settle k s = .next t) : Ends s t := by
  induction k generalizing s with
  | zero => cases h; exact .same
  | succ k ih =>
    rw [settle] at h
    obtain ⟨u, hu, h⟩ := andThen_eq_next.1 h
    have he := phaseStep_ends hu
    split at h
    · cases h; exact he
    · rename_i hn
      cases he with
      | same => exact ih h
      | phase p w c hm hp => exact (ih h).after hm hp
      | error => exact absurd (.inl rfl) hn
      | result => exact absurd (.inl rfl) hn
      | acknowledged next => exact absurd (.inl (by cases next <;> rfl)) hn

/-- What the running operation can do in a step. -/
theorem advance_ends {s t : State} (hp : s.phase ≠ .idle) (h : advance s = .next t) : Ends s t := by
  unfold advance at h
  rw [if_neg hp] at h
  split at h
  · exact settle_ends h
  · exact phaseStep_ends h

/-! ### One lemma per meaning -/

section
variable {s t : State}

theorem execCrcCompute_next (h : execCrcCompute s = .next t) :
    s.phase = .idle ∧ t = finish { s.result with outcome := .ok, crcout := crc16 s.host.ibuf } s := by
  obtain ⟨hi, h⟩ := whenIdle_next h
  cases h
  exact ⟨hi, rfl⟩

theorem execCrcVerify_next (h : execCrcVerify s = .next t) :
    s.phase = .idle ∧ (t = finishWith .ok s ∨ t = raise .checksumMismatch s) := by
  obtain ⟨hi, h⟩ := whenIdle_next h
  split at h <;> cases h
  · exact ⟨hi, .inl rfl⟩
  · exact ⟨hi, .inr rfl⟩

theorem execFrameBuild_eq (hi : s.phase = .idle) :
    execFrameBuild s = .next (if buildDomain s.host then
      finish { s.result with outcome := .ok, obuf := buildFrame (buildFields s.host),
                             olen := (frameBody (buildFields s.host)).length + 4 } s
      else raise .refused s) := by
  unfold execFrameBuild startFrameBuild
  rw [runOn_whenIdle, whenIdle_idle hi]
  split
  · exact runOn_ends rfl rfl
  · exact runOn_idle rfl

theorem execFrameBuild_next (h : execFrameBuild s = .next t) :
    s.phase = .idle ∧
      ((∃ obuf olen, t = finish { s.result with outcome := .ok, obuf := obuf, olen := olen } s) ∨
        t = raise .refused s) := by
  have hh := h
  unfold execFrameBuild startFrameBuild at h
  rw [runOn_whenIdle] at h
  obtain ⟨hi, -⟩ := whenIdle_next h
  rw [execFrameBuild_eq hi] at hh
  split at hh <;> cases hh
  · exact ⟨hi, .inl ⟨_, _, rfl⟩⟩
  · exact ⟨hi, .inr rfl⟩

theorem execFrameParse_eq (hi : s.phase = .idle) :
    execFrameParse s = .next (match parseReply s.host.ibuf s.host.cap s.host.check with
      | .ok (data, n) => finish { s.result with outcome := .ok, obuf := data, olen := n } s
      | .error e => raise e s) := by
  unfold execFrameParse startFrameParse
  rw [runOn_whenIdle, whenIdle_idle hi]
  cases h : parseReply s.host.ibuf s.host.cap s.host.check with
  | ok r => exact runOn_ends (congrArg Host.Outcome.next (completeJob_frameParse_ok _ h)) rfl
  | error e => exact runOn_ends (congrArg Host.Outcome.next (completeJob_frameParse_error _ h)) rfl

theorem execFrameParse_next (h : execFrameParse s = .next t) :
    s.phase = .idle ∧
      ((∃ obuf olen, t = finish { s.result with outcome := .ok, obuf := obuf, olen := olen } s) ∨
        ∃ e, parseReply s.host.ibuf s.host.cap s.host.check = .error e ∧ t = raise e s) := by
  have hh := h
  unfold execFrameParse startFrameParse at h
  rw [runOn_whenIdle] at h
  obtain ⟨hi, -⟩ := whenIdle_next h
  rw [execFrameParse_eq hi] at hh
  split at hh
  · cases hh; exact ⟨hi, .inl ⟨_, _, rfl⟩⟩
  · rename_i e he; cases hh; exact ⟨hi, .inr ⟨e, he, rfl⟩⟩

/-! In an open session an operation that needs one is what runs on from its start. -/

section
variable (h : s.phase = .idle) (ho : s.session = .opened)
include h ho

theorem execTxWriteAll_opened : execTxWriteAll s = runOn (.next (enterSend s.host.ibuf s)) := by
  unfold execTxWriteAll startTxWriteAll; rw [runOn_whenOpen, whenOpen_opened h ho]

theorem execRxReadExact_opened : execRxReadExact s = runOn (.next (enterRead s.host.n s)) := by
  unfold execRxReadExact startRxReadExact; rw [runOn_whenOpen, whenOpen_opened h ho]

theorem execRxReadByte_opened : execRxReadByte s = runOn (.next (enterRead 1 s)) := by
  unfold execRxReadByte startRxReadByte; rw [runOn_whenOpen, whenOpen_opened h ho]

theorem execCmdWrite_opened (hd : writeDomain s.host = true) :
    execCmdWrite s = runOn (.next (enterCommand (writeFields s.host.addr s.host.ibuf) (.writeAck .done) s)) := by
  unfold execCmdWrite startCmdWrite; rw [runOn_whenOpen, whenOpen_opened h ho, if_pos hd]

theorem execCmdRead_opened (hd : readDomain s.host = true) :
    execCmdRead s = runOn (.next (enterCommand (readFields s.host.addr s.host.n) (.readReply s.host.n) s)) := by
  unfold execCmdRead startCmdRead; rw [runOn_whenOpen, whenOpen_opened h ho, if_pos hd]

theorem execScanSetTimeout_opened (hd : legalTimeout s.host.tmo = true) :
    execScanSetTimeout s = runOn (.next (enterCommand (writeFields s.params.addrScanTimeout [timeoutByte s.host.tmo])
      (.writeAck (.setTimeout s.host.tmo)) s)) := by
  unfold legalTimeout Config.timeoutMinMs at hd
  rw [Bool.and_eq_true, decide_eq_true_eq, decide_eq_true_eq] at hd
  unfold execScanSetTimeout startScanSetTimeout
  rw [runOn_whenOpen, whenOpen_opened h ho, if_neg (by omega), if_neg (by omega)]

theorem execScanRead_opened : execScanRead s = runOn (.next (scanStarted s)) := by
  unfold execScanRead startScanRead; rw [runOn_whenOpen, whenOpen_opened h ho]; rfl

variable {acc : List Byte} {c : Channel}

/-- RX.READ_DEADLINE ends as its read does (42_transport.md R146, R148). -/
theorem execRxReadDeadline_opened (hn : s.host.n ≠ 0) :
    execRxReadDeadline s = .next (match readDeadline s.host.n s.host.tmo s.chan with
      | .done acc c => finish { s.result with outcome := .ok, obuf := acc, olen := s.host.n } { s with chan := c }
      | .expired [] c => finish { s.result with outcome := .noData, olen := 0 } { s with chan := c }
      | .expired (b :: acc) c => raise (.partialRead (b :: acc).length) { s with chan := c }
      | .ioFail c => raise .ioFailure { s with chan := c }) := by
  unfold execRxReadDeadline startRxReadDeadline
  rw [runOn_whenOpen, whenOpen_opened h ho, if_neg hn]
  refine runOn_ends ?_ (by split <;> rfl)
  refine congrArg Host.Outcome.next (?_ : receiveUntil s.host.n s.host.tmo _ = _)
  unfold receiveUntil readDeadline
  dsimp only [enter_work, enter_chan]
  cases readFrom s.chan.now s.host.n s.host.tmo s.chan with
  | expired acc c => cases acc <;> rfl
  | _ => rfl

theorem execRxReadDeadline_done (hn : s.host.n ≠ 0) (hr : readDeadline s.host.n s.host.tmo s.chan = .done acc c) :
    execRxReadDeadline s =
      .next (finish { s.result with outcome := .ok, obuf := acc, olen := s.host.n } { s with chan := c }) := by
  rw [execRxReadDeadline_opened h ho hn, hr]

theorem execRxReadDeadline_noData (hn : s.host.n ≠ 0) (hr : readDeadline s.host.n s.host.tmo s.chan = .expired [] c) :
    execRxReadDeadline s = .next (finish { s.result with outcome := .noData, olen := 0 } { s with chan := c }) := by
  rw [execRxReadDeadline_opened h ho hn, hr]

theorem execRxReadDeadline_partial (hn : s.host.n ≠ 0) (ha : acc ≠ [])
    (hr : readDeadline s.host.n s.host.tmo s.chan = .expired acc c) :
    execRxReadDeadline s = .next (raise (.partialRead acc.length) { s with chan := c }) := by
  obtain ⟨b, acc, rfl⟩ := List.exists_cons_of_ne_nil ha
  rw [execRxReadDeadline_opened h ho hn, hr]

theorem execRxReadDeadline_ioFail (hn : s.host.n ≠ 0) (hr : readDeadline s.host.n s.host.tmo s.chan = .ioFail c) :
    execRxReadDeadline s = .next (raise .ioFailure { s with chan := c }) := by
  rw [execRxReadDeadline_opened h ho hn, hr]

end

/-! ### What a meaning can answer -/

/-- A raw transmission under the session guard: TX.WRITE_ALL and the three command frames. -/
theorem send_next {bytes : List Byte} (h : runOn (whenOpen s (.next (enterSend bytes s))) = .next t) :
    s.phase = .idle ∧
      (t = raise .refused s ∨ ∃ c, Moves s.chan c ∧ c.now = s.chan.now ∧
        (s.chan.rxDepth = none → s.chan.rxFifo <+: c.rxFifo ∧ pendingRx c = pendingRx s.chan) ∧
        (t = finishWith .ok { s with chan := c } ∨ t = raise .ioFailure { s with chan := c })) := by
  rw [runOn_whenOpen] at h
  obtain ⟨hi, ⟨-, h⟩ | ⟨-, rfl⟩⟩ := whenOpen_next h
  · exact ⟨hi, .inr (runSend_next h)⟩
  · exact ⟨hi, .inl rfl⟩

theorem execRxDiscard_next (h : execRxDiscard s = .next t) :
    s.phase = .idle ∧
      (t = raise .refused s ∨ ∃ c, Moves s.chan c ∧ c.tx = s.chan.tx ∧
        (t = finishWith .ok { s with chan := c } ∨ t = raise .ioFailure { s with chan := c })) := by
  obtain ⟨hi, ⟨-, h⟩ | ⟨-, rfl⟩⟩ := whenOpen_next h
  · have hm := moves_discard s.chan
    split at h <;> rename_i c hc <;> rw [hc] at hm <;> cases h
    · exact ⟨hi, .inr ⟨c, hm, (discardRx_sent hc).2.1, .inl rfl⟩⟩
    · exact ⟨hi, .inr ⟨c, hm, (discardRx_ioFail hc).2.1, .inr rfl⟩⟩
  · exact ⟨hi, .inl rfl⟩

/-- An exact read under the session guard: RX.READ_EXACT and RX.READ_BYTE. -/
theorem read_next {n : Nat} (h : runOn (whenOpen s (.next (enterRead n s))) = .next t) :
    s.phase = .idle ∧
      (t = raise .refused s ∨ s.session = .opened ∧ runOn (.next (enterRead n s)) = .next t) := by
  rw [runOn_whenOpen] at h
  obtain ⟨hi, ⟨ho, h⟩ | ⟨-, rfl⟩⟩ := whenOpen_next h
  · exact ⟨hi, .inr ⟨ho, h⟩⟩
  · exact ⟨hi, .inl rfl⟩

theorem execRxReadDeadline_next (h : execRxReadDeadline s = .next t) :
    s.phase = .idle ∧
      (t = raise .refused s ∨ ∃ c, Moves s.chan c ∧ c.tx = s.chan.tx ∧
        ((∃ acc, t = finish { s.result with outcome := .ok, obuf := acc, olen := s.host.n } { s with chan := c }) ∨
          t = finish { s.result with outcome := .noData, olen := 0 } { s with chan := c } ∨
          (∃ k, t = raise (.partialRead k) { s with chan := c }) ∨ t = raise .ioFailure { s with chan := c })) := by
  have hh := h
  unfold execRxReadDeadline startRxReadDeadline at h
  rw [runOn_whenOpen] at h
  obtain ⟨hi, ⟨ho, h⟩ | ⟨-, rfl⟩⟩ := whenOpen_next h
  · by_cases hn : s.host.n = 0
    · rw [if_pos hn, runOn_idle rfl] at h; cases h; exact ⟨hi, .inl rfl⟩
    · rw [execRxReadDeadline_opened hi ho hn] at hh
      have hm := moves_readDeadline s.host.n s.host.tmo s.chan
      have ht := (readDeadline_window s.host.n s.host.tmo s.chan).2.1
      split at hh <;> rename_i hc <;> rw [hc] at hm ht <;> cases hh
      · exact ⟨hi, .inr ⟨_, hm, ht, .inl ⟨_, rfl⟩⟩⟩
      · exact ⟨hi, .inr ⟨_, hm, ht, .inr (.inl rfl)⟩⟩
      · exact ⟨hi, .inr ⟨_, hm, ht, .inr (.inr (.inl ⟨_, rfl⟩))⟩⟩
      · exact ⟨hi, .inr ⟨_, hm, ht, .inr (.inr (.inr rfl))⟩⟩
  · exact ⟨hi, .inl rfl⟩

theorem execCmdWrite_next (h : execCmdWrite s = .next t) :
    s.phase = .idle ∧
      (t = raise .refused s ∨ s.session = .opened ∧
        runOn (.next (enterCommand (writeFields s.host.addr s.host.ibuf) (.writeAck .done) s)) = .next t) := by
  unfold execCmdWrite startCmdWrite at h
  rw [runOn_whenOpen] at h
  obtain ⟨hi, ⟨ho, h⟩ | ⟨-, rfl⟩⟩ := whenOpen_next h
  · split at h
    · exact ⟨hi, .inr ⟨ho, h⟩⟩
    · rw [runOn_idle rfl] at h; cases h; exact ⟨hi, .inl rfl⟩
  · exact ⟨hi, .inl rfl⟩

theorem execCmdRead_next (h : execCmdRead s = .next t) :
    s.phase = .idle ∧
      (t = raise .refused s ∨ s.session = .opened ∧
        runOn (.next (enterCommand (readFields s.host.addr s.host.n) (.readReply s.host.n) s)) = .next t) := by
  unfold execCmdRead startCmdRead at h
  rw [runOn_whenOpen] at h
  obtain ⟨hi, ⟨ho, h⟩ | ⟨-, rfl⟩⟩ := whenOpen_next h
  · split at h
    · exact ⟨hi, .inr ⟨ho, h⟩⟩
    · rw [runOn_idle rfl] at h; cases h; exact ⟨hi, .inl rfl⟩
  · exact ⟨hi, .inl rfl⟩

theorem execScanSetTimeout_next (h : execScanSetTimeout s = .next t) :
    s.phase = .idle ∧
      (t = raise .refused s ∨ (∃ cause, t = raise (.outOfRange cause) s) ∨
        s.session = .opened ∧ legalTimeout s.host.tmo = true ∧
          runOn (.next (enterCommand (writeFields s.params.addrScanTimeout [timeoutByte s.host.tmo])
            (.writeAck (.setTimeout s.host.tmo)) s)) = .next t) := by
  unfold execScanSetTimeout startScanSetTimeout at h
  rw [runOn_whenOpen] at h
  obtain ⟨hi, ⟨ho, h⟩ | ⟨-, rfl⟩⟩ := whenOpen_next h
  · split at h
    · rw [runOn_idle rfl] at h; cases h; exact ⟨hi, .inr (.inl ⟨_, rfl⟩)⟩
    · split at h
      · rw [runOn_idle rfl] at h; cases h; exact ⟨hi, .inr (.inl ⟨_, rfl⟩)⟩
      · rename_i h0 h1
        refine ⟨hi, .inr (.inr ⟨ho, ?_, h⟩)⟩
        unfold legalTimeout
        rw [Bool.and_eq_true]
        exact ⟨decide_eq_true (Nat.pos_of_ne_zero h0), decide_eq_true (Nat.le_of_not_lt h1)⟩
  · exact ⟨hi, .inl rfl⟩

/-- After the discard SESSION.OPEN is a write command (70_reset_and_hazards.md R230). -/
theorem execSessionOpen_closed (hi : s.phase = .idle) (hc : s.session = .closed) :
    execSessionOpen s = match discardRx s.chan with
      | .ioFail c => .next (raise .ioFailure { s with chan := c })
      | .sent c => runOn (.next (enterCommand (writeFields s.params.addrDecodeOpts (decodeOptsPayload s.params))
          (.writeAck .openSession) { s with chan := c })) := by
  unfold execSessionOpen startSessionOpen
  rw [runOn_whenIdle, whenIdle_idle hi, if_pos hc]
  cases discardRx s.chan with
  | ioFail c => exact runOn_idle rfl
  | sent c => rfl

theorem execSessionOpen_next (h : execSessionOpen s = .next t) :
    s.phase = .idle ∧
      (t = raise .refused s ∨ s.session = .closed ∧ ∃ c, Moves s.chan c ∧
        (t = raise .ioFailure { s with chan := c } ∨
          runOn (.next (enterCommand (writeFields s.params.addrDecodeOpts (decodeOptsPayload s.params))
            (.writeAck .openSession) { s with chan := c })) = .next t)) := by
  have hh := h
  unfold execSessionOpen startSessionOpen at h
  rw [runOn_whenIdle] at h
  obtain ⟨hi, h⟩ := whenIdle_next h
  by_cases ho : s.session = .closed
  · rw [execSessionOpen_closed hi ho] at hh
    have hm := moves_discard s.chan
    split at hh <;> rename_i c hc <;> rw [hc] at hm
    · cases hh; exact ⟨hi, .inr ⟨ho, c, hm, .inl rfl⟩⟩
    · exact ⟨hi, .inr ⟨ho, c, hm, .inr hh⟩⟩
  · rw [if_neg ho, runOn_idle rfl] at h; cases h; exact ⟨hi, .inl rfl⟩

theorem execSessionClose_next (h : execSessionClose s = .next t) :
    s.phase = .idle ∧
      (t = raise .refused s ∨ s.session = .opened ∧ ∃ tmo,
        t = finishWith .ok { s with session := .closed, scanTimeout := tmo, free := s.free + 1 }) := by
  obtain ⟨hi, ⟨ho, h⟩ | ⟨-, rfl⟩⟩ := whenOpen_next h
  · cases h; exact ⟨hi, .inr ⟨ho, _, rfl⟩⟩
  · exact ⟨hi, .inl rfl⟩

theorem execScanRead_next (h : execScanRead s = .next t) :
    s.phase = .idle ∧
      (t = raise .refused s ∨ s.session = .opened ∧ ∃ c, Moves s.chan c ∧ c.tx = s.chan.tx ∧
        (t = raise .ioFailure { s with chan := c } ∨ t = finishWith .noResult { s with chan := c } ∨
          ∃ code, code ≠ Config.noResultCode ∧ runOn (.next (enter .scanLines
            { Work.clear with tStart := s.chan.now, classCode := code, job := .scanLines } { s with chan := c })) =
              .next t)) := by
  have hh := h
  unfold execScanRead startScanRead at h
  rw [runOn_whenOpen] at h
  obtain ⟨hi, ⟨ho, -⟩ | ⟨-, rfl⟩⟩ := whenOpen_next h
  · rw [execScanRead_opened hi ho] at hh
    have hm := moves_readDeadline 1 s.scanTimeout s.chan
    have ht := (readDeadline_window 1 s.scanTimeout s.chan).2.1
    cases hr : readDeadline 1 s.scanTimeout s.chan with
    | ioFail c =>
      rw [hr] at hm ht
      rw [runScan_ioFail hr] at hh; cases hh
      exact ⟨hi, .inr ⟨ho, c, hm, ht, .inl rfl⟩⟩
    | expired acc c =>
      rw [hr] at hm ht
      rw [runScan_none (.inl ⟨acc, hr⟩)] at hh; cases hh
      exact ⟨hi, .inr ⟨ho, c, hm, ht, .inr (.inl rfl)⟩⟩
    | done acc c =>
      rw [hr] at hm ht
      by_cases hc : byteAt acc 0 = Config.noResultCode
      · rw [runScan_none (.inr ⟨acc, hr, hc⟩)] at hh; cases hh
        exact ⟨hi, .inr ⟨ho, c, hm, ht, .inr (.inl rfl)⟩⟩
      · rw [runScan_code hr hc] at hh
        exact ⟨hi, .inr ⟨ho, c, hm, ht, .inr (.inr ⟨_, hc, hh⟩)⟩⟩
  · exact ⟨hi, .inl rfl⟩

end

/-- Every instruction runs on from its start: that is all the meaning of an operation does. -/
theorem exec_eq_runOn {i : Instr} (h : ∀ status p crc, i ≠ .wireReply status p crc) (s : State) :
    exec i s = runOn (start i s) := by
  cases i
  case crcCompute =>
    show execCrcCompute s = runOn (execCrcCompute s)
    unfold execCrcCompute; rw [runOn_whenIdle, runOn_idle rfl]
  case crcVerify =>
    show execCrcVerify s = runOn (execCrcVerify s)
    unfold execCrcVerify; rw [runOn_whenIdle, runOn_idle (by split <;> rfl)]
  case rxDiscard =>
    show execRxDiscard s = runOn (execRxDiscard s)
    unfold execRxDiscard; rw [runOn_whenOpen]
    cases discardRx s.chan <;> rw [runOn_idle rfl]
  case sessionClose =>
    show execSessionClose s = runOn (execSessionClose s)
    unfold execSessionClose; rw [runOn_whenOpen, runOn_idle rfl]
  case wireReply status p crc => exact absurd rfl (h status p crc)
  all_goals rfl

end Sys2Proof.Machine
end

