-- ==== Sys2Proof/Laws/PerInstr.lean ====
section
/-! SUPPORT. Facts about instructions as syntax, one lemma per constructor: the encoding of each begins with
the bytes that select its row of spec/opcode_table.json. -/

namespace Sys2Proof.Laws.EncodeSelects

/-- The bytes that select an instruction (30_encoding.md R95, R100), written out from the spec. -/
def selector : Instr → List Byte
  | .crcCompute => [0x10]
  | .crcVerify => [0x11]
  | .frameBuild => [0x12]
  | .frameParse => [0x13]
  | .txWriteAll => [0x14]
  | .rxReadExact => [0x15]
  | .rxReadDeadline => [0x16]
  | .rxReadByte => [0x17]
  | .rxDiscard => [0x18]
  | .cmdWrite => [0x19]
  | .cmdRead => [0x1A]
  | .scanRead => [0x1B]
  | .scanSetTimeout => [0x1C]
  | .sessionOpen => [0x1D]
  | .sessionClose => [0x1E]
  | .wireWrite _ _ _ => [0x7E, 0x00, 0x08]
  | .wireRead _ _ _ => [0x7E, 0x00, 0x07, 0x01]
  | .wirePersist _ => [0x7E, 0x00, 0x09]
  | .wireReply _ _ _ => [0x02, 0x00]

/-- The encoding of the instruction begins with its selector. -/
def Statement (i : Instr) : Prop := selector i <+: encode i

theorem crcCompute : Statement .crcCompute := List.prefix_rfl
theorem crcVerify : Statement .crcVerify := List.prefix_rfl
theorem frameBuild : Statement .frameBuild := List.prefix_rfl
theorem frameParse : Statement .frameParse := List.prefix_rfl
theorem txWriteAll : Statement .txWriteAll := List.prefix_rfl
theorem rxReadExact : Statement .rxReadExact := List.prefix_rfl
theorem rxReadDeadline : Statement .rxReadDeadline := List.prefix_rfl
theorem rxReadByte : Statement .rxReadByte := List.prefix_rfl
theorem rxDiscard : Statement .rxDiscard := List.prefix_rfl
theorem cmdWrite : Statement .cmdWrite := List.prefix_rfl
theorem cmdRead : Statement .cmdRead := List.prefix_rfl
theorem scanRead : Statement .scanRead := List.prefix_rfl
theorem scanSetTimeout : Statement .scanSetTimeout := List.prefix_rfl
theorem sessionOpen : Statement .sessionOpen := List.prefix_rfl
theorem sessionClose : Statement .sessionClose := List.prefix_rfl
theorem wireWrite (addr : Word) (payload : List Byte) (crc : Word) : Statement (.wireWrite addr payload crc) :=
  by simp [Statement, selector, encode, Config.start, Config.rsvd, Config.ftWrite]
theorem wireRead (addr : Word) (rlen : Nat) (crc : Word) : Statement (.wireRead addr rlen crc) :=
  by simp [Statement, selector, encode, Config.start, Config.rsvd, Config.ftRead]
theorem wirePersist (rest : List Byte) : Statement (.wirePersist rest) :=
  by simp [Statement, selector, encode, Config.start, Config.rsvd, Config.ftPersist]
theorem wireReply (status : Byte) (payload : List Byte) (crc : Word) : Statement (.wireReply status payload crc) :=
  by simp [Statement, selector, encode, Config.replyHdr, Config.rsvd]

end Sys2Proof.Laws.EncodeSelects
end

