-- ==== Sys2Proof/Tests/Slice0.lean ====
section
/-! SUPPORT. The model's own tests. Expected values come from the spec's vectors (95_test_vectors.md, with its test
instantiation of the open parameters in Part 3) or are worked out by hand from the rule named. The second half
holds one witness for the hypotheses of every statement that has some. -/

namespace Sys2Proof.Tests

open Sys2Proof.Machine

-- One test after the other: each evaluation in the kernel would otherwise wait on a thread of its own.
set_option Elab.async false

/-! ### Helpers -/

/-- Part 3 of 95_test_vectors.md: `ADDR_SCAN_TRIGGER = 0x1001` and so on, `CLASS_MAP` the three fixed points. -/
def params : Params :=
  { addrScanTrigger := 0x1001, addrScanTimeout := 0x1002, addrDecodeOpts := 0x1003, decodeOptsHead := 0xA5,
    decodeOptsTail := [], classTable := [], dotMatrixIndex := 0, linearTable := [], lineCap := none, linesCap := none }

/-- An open session, nothing running, `rx_fifo` and the link's events as given, operands all zero, `TICK` 1 ms. -/
def opened (q : List Byte) (l : List LinkEvent) : State :=
  { State.reset with session := .opened, params := params, chan := { Channel.reset with rxFifo := q, link := l, tick := 0 } }

/-- The same with a closed session. -/
def closed (q : List Byte) (l : List LinkEvent) : State := { opened q l with session := .closed }

/-- A state with these operand registers. -/
def withHost (o : Machine.Operands) (s : State) : State := { s with host := o }

/-- Operand registers with `IBUF` and `N` given. -/
def operands (ibuf : List Byte) (n : Nat) : Machine.Operands := { Operands.reset with ibuf := ibuf, n := n }

/-- The next state, if there is one. -/
def next? : Exec → Option State
  | .next t => some t
  | .fault _ => none
  | .refused _ => none

/-- The outcome register after an operation that ended. -/
def outcome (e : Exec) : Option OutcomeCode :=
  match next? e with
  | some t => if t.phase = .idle then some t.result.outcome else none
  | none => none

/-- The outcome and the `INFO` register. -/
def outcomeInfo (e : Exec) : Option (OutcomeCode × Byte) := (next? e).map fun t => (t.result.outcome, t.result.info)

/-- The outcome, the returned bytes, their number, and `rx_fifo`. -/
def bytesRead (e : Exec) : Option (OutcomeCode × List Byte × Nat × List Byte) :=
  (next? e).map fun t => (t.result.outcome, t.result.obuf, t.result.olen, t.chan.rxFifo)

/-- The outcome, the TX stream and `rx_fifo`. -/
def streams (e : Exec) : Option (OutcomeCode × List Byte × List Byte) :=
  (next? e).map fun t => (t.result.outcome, t.chan.tx, t.chan.rxFifo)

/-- The outcome, the scan result and `rx_fifo`. -/
def scanned (e : Exec) : Option (OutcomeCode × ScanResult × List Byte) :=
  (next? e).map fun t => (t.result.outcome, t.result.scan, t.chan.rxFifo)

/-- The link sends these bytes. -/
def sends (bytes : List Byte) : List LinkEvent := bytes.map .arrive

/-- The standard acknowledgement (95_test_vectors.md Part 3). -/
def ack : List Byte := [0x02, 0x00, 0x00, 0x01, 0x00, 0x33, 0x31]

/-- The bytes 00 01 02 ... FF. -/
def allBytes : List Byte := (List.range 256).map (BitVec.ofNat 8)

/-- An answer that is a next state is that next state. -/
def stateOf (e : Exec) : State := (next? e).getD State.reset

theorem eq_next {e : Exec} (h : (next? e).isSome = true) : e = .next (stateOf e) := by
  cases e <;> first | rfl | simp [next?] at h

/-! ### WellFormed: one ill-formed term for each check (30_encoding.md R88: 0 and 257 have no encoding) -/

theorem test_wf_write_empty : (Instr.wireWrite 0x000A [] 0x0000).wellFormed = false := by decide
theorem test_wf_write_long : (Instr.wireWrite 0x000A (List.replicate 257 0x00) 0x0000).wellFormed = false := by decide +kernel
theorem test_wf_read_zero : (Instr.wireRead 0x000A 0 0x0000).wellFormed = false := by decide
theorem test_wf_read_long : (Instr.wireRead 0x000A 257 0x0000).wellFormed = false := by decide
theorem test_wf_reply_empty : (Instr.wireReply 0x00 [] 0x0000).wellFormed = false := by decide
theorem test_wf_reply_long : (Instr.wireReply 0x00 (List.replicate 257 0x00) 0x0000).wellFormed = false := by decide +kernel

/-! ### Decode: words written out from 30_encoding.md R95 and R81 to R84 -/

theorem test_decode_host :
    [((0x10 : Byte), Instr.crcCompute), (0x11, .crcVerify), (0x12, .frameBuild), (0x13, .frameParse), (0x14, .txWriteAll),
      (0x15, .rxReadExact), (0x16, .rxReadDeadline), (0x17, .rxReadByte), (0x18, .rxDiscard), (0x19, .cmdWrite),
      (0x1A, .cmdRead), (0x1B, .scanRead), (0x1C, .scanSetTimeout), (0x1D, .sessionOpen), (0x1E, .sessionClose)].all
      (fun p => decode .host [p.1] = .ok (p.2, [])) = true := by decide

theorem test_decode_host_rejects :
    decode .host [0x0F] = .error (.reservedSelector 0x0F) ∧ decode .host [0x1F] = .error (.reservedSelector 0x1F) ∧
    decode .host [] = .error .truncated := by decide

/-- Source vector S4: a write of 3E at 0x000A, its bytes bit by bit. -/
theorem test_decode_write :
    decode .wire [0b01111110, 0b00000000, 0b00001000, 0b00000001, 0b00000000, 0b00001010, 0b00111110, 0b01001100, 0b11001111] =
      .ok (.wireWrite 0x000A [0x3E] 0x4CCF, []) := by decide

/-- The vector of 95_test_vectors.md 2.2 with two payload bytes, high address byte first. -/
theorem test_decode_write_two :
    decode .wire [0x7E, 0x00, 0x08, 0x02, 0x12, 0x34, 0xDE, 0xAD, 0xF4, 0x04] = .ok (.wireWrite 0x1234 [0xDE, 0xAD] 0xF404, []) := by
  decide

/-- The length byte 00 stands for 256. -/
theorem test_decode_write_256 :
    decode .wire ([0x7E, 0x00, 0x08, 0x00, 0x01, 0x00] ++ allBytes ++ [0xB9, 0x32]) =
      .ok (.wireWrite 0x0100 allBytes 0xB932, []) := by decide +kernel

/-- Vectors of 95_test_vectors.md 2.2: requested lengths 256 and 255. -/
theorem test_decode_read :
    decode .wire [0x7E, 0x00, 0x07, 0x01, 0x00, 0x00, 0x00, 0x11, 0x60] = .ok (.wireRead 0x0000 256 0x1160, []) ∧
    decode .wire [0x7E, 0x00, 0x07, 0x01, 0xFF, 0xFF, 0xFF, 0xC3, 0x0C] = .ok (.wireRead 0xFFFF 255 0xC30C, []) := by decide

/-- Function type 0x09 (30_encoding.md R83); the bytes are 95_test_vectors.md 2.2's. -/
theorem test_decode_persist :
    decode .wire [0x7E, 0x00, 0x09, 0x01, 0x00, 0x00, 0x00, 0xDE, 0xC8] =
      .ok (.wirePersist [0x01, 0x00, 0x00, 0x00, 0xDE, 0xC8], []) := by decide

/-- The standard acknowledgement, and a device-error reply with a byte after it. -/
theorem test_decode_reply :
    decode .wire ack = .ok (.wireReply 0x00 [0x00] 0x3331, []) ∧
    decode .wire [0x02, 0x00, 0x03, 0x01, 0x00, 0x6A, 0x61, 0xFF] = .ok (.wireReply 0x03 [0x00] 0x6A61, [0xFF]) := by decide

/-- Reserved bytes, function types and lengths the formats do not have, and cut-off frames. -/
theorem test_decode_wire_rejects :
    decode .wire [0x7E, 0x01, 0x08] = .error (.unknownHeader 0x7E 0x01) ∧
    decode .wire [0x03, 0x00, 0x00, 0x01, 0x00, 0x33, 0x31] = .error (.unknownHeader 0x03 0x00) ∧
    decode .wire [0x7E, 0x00, 0x0A] = .error (.unknownFunctionType 0x0A) ∧
    decode .wire [0x7E, 0x00, 0x07, 0x02, 0x00, 0x0A, 0x01, 0x00, 0x00] = .error (.badReadLength 0x02) ∧
    decode .wire [0x7E, 0x00, 0x08, 0x02, 0x00, 0x0A, 0x3E, 0x4C, 0xCF] = .error .truncated ∧
    decode .wire [0x02] = .error .truncated := by decide

/-- The table's numbering: byte 0 most significant, the host selectors 8 bits (00_scope.md R10; log 3). -/
theorem test_decode_table :
    decodeTableWord 8 0x1B = some .scanRead ∧ decodeTableWord 24 0x7E0008 = some (.wireWrite 0x0000 (List.replicate 256 0x00) 0x0000) ∧
    decodeTableWord 32 0x7E000701 = some (.wireRead 0x0000 256 0x0000) ∧
    decodeTableWord 16 0x0200 = some (.wireReply 0x00 (List.replicate 256 0x00) 0x0000) ∧ decodeTableWord 8 0x1F = none := by
  decide +kernel

/-- The first step after reset runs exactly the row's instruction: CRC.COMPUTE ends, SCAN.READ is refused. -/
theorem test_withFetchWord :
    outcome (step (State.reset.withFetchWord 8 0x10)) = some .ok ∧
    outcome (step (State.reset.withFetchWord 8 0x1B)) = some .refused ∧
    ((next? (step (State.reset.withFetchWord 16 0x0200))).map fun t => t.chan.rxFifo.length) = some 262 := by decide +kernel

/-! ### Checksum Engine -/

/-- All vectors of 95_test_vectors.md 1.1 and 2.1. -/
theorem test_crc_vectors :
    [([0x00, 0x01, 0x00], 0x3331), ([0x00, 0x07, 0x01, 0x00, 0x0A, 0x01], 0xEE8A), ([0x00, 0x00, 0x01, 0x3E], 0xE4AC),
      ([0x00, 0x08, 0x01, 0x00, 0x0A, 0x3E], 0x4CCF), ([], 0x0000), ([0x00], 0x0000), ([0x00, 0x00, 0x00, 0x00], 0x0000),
      ([0x01], 0x1021), ([0x80], 0x9188), ([0xFF], 0x1EF0), ([0xFF, 0xFF], 0x1D0F),
      ([0x31, 0x32, 0x33, 0x34, 0x35, 0x36, 0x37, 0x38, 0x39], 0x31C3), ([0x07, 0x01, 0x00, 0x0A, 0x01], 0xEE8A),
      ([0x08, 0x01, 0x00, 0x0A, 0x3E], 0x4CCF), ([0x00, 0x01, 0x3E], 0xE4AC), ([0x01, 0x00], 0x3331),
      ([0xAB, 0xCD], 0xC965), ([0x00, 0x02, 0x9D, 0x5F], 0xABCD), ([0x08, 0x01, 0x00, 0x0A, 0x3E, 0x4C, 0xCF], 0x0000),
      ([0x00, 0x01, 0x00, 0x33, 0x31], 0x0000), ([0x12, 0x34, 0x56], 0xDE61), ([0xAB, 0xCD, 0xEF], 0x21A4),
      ([0xB9, 0xF9, 0xB9], (0xFFC5 : Word))].all (fun v => crc16 v.1 = v.2) = true := by decide +kernel

/-- The worked example of 40_checksum.md R112. -/
theorem test_exec_crcCompute :
    (next? (exec .crcCompute (withHost (operands [0x00, 0x01, 0x00] 0) (closed [] [])))).map
      (fun t => (t.result.outcome, t.result.crcout)) = some (.ok, 0x3331) := by decide +kernel

/-- The instances of 95_test_vectors.md 1.2. -/
theorem test_exec_crcVerify :
    [([0x00, 0x01, 0x00], 0x3331, .ok), ([0x00, 0x01, 0x00], 0x3330, .eCrc), ([0x00, 0x01, 0x00], 0xABCD, .ok),
      ([], 0xABCD, .ok), ([], 0x0000, .ok), ([], (0x0001 : Word), OutcomeCode.eCrc)].all (fun v =>
        outcome (exec .crcVerify (withHost { operands v.1 0 with expect := v.2.1 } (closed [] []))) = some v.2.2) = true := by
  decide +kernel

/-! ### Frame Codec -/

/-- FRAME.BUILD with these operands. -/
def build (ft len : Byte) (addr : Word) (rlen : Option Nat) (ibuf : List Byte) : Exec :=
  exec .frameBuild (withHost { operands ibuf 0 with
    ft := ft, len := len, addr := addr, rlenEn := rlen.isSome, rlen := rlen.getD 0 } (closed [] []))

/-- The vectors of 95_test_vectors.md 2.2, and the two lengths FRAME.BUILD refuses. -/
theorem test_exec_frameBuild :
    [(build 0x08 0x01 0x000A none [0x3E], [0x7E, 0x00, 0x08, 0x01, 0x00, 0x0A, 0x3E, 0x4C, 0xCF]),
      (build 0x07 0x01 0x000A (some 1) [], [0x7E, 0x00, 0x07, 0x01, 0x00, 0x0A, 0x01, 0xEE, 0x8A]),
      (build 0x07 0x01 0x0000 (some 256) [], [0x7E, 0x00, 0x07, 0x01, 0x00, 0x00, 0x00, 0x11, 0x60]),
      (build 0x07 0x01 0xFFFF (some 255) [], [0x7E, 0x00, 0x07, 0x01, 0xFF, 0xFF, 0xFF, 0xC3, 0x0C]),
      (build 0x07 0x02 0x0102 (some 3) [0xAA], [0x7E, 0x00, 0x07, 0x02, 0x01, 0x02, 0x03, 0xAA, 0xD5, 0xE5]),
      (build 0x07 0x00 0x0000 none [], [0x7E, 0x00, 0x07, 0x00, 0x00, 0x00, 0x51, 0x2D]),
      (build 0x08 0x05 0x000A none [0x3E], [0x7E, 0x00, 0x08, 0x05, 0x00, 0x0A, 0x3E, 0x86, 0x3E]),
      (build 0x09 0x01 0x0000 none [0x00], [0x7E, 0x00, 0x09, 0x01, 0x00, 0x00, 0x00, 0xDE, 0xC8])].all
      (fun v => bytesRead v.1 = some (OutcomeCode.ok, v.2, v.2.length, [])) = true ∧
    outcome (build 0x07 0x01 0x0000 (some 0) []) = some .refused ∧
    outcome (build 0x07 0x01 0x0000 (some 257) []) = some .refused := by decide +kernel

/-- 41_frame_codec.md R122: the 264-byte frame. -/
theorem test_exec_frameBuild_256 :
    bytesRead (build 0x08 0x00 0x0100 none allBytes) =
      some (.ok, [0x7E, 0x00, 0x08, 0x00, 0x01, 0x00] ++ allBytes ++ [0xB9, 0x32], 264, []) := by decide +kernel

/-- FRAME.PARSE with these operands. -/
def parse (ibuf : List Byte) (cap : Nat) (check : Bool) : Exec :=
  exec .frameParse (withHost { operands ibuf 0 with cap := cap, check := check } (closed [] []))

/-- The rejected rows of 41_frame_codec.md R129 and of 95_test_vectors.md 1.3, with what `INFO` carries. -/
theorem test_exec_frameParse_errors :
    [(parse [0x02, 0x00, 0x00, 0x01, 0x00] 1 true, OutcomeCode.eShort, (0 : Byte)), (parse [] 1 true, .eShort, 0),
      (parse [0x02, 0x00, 0x00, 0x00, 0x00, 0x00] 256 true, .eShort, 2),
      (parse [0x02, 0x00, 0x00, 0x00, 0x00, 0x00] 0 true, .eShort, 1),
      (parse [0x02, 0x00, 0x01, 0x01, 0x00, 0x04, 0x01] 1 true, .eStatus, 0x01),
      (parse [0x02, 0x00, 0x05, 0x01, 0x00, 0xD8, 0x00] 1 true, .eStatus, 0x05),
      (parse [0x02, 0x00, 0x00, 0x02, 0x12, 0x34, 0x7D, 0xA6] 1 true, .eShort, 1),
      (parse [0x02, 0x00, 0x00, 0x02, 0x12, 0x54, 0x11] 256 true, .eShort, 2),
      (parse [0x02, 0x00, 0x00, 0x00, 0x12, 0x32, 0x73] 256 true, .eShort, 2)].all
      (fun v => outcomeInfo v.1 = some v.2) = true ∧
    [(parse [0x7E, 0x00, 0x00, 0x01, 0x00, 0x33, 0x31] 1 true, OutcomeCode.eHeader),
      (parse [0x02, 0x01, 0x00, 0x01, 0x00, 0x33, 0x31] 1 true, .eHeader),
      (parse [0x02, 0x00, 0x00, 0x01, 0x3E, 0xE4, 0xAD] 1 true, .eCrc),
      (parse [0x02, 0x00, 0x00, 0x01, 0xBE, 0xE4, 0xAC] 1 true, .eCrc)].all (fun v => outcome v.1 = some v.2) = true := by
  decide +kernel

/-- The accepted rows of 41_frame_codec.md R129, R125, R127, and the 262-byte reply. -/
theorem test_exec_frameParse :
    [(parse [0x02, 0x00, 0x00, 0x01, 0x3E, 0xE4, 0xAD] 1 false, [0x3E]),
      (parse [0x02, 0x00, 0x00, 0x02, 0x12, 0x34, 0x7D, 0xA6] 2 true, [0x12, 0x34]),
      (parse [0x02, 0x00, 0x00, 0x02, 0x12, 0x34, 0x00, 0x00, 0xAB, 0x29] 4 true, [0x12, 0x34]),
      (parse [0x02, 0x00, 0x00, 0x02, 0x9D, 0x5F, 0xAB, 0xCD] 2 true, [0x9D, 0x5F]),
      (parse [0x02, 0x00, 0x00, 0x01, 0x77, 0xAB, 0xCD] 1 true, [0x77]),
      (parse ([0x02, 0x00, 0x00, 0x00] ++ allBytes ++ [0x7E, 0x55]) 256 true, allBytes)].all
      (fun v => bytesRead v.1 = some (OutcomeCode.ok, v.2, v.2.length, [])) = true := by decide +kernel

/-! ### Transport Adapter: the table of 95_test_vectors.md 2.4 -/

/-- TX.WRITE_ALL of `7E 00 08` on a link with these events. -/
def sendThree (l : List LinkEvent) : Exec :=
  exec .txWriteAll (withHost (operands [0x7E, 0x00, 0x08] 0) (opened [0xAA] l))

theorem test_exec_txWriteAll :
    streams (sendThree []) = some (.ok, [0x7E, 0x00, 0x08], [0xAA]) ∧
    streams (sendThree [.ok, .fail false]) = some (.eIo, [0x7E], [0xAA]) ∧
    streams (sendThree [.ok, .fail true]) = some (.eIo, [0x7E, 0x00], [0xAA]) ∧
    outcome (exec .txWriteAll (withHost (operands [0x7E] 0) (closed [] []))) = some .refused := by decide +kernel

/-- RX.READ_EXACT of `n` bytes. -/
def readExact (n : Nat) (q : List Byte) (l : List LinkEvent) : Exec :=
  exec .rxReadExact (withHost (operands [] n) (opened q l))

theorem test_exec_rxReadExact :
    [(readExact 2 [0xAA, 0xBB, 0xCC] [], [0xAA, 0xBB], [0xCC]),
      (readExact 2 [0xAA] [.elapse 350, .arrive 0xBB], [0xAA, 0xBB], []),
      (readExact 0 [0xAA, 0xBB] [.fail false], [], [0xAA, 0xBB]), (readExact 7 (ack ++ [0xFF]) [], ack, [0xFF])].all
      (fun v => bytesRead v.1 = some (OutcomeCode.ok, v.2.1, v.2.1.length, v.2.2)) = true := by decide +kernel

/-- Silent for ever: the byte is taken and held; a failure loses it. -/
theorem test_exec_rxReadExact_short :
    (next? (readExact 2 [0xAA] [])).map (fun t => (t.phase, t.work.acc, t.chan.rxFifo)) = some (.rxWait, [0xAA], []) ∧
    streams (readExact 2 [0xAA] [.elapse 1, .fail false]) = some (.eIo, [], []) := by decide +kernel

theorem test_exec_rxReadByte :
    bytesRead (exec .rxReadByte (opened [0x0A, 0x0D] [])) = some (.ok, [0x0A], 1, [0x0D]) := by decide +kernel

theorem test_exec_rxDiscard :
    streams (exec .rxDiscard (opened [0x31, 0x32, 0x0A, 0x0D] [])) = some (.ok, [], []) ∧
    (next? (exec .rxDiscard (opened [0xAA] [.arrive 0xBB]))).map (fun t => (t.chan.rxFifo, t.chan.link)) =
      some ([], [.arrive 0xBB]) := by decide +kernel

/-- RX.READ_DEADLINE: outcome, bytes, time when it ended, and what is left in `rx_fifo`. -/
def readDeadlineOf (n tmo : Nat) (q : List Byte) (l : List LinkEvent) : Option (OutcomeCode × Nat × List Byte) :=
  (next? (exec .rxReadDeadline (withHost { operands [] n with tmo := tmo } (opened q l)))).map
    fun t => (t.result.outcome, t.chan.now, t.chan.rxFifo)

theorem test_exec_rxReadDeadline :
    [(readDeadlineOf 1 5000 [0x64] [], OutcomeCode.ok, 0, ([] : List Byte)), (readDeadlineOf 1 5000 [] [], .noData, 5000, []),
      (readDeadlineOf 1 5000 [] [.elapse 4990, .arrive 0x64], .ok, 4990, []),
      (readDeadlineOf 1 5000 [] [.elapse 5050, .arrive 0x64], .noData, 5000, []),
      (readDeadlineOf 1 5000 [] [.elapse 5000, .latePoll, .elapse 50, .arrive 0x64], .ok, 5050, []),
      (readDeadlineOf 2 300 [] [.elapse 100, .arrive 0xAA], .ePartial, 300, []),
      (readDeadlineOf 1 0 [0xAA] [], .noData, 0, [0xAA]), (readDeadlineOf 1 0 [0xAA] [.latePoll], .ok, 0, []),
      (readDeadlineOf 0 100 [0xAA] [], .refused, 0, [0xAA])].all (fun v => v.1 = some v.2) = true := by decide +kernel

/-- `TICK` of 70 ms and `TMO` of 150, by hand: a poll of 100 ms ends at the reading 140, before the deadline; the next
has to end at 210, for the reading after it, 280, is outside the window 150 to 250 (42_transport.md R147). With 101 ms
and `TMO` of 102 the only reading in the window is 202. -/
theorem test_coarse_tick :
    (let s := withHost { operands [] 1 with tmo := 150 } (opened [] [])
     (next? (exec .rxReadDeadline { s with chan := { s.chan with tick := 69 } })).map
       (fun t => (t.result.outcome, t.chan.now))) = some (.noData, 210) ∧
    (let s := withHost { operands [] 1 with tmo := 102 } (opened [] [])
     (next? (exec .rxReadDeadline { s with chan := { s.chan with tick := 100 } })).map
       (fun t => (t.result.outcome, t.chan.now))) = some (.noData, 202) := by decide +kernel

/-- A byte that cuts in (42_transport.md R150): between two sent bytes, and into a read of a queued byte. -/
theorem test_cutIn :
    streams (sendThree [.ok, .cutIn 0xBB, .fail false]) = some (.eIo, [0x7E], [0xAA, 0xBB]) ∧
    bytesRead (readExact 1 [0xAA] [.cutIn 0xBB]) = some (.ok, [0xAA], 1, [0xBB]) := by decide +kernel

/-- With `RX_DEPTH = 1` it meets the full queue in the middle of the read (93_implementation_defined.md U13). -/
theorem test_cutIn_full :
    let c : Channel := { Channel.reset with rxFifo := [0xAA], rxDepth := some 1 }
    rxByte { c with link := [.cutIn 0xBB] } = takeByte { pushRx 0xBB { c with link := [.cutIn 0xBB] } with link := [] } ∧
    (pushRx 0xBB c).lost = 1 := by
  refine ⟨rfl, ?_⟩
  dsimp only [pushRx, Channel.reset]
  rw [if_neg (by decide)]
  cases Config.overflowFate 0 <;> rfl

/-! ### Command/Reply Engine: the table of 95_test_vectors.md 2.5 -/

/-- CMD.WRITE answered by these bytes. -/
def write (addr : Word) (payload reply : List Byte) : Exec :=
  exec .cmdWrite (withHost { operands payload 0 with addr := addr } (opened [] (sends reply)))

theorem test_exec_cmdWrite :
    streams (write 0x000A [0x3E] ack) = some (.ok, [0x7E, 0x00, 0x08, 0x01, 0x00, 0x0A, 0x3E, 0x4C, 0xCF], []) ∧
    streams (write 0x000A [0x3E] [0x02, 0x00, 0x00, 0x01, 0x5A, 0xC8, 0x8E]) =
      some (.ok, [0x7E, 0x00, 0x08, 0x01, 0x00, 0x0A, 0x3E, 0x4C, 0xCF], []) ∧
    streams (write 0x1234 [0xDE, 0xAD] ack) = some (.ok, [0x7E, 0x00, 0x08, 0x02, 0x12, 0x34, 0xDE, 0xAD, 0xF4, 0x04], []) ∧
    streams (write 0x0000 [] []) = some (.refused, [], []) := by decide +kernel

theorem test_exec_cmdWrite_errors :
    outcomeInfo (write 0x0020 [0x01] [0x02, 0x00, 0x03, 0x01, 0x00, 0x6A, 0x61]) = some (.eStatus, 0x03) ∧
    streams (write 0x0020 [0x01] [0x02, 0x00, 0x00, 0x01, 0x00, 0x33, 0x30]) =
      some (.eCrc, [0x7E, 0x00, 0x08, 0x01, 0x00, 0x20, 0x01, 0x62, 0x5E], []) ∧
    outcomeInfo (write 0x0020 [0x01] [0x02, 0x00, 0x00, 0x02, 0x00, 0x66, 0x62]) = some (.eShort, 1) ∧
    (next? (write 0x0020 [0x01] (ack.take 6))).map (fun t => (t.phase, t.work.acc)) = some (.rxWait, ack.take 6) := by
  decide +kernel

/-- CMD.READ answered by these bytes. -/
def read (addr : Word) (n : Nat) (reply : List Byte) : Exec :=
  exec .cmdRead (withHost { operands [] n with addr := addr } (opened [] (sends reply)))

theorem test_exec_cmdRead :
    [(read 0x000A 1 [0x02, 0x00, 0x00, 0x01, 0x3E, 0xE4, 0xAC], [0x3E]),
      (read 0x0010 4 [0x02, 0x00, 0x00, 0x02, 0x12, 0x34, 0x00, 0x00, 0xAB, 0x29], [0x12, 0x34]),
      (read 0x0000 256 ([0x02, 0x00, 0x00, 0x00] ++ allBytes ++ [0x7E, 0x55]), allBytes)].all
      (fun v => bytesRead v.1 = some (OutcomeCode.ok, v.2, v.2.length, [])) = true ∧
    streams (read 0x0010 4 [0x02, 0x00, 0x00, 0x02, 0x12, 0x34, 0x00, 0x00, 0xAB, 0x29]) =
      some (.ok, [0x7E, 0x00, 0x07, 0x01, 0x00, 0x10, 0x04, 0x52, 0x97], []) := by decide +kernel

theorem test_exec_cmdRead_errors :
    (next? (read 0x0030 1 [0x02, 0x00, 0x00, 0x02, 0x01, 0x02, 0x7D, 0x13])).map
      (fun t => (t.result.outcome, t.chan.tx, pendingRx t.chan)) =
      some (.eCrc, [0x7E, 0x00, 0x07, 0x01, 0x00, 0x30, 0x01, 0x04, 0xD4], [0x13]) ∧
    streams (read 0x0000 0 []) = some (.refused, [], []) ∧ streams (read 0x0000 257 []) = some (.refused, [], []) := by
  decide +kernel

/-! ### Scan Payload Decoder: 95_test_vectors.md 1.4, 2.6, 2.7 -/

/-- SCAN.READ with these bytes queued. -/
def scan (q : List Byte) : Exec := exec .scanRead (opened q [])

/-- The bytes of "123456789012". -/
def ean : List Byte := [0x31, 0x32, 0x33, 0x34, 0x35, 0x36, 0x37, 0x38, 0x39, 0x30, 0x31, 0x32]

theorem test_exec_scanRead :
    scanned (scan (0x64 :: ean ++ [0x0A, 0x0D])) = some (.ok, .linear 0x64 .ean13 ean, []) ∧
    scanned (scan [0x51, 0x41, 0x42, 0x43, 0x0A, 0x0A, 0x44, 0x45, 0x46, 0x0A, 0x0D]) =
      some (.ok, .matrix 0x51 .qr [[0x41, 0x42, 0x43], [0x44, 0x45, 0x46]], []) ∧
    scanned (scan [0x51, 0x00, 0x7E, 0x02, 0x0A, 0xFF, 0x0D]) = some (.ok, .matrix 0x51 .qr [[0x00, 0x7E, 0x02], [0xFF]], []) ∧
    scanned (scan [0x64, 0x41, 0x0D, 0x42, 0x0D]) = some (.ok, .linear 0x64 .ean13 [0x41], [0x42, 0x0D]) ∧
    scanned (scan [0x51, 0x41, 0x42, 0x43, 0x0D]) = some (.ok, .matrix 0x51 .qr [[0x41, 0x42, 0x43]], []) := by decide +kernel

theorem test_exec_scanRead_others :
    streams (scan [0x00, 0x0D]) = some (.noResult, [], [0x0D]) ∧ streams (scan [0x51, 0x0A, 0x0D]) = some (.noResult, [], []) ∧
    streams (scan [0x99, 0x0A, 0x0A, 0x0D]) = some (.noResult, [], []) ∧
    streams (scan [0x64, 0x0D, 0x0A]) = some (.noResult, [], [0x0A]) ∧
    outcomeInfo (scan [0x99, 0x41, 0x0A, 0x0D]) = some (.eUnsupported, 0x99) ∧
    outcomeInfo (scan [0x0A, 0x41, 0x0D]) = some (.eUnsupported, 0x0A) ∧
    (next? (scan [])).map (fun t => (t.result.outcome, t.chan.now)) = some (.noResult, 5000) ∧
    (next? (scan [0x64, 0x31, 0x32])).map (fun t => (t.phase, t.work.cur)) = some (.scanLines, [0x31, 0x32]) := by decide +kernel

/-- Which of two lines a linear symbology reports is the parameter `LINEAR_SELECT`'s choice (44_scan_decoder.md R183). -/
theorem test_linearSelect :
    (let s := opened [0x64, 0x41, 0x0A, 0x42, 0x0D] []
     scanned (exec .scanRead { s with params := { params with linearTable := [([[0x41], [0x42]], 1)] } })) =
      some (.ok, .linear 0x64 .ean13 [0x42], []) := by decide +kernel

/-- SCAN.SET_TIMEOUT answered by these bytes: outcome, TX stream, `SCAN_TIMEOUT`. -/
def setTimeout (tmo : Nat) (reply : List Byte) : Option (OutcomeCode × List Byte × Nat) :=
  (next? (exec .scanSetTimeout (withHost { operands [] 0 with tmo := tmo } (opened [] (sends reply))))).map
    fun t => (t.result.outcome, t.chan.tx, t.scanTimeout)

/-- 44_scan_decoder.md R187 with the frames of 95_test_vectors.md 2.7. -/
theorem test_exec_scanSetTimeout :
    setTimeout 1 ack = some (.ok, [0x7E, 0x00, 0x08, 0x01, 0x10, 0x02, 0x00, 0x51, 0x98], 1) ∧
    setTimeout 199 ack = some (.ok, [0x7E, 0x00, 0x08, 0x01, 0x10, 0x02, 0x01, 0x41, 0xB9], 199) ∧
    setTimeout 25499 ack = some (.ok, [0x7E, 0x00, 0x08, 0x01, 0x10, 0x02, 0xFE, 0x5F, 0x49], 25499) ∧
    setTimeout 25500 ack = some (.ok, [0x7E, 0x00, 0x08, 0x01, 0x10, 0x02, 0xFF, 0x4F, 0x68], 25500) ∧
    setTimeout 100 [0x02, 0x00, 0x07, 0x01, 0x00, 0xB6, 0xA1] =
      some (.eStatus, [0x7E, 0x00, 0x08, 0x01, 0x10, 0x02, 0x01, 0x41, 0xB9], 5000) := by decide +kernel

theorem test_exec_scanSetTimeout_range :
    outcomeInfo (exec .scanSetTimeout (opened [] [])) = some (.eRange, 0) ∧
    outcomeInfo (exec .scanSetTimeout (withHost { operands [] 0 with tmo := 25501 } (opened [] []))) = some (.eRange, 1) := by
  decide +kernel

/-! ### Sessions: 95_test_vectors.md 2.8 and program P1 -/

/-- The three stale bytes of program P1 are dropped; the register is 5000 afterwards. -/
theorem test_exec_sessionOpen :
    (next? (exec .sessionOpen { closed [0xFF, 0x00, 0x13] (sends ack) with scanTimeout := 7 })).map
      (fun t => (t.result.outcome, t.chan.tx, t.chan.rxFifo, t.session, t.scanTimeout)) =
      some (.ok, [0x7E, 0x00, 0x08, 0x01, 0x10, 0x03, 0xA5, 0x87, 0xE6], [], .opened, 5000) ∧
    outcome (exec .sessionOpen (opened [] [])) = some .refused ∧
    (next? (exec .sessionOpen { closed [] (sends [0x02, 0x00, 0x01, 0x01, 0x00, 0x04, 0x01]) with scanTimeout := 7 })).map
      (fun t => (t.result.outcome, t.result.info, t.session, t.scanTimeout)) = some (.eStatus, 0x01, .closed, 7) := by decide +kernel

theorem test_exec_sessionClose :
    (next? (exec .sessionClose (opened [0x31] []))).map (fun t => (t.result.outcome, t.session, t.chan.rxFifo, t.chan.tx)) =
      some (.ok, .closed, [0x31], []) ∧
    outcome (exec .sessionClose (closed [] [])) = some .refused := by decide +kernel

/-! ### Wire formats -/

/-- The frames of source vectors S4 and S2 leave as they stand, wrong checksum or not. -/
theorem test_exec_wireWrite :
    streams (exec (.wireWrite 0x000A [0x3E] 0x4CCF) (opened [0x31] [])) =
      some (.ok, [0x7E, 0x00, 0x08, 0x01, 0x00, 0x0A, 0x3E, 0x4C, 0xCF], [0x31]) := by decide +kernel
theorem test_exec_wireRead :
    streams (exec (.wireRead 0x000A 256 0x0000) (opened [] [])) =
      some (.ok, [0x7E, 0x00, 0x07, 0x01, 0x00, 0x0A, 0x00, 0x00, 0x00], []) := by decide +kernel
theorem test_exec_wirePersist :
    streams (exec (.wirePersist [0x01, 0x02]) (opened [] [])) = some (.ok, [0x7E, 0x00, 0x09, 0x01, 0x02], []) := by decide +kernel

/-- The acknowledgement of source vector S1 joins the tail of the queue. -/
theorem test_exec_wireReply :
    (next? (exec (.wireReply 0x00 [0x00] 0x3331) (closed [0xFF] []))).map (fun t => t.chan.rxFifo) = some (0xFF :: ack) := by
  decide +kernel

/-! ### The step -/

/-- Program P2 step 3: SCAN.START's frame, seven bytes read, the scan payload left queued. -/
theorem test_step_scanStart :
    (next? (step { opened [] (sends (ack ++ [0x64, 0x31])) with requests := [scanStart Operands.reset params] })).map
      (fun t => (t.result.outcome, t.chan.tx, pendingRx t.chan, t.requests)) =
      some (.ok, [0x7E, 0x00, 0x08, 0x01, 0x10, 0x01, 0x01, 0x14, 0xEA], [0x64, 0x31], []) := by decide +kernel

/-- The phases in which the states of a run stand after each of `k` steps, from `s` on. -/
def phasesSeen : Nat → State → List Phase
  | 0, _ => []
  | k + 1, s => (stateOf (step s)).phase :: phasesSeen k (stateOf (step s))

/-- The host asks for these operand registers' operation phase by phase. -/
def phased (o : Machine.Operands) (s : State) : State := { s with requests := [.phased o] }

/-- The phases of 10_state.md R24 in the order of 43_command_reply.md R160 and 44_scan_decoder.md R181. -/
theorem test_phases :
    phasesSeen 5 (phased { operands [0x3E] 0 with op := 0x19 } (opened [] (sends ack))) =
      [.build, .tx, .rxWait, .parse, .idle] ∧
    phasesSeen 3 (phased { Operands.reset with op := 0x1B } (opened [0x51, 0x41, 0x0D] [])) =
      [.scanFirst, .scanLines, .idle] := by decide +kernel

/-- Each phase of CMD.WRITE has done its own work when the next is entered (43_command_reply.md R160). -/
theorem test_phase_work :
    (let u := stateOf (step (phased { operands [0x3E] 0 with op := 0x19, addr := 0x000A } (opened [] (sends ack))))
     let v := stateOf (step u)
     let w := stateOf (step v)
     u.chan.tx = [] ∧ v.work.frame = [0x7E, 0x00, 0x08, 0x01, 0x00, 0x0A, 0x3E, 0x4C, 0xCF] ∧ v.chan.tx = [] ∧
       w.chan.tx = v.work.frame ∧ w.work.acc = [] ∧ (stateOf (step w)).work.acc = ack) := by decide +kernel

/-- A second operation gets no step, and a finite queue with a finite line faults as declared. -/
theorem test_refusal_and_faults :
    (match exec .crcCompute { opened [] [] with phase := .rxWait } with | .refused .engineBusy => true | _ => false) = true ∧
    (match step { opened [] [] with requests := [.wire [0x55]] } with | .refused .unknownWireFormat => true | _ => false) = true ∧
    (match exec .scanRead { opened [0x51, 0x41, 0x42] [] with params := { params with lineCap := some 1 } } with
      | .fault .lineOverflow => true | _ => false) = true ∧
    (match exec .scanRead { opened [0x51, 0x41, 0x0A, 0x42, 0x0A] [] with params := { params with linesCap := some 1 } } with
      | .fault .linesOverflow => true | _ => false) = true := by decide +kernel

/-! ### Witnesses: concrete states and operands that meet the hypotheses of the statements, clause by clause -/

/-- `IBUF`, `N` and `TMO` in an open session. -/
def at' (ibuf : List Byte) (n tmo : Nat) (q : List Byte) (l : List LinkEvent) : State :=
  withHost { operands ibuf n with tmo := tmo } (opened q l)

theorem witness_CrcComputeWritesCrcout : (opened [] []).phase = .idle := by decide +kernel
theorem witness_CrcVerifyComparesUnlessSentinel :
    (opened [] []).phase = .idle ∧ crc16 [0xFF, 0xFF, 0xFF] ≠ 0xABCD ∧ crc16 [0x00, 0x00, 0x01, 0x3E] = 0xE4AC ∧
    (0xE4AD : Word) ≠ 0xABCD ∧ crc16 [0x00, 0x00, 0x01, 0x3E] ≠ 0xE4AD := by decide +kernel
theorem witness_CrcIsLinear : ([0x12, 0x34, 0x56] : List Byte).length = ([0xAB, 0xCD, 0xEF] : List Byte).length := by decide
theorem witness_CrcDetectsEverySingleBitFlip : (0 : Nat) < 8 ∧ (7 : Nat) < 8 := by decide
/-- `RLEN` at both ends of its range, no `RLEN`, and the two values beside the range. -/
theorem witness_FrameBuildLaysOutCommandFrame :
    (∀ n ∈ [1, 256], 1 ≤ n ∧ n ≤ 256) ∧ (Operands.reset.rlenEn = true → False) ∧ (∀ n ∈ [0, 257], ¬ (1 ≤ n ∧ n ≤ 256)) := by
  decide
/-- The definitions the statement names, for the 6-byte buffer at the boundary of test (a). -/
theorem witness_FrameParseTestsInOrder :
    ∃ (s : State) (buf : List Byte) (len n rx : Nat), s.phase = .idle ∧ buf = s.host.ibuf ∧ len = buf.length ∧
      rx = (buf.getD (len - 2) 0x00).toNat * 256 + (buf.getD (len - 1) 0x00).toNat ∧
      n = (if buf.getD 3 0x00 = 0x00 then 256 else (buf.getD 3 0x00).toNat) ∧ len = 6 :=
  ⟨at' [0x02, 0x00, 0x00, 0x00, 0x00, 0x00] 0 0 [] [], [0x02, 0x00, 0x00, 0x00, 0x00, 0x00], 6, 256, 0,
    rfl, rfl, rfl, by decide, by decide, rfl⟩
/-- A reply of one byte and one of 256 bytes, with wrong trailers. -/
theorem witness_SuppressedParseIgnoresTrailer :
    (at' [] 0 0 [] []).host.check = false ∧
    [0x02, 0x00, 0x00, 0x01, 0x3E, 0xE4, 0xAD] = [0x02, 0x00, 0x00, encLen 1] ++ [(0x3E : Byte)] ++ [0xE4, 0xAD] ∧
    1 ≤ allBytes.length ∧ allBytes.length ≤ 256 ∧ encLen allBytes.length = 0x00 := by decide +kernel
theorem witness_SentinelTrailerPassesParser :
    [0x02, 0x00, 0x00, 0x01, 0x77, 0xAB, 0xCD] = [0x02, 0x00, 0x00, encLen 1] ++ [(0x77 : Byte)] ++ [0xAB, 0xCD] ∧
    ([(0x77 : Byte)].length ≤ 1) := by decide
/-- The clauses at their boundaries: 1 and 256 payload bytes, 5 and 6 bytes, bits 0 and 15 of the checksum. -/
theorem witness_ReplyFramesRoundTrip :
    replyBytes 0x00 [0x3E] = [0x02, 0x00, 0x00, 0x01, 0x3E, 0xE4, 0xAC] ∧
    replyBytes 0x00 allBytes = [0x02, 0x00, 0x00, 0x00] ++ allBytes ++ [0x7E, 0x55] ∧
    ([0x02, 0x00, 0x00, 0x01, 0x3E] : List Byte).length < 6 ∧
    ([0x03, 0x00, 0x00, 0x00, 0x00, 0x00] : List Byte).take 2 ≠ [0x02, 0x00] ∧
    ([0x02, 0x00, 0x01, 0x00, 0x00, 0x00] : List Byte).getD 2 0x00 ≠ 0x00 ∧
    (∀ k ∈ [0, 15], crc16 [0x00, 0x01, 0x3E] ^^^ (1#16 <<< k) ≠ 0xABCD) := by decide +kernel
theorem witness_PayloadBitFlipIsMismatch :
    crc16 ([0x00, encLen 1] ++ [0x3E]) = 0xE4AC ∧ (0xE4AC : Word) ≠ 0xABCD ∧ (7 : Nat) < 8 ∧
    [0x02, 0x00, 0x00, encLen 1] ++ [0x3E ^^^ (1#8 <<< 7)] ++ [hi 0xE4AC, lo 0xE4AC] = [0x02, 0x00, 0x00, 0x01, 0xBE, 0xE4, 0xAC] := by
  decide +kernel
theorem witness_TxWriteAllHandsOverEveryByte :
    (closed [] []).session ≠ .opened ∧ (opened [] []).session = .opened ∧ noFail (opened [] [.ok]).chan.link = true ∧
    (opened [] [.ok]).chan.rxDepth = none := by decide +kernel
/-- A failure at the last byte, answers for all bytes with a failure after them, no answer left, and a byte that
cuts in before the last byte of three, or before the first of a read. -/
theorem witness_TransmissionFollowsLinkAnswers :
    (at' [0x7E, 0x00, 0x08] 0 0 [] [.ok, .ok, .fail true]).chan.link = List.replicate 2 .ok ++ .fail true :: [] ∧
    (at' [0x7E, 0x00, 0x08] 0 0 [] [.ok, .ok, .ok, .fail true]).chan.link = List.replicate 3 .ok ++ [.fail true] ∧
    (∀ e ∈ ([LinkEvent.elapse 1].head?), isAnswer e = false ∧ isCutIn e = false) ∧
    (at' [0x7E, 0x00, 0x08] 0 0 [] [.ok, .ok, .cutIn 0xBB]).chan.link = List.replicate 2 .ok ++ .cutIn 0xBB :: [] ∧
    2 < (at' [0x7E, 0x00, 0x08] 0 0 [] []).host.ibuf.length ∧ (at' [] 1 0 [0xAA] [.cutIn 0xBB]).chan.link = .cutIn 0xBB :: [] ∧
    1 ≤ (at' [] 1 0 [0xAA] []).host.n := by decide +kernel
/-- `N` of 0, just as many bytes as there are, one more, and a failure. -/
theorem witness_ReadExactTakesOldestBytes :
    (at' [] 0 0 [] []).host.n = 0 ∧ calm (at' [] 2 0 [0xAA] [.arrive 0xBB]).chan = true ∧
    (pendingRx (at' [] 2 0 [0xAA] [.arrive 0xBB]).chan).length = 2 ∧
    (pendingRx (at' [] 3 0 [0xAA] [.arrive 0xBB]).chan).length < 3 ∧
    (at' [] 2 0 [0xAA] [.elapse 1, .fail false]).chan.link = [.elapse 1] ++ .fail false :: [] ∧
    (at' [] 2 0 [0xAA] [.elapse 1, .fail false]).chan.rxDepth = none ∧
    noFail [.elapse 1] = true ∧ ([0xAA] ++ arrivals [.elapse 1]).length < 2 := by decide +kernel
theorem witness_ReadByteIsReadExactOfOne :
    (at' [] 1 0 [] []).host.n = 1 ∧ pendingRx (at' [] 1 0 [] [.arrive 0x0A]).chan = 0x0A :: [] ∧
    pendingRx (at' [] 1 0 [] []).chan = [] ∧ calm (at' [] 1 0 [] [.arrive 0x0A]).chan = true ∧
    (at' [] 1 0 [0x0A] [.fail false]).chan.link = .fail false :: [] := by decide +kernel
theorem witness_DiscardDropsQueuedBytes :
    (∀ e ∈ (opened [0x0A] []).chan.link.head?, isFail e = false) ∧ (opened [0x0A] [.fail false]).chan.link = .fail false :: [] := by
  decide +kernel
/-- The two refusals, an admitted read, and a byte one tick of one millisecond before the deadline. -/
theorem witness_DeadlineReadEndsInItsWindow :
    (closed [] []).session ≠ .opened ∧ (at' [] 0 0 [] []).host.n = 0 ∧ (at' [] 1 0 [] []).session = .opened ∧
    1 ≤ (at' [] 1 0 [] []).host.n ∧
    (let s := at' [] 1 100 [] [.elapse 60, .elapse 39, .arrive 0x64]
     s.host.n = 1 ∧ s.chan.rxDepth = none ∧ s.chan.rxFifo = [] ∧
      s.chan.link = [60, 39].map .elapse ++ .arrive 0x64 :: [] ∧
      [60, 39].sum * tickMs s.chan < s.host.tmo) := by decide +kernel
theorem witness_DeadlineReadTakesQueuedBytesAtOnce :
    (at' [] 1 1 [0x64] []).phase = .idle ∧ (at' [] 1 1 [0x64] []).session = .opened ∧ calm (at' [] 1 1 [0x64] []).chan = true ∧
    1 ≤ (at' [] 1 1 [0x64] []).host.n ∧ 1 ≤ (at' [] 1 1 [0x64] []).host.tmo ∧
    (at' [] 1 1 [0x64] []).host.n ≤ (at' [] 1 1 [0x64] []).chan.rxFifo.length := by decide +kernel
/-- With nothing queued, and with one byte of two. -/
theorem witness_SilentDeadlineReadReportsWhatItHas :
    (at' [] 1 1 [] []).chan.link = [] ∧ 1 ≤ (at' [] 1 1 [] []).host.tmo ∧
    (at' [] 1 1 [] []).chan.rxFifo.length < (at' [] 1 1 [] []).host.n ∧
    (at' [] 2 300 [0xAA] []).chan.rxFifo.length < (at' [] 2 300 [0xAA] []).host.n ∧ (at' [] 2 300 [0xAA] []).chan.rxFifo ≠ [] := by
  decide +kernel
theorem witness_ZeroDeadlineAdmitsBothOrders :
    (at' [] 1 0 [0xAA] []).session = .opened ∧ (at' [] 1 0 [0xAA] []).host.n = 1 ∧ (at' [] 1 0 [0xAA] []).host.tmo = 0 ∧
    (at' [] 1 0 [0xAA] []).chan.rxFifo = 0xAA :: [] ∧ (at' [] 1 0 [0xAA] [.latePoll]).chan.link = [.latePoll] := by decide +kernel
/-- Payloads of 1 and 256 bytes, the two refused lengths, seven bytes and six, and a failure. -/
theorem witness_CmdWriteValidatesAcknowledgement :
    (at' [] 0 0 [] []).host.ibuf = [] ∧ 256 < (at' (0x00 :: allBytes) 0 0 [] []).host.ibuf.length ∧
    (at' [0x3E] 0 0 [] []).host.ibuf ≠ [] ∧ (at' allBytes 0 0 [] []).host.ibuf.length = 256 ∧
    calm (at' [0x3E] 0 0 [] (sends ack)).chan = true ∧ ack.length = 7 ∧
    pendingRx (at' [0x3E] 0 0 [] (sends ack)).chan = ack ++ [] ∧ ack = replyBytes 0x00 [0x00] ∧
    (pendingRx (at' [0x3E] 0 0 [] (sends (ack.take 6))).chan).length < 7 ∧
    (at' [0x3E] 0 0 [] [.ok, .fail false]).chan.link = [.ok] ++ .fail false :: [] ∧ noFail [.ok] = true ∧
    (at' [0x3E] 0 0 [] [.ok, .fail false]).chan.rxDepth = none ∧ (([] : List Byte) ++ arrivals [.ok]).length < 7 := by decide +kernel
/-- `N` of 1 and 256, the two refused ones, `N + 6` bytes and one less, and a failure. -/
theorem witness_CmdReadExtractsPayload :
    (at' [] 0 0 [] []).host.n = 0 ∧ 256 < (at' [] 257 0 [] []).host.n ∧ 1 ≤ (at' [] 256 0 [] []).host.n ∧
    calm (at' [] 1 0 [] (sends (replyBytes 0x00 [0x3E]))).chan = true ∧ (replyBytes 0x00 [0x3E]).length = 1 + 6 ∧
    pendingRx (at' [] 1 0 [] (sends (replyBytes 0x00 [0x3E]))).chan = replyBytes 0x00 [0x3E] ++ [] ∧
    (pendingRx (at' [] 1 0 [] (sends (ack.take 6))).chan).length < 1 + 6 ∧
    (at' [] 1 0 [] [.fail true]).chan.link = [] ++ .fail true :: [] ∧ noFail [] = true ∧
    (at' [] 1 0 [] [.fail true]).chan.rxDepth = none ∧ (([] : List Byte) ++ arrivals []).length < 1 + 6 := by decide +kernel
theorem witness_CmdReadReturnsWholePayload :
    calm (at' [] 256 0 (replyBytes 0x00 allBytes ++ [0xFF]) []).chan = true ∧ 1 ≤ allBytes.length ∧ allBytes.length ≤ 256 ∧
    (at' [] 256 0 (replyBytes 0x00 allBytes ++ [0xFF]) []).host.n = allBytes.length ∧
    pendingRx (at' [] 256 0 (replyBytes 0x00 allBytes ++ [0xFF]) []).chan = replyBytes 0x00 allBytes ++ [0xFF] := by decide +kernel
/-- One state for each of the three operations, the failure at the first and at the last byte of its frame. -/
theorem witness_FailedTransmitReadsNothing :
    0 < (writeBytes 0x0000 [0x3E]).length ∧ 8 < (writeBytes 0x0000 [0x3E]).length ∧
    (at' [0x3E] 0 0 [] (List.replicate 8 .ok ++ [.fail true])).chan.link = List.replicate 8 .ok ++ .fail true :: [] ∧
    1 ≤ (at' [0x3E] 0 0 [] []).host.ibuf.length ∧ 1 ≤ (at' [] 256 0 [] []).host.n ∧ (at' [] 256 0 [] []).host.n ≤ 256 ∧
    1 ≤ (at' [] 0 25500 [] []).host.tmo ∧ (at' [] 0 25500 [] []).host.tmo ≤ 25500 := by decide +kernel

/-- CMD.READ of one byte on a link that holds the reply: each of the host's four steps answers, the read one ends. -/
theorem witness_CmdReadIsItsFourSteps : ∃ s u₁ u₂ u₃ u₄ : State, s.phase = .idle ∧ s.session = .opened ∧ calm s.chan = true ∧
    1 ≤ s.host.n ∧ s.host.n ≤ 256 ∧
    exec .frameBuild { s with host := { s.host with ft := 0x07, len := 0x01, rlenEn := true, rlen := s.host.n, ibuf := [] } } =
      .next u₁ ∧
    exec .txWriteAll { u₁ with host := { u₁.host with ibuf := u₁.result.obuf } } = .next u₂ ∧
    exec .rxReadExact { u₂ with host := { u₂.host with n := s.host.n + 6 } } = .next u₃ ∧ u₃.phase = .idle ∧
    exec .frameParse { u₃ with host := { u₃.host with ibuf := u₃.result.obuf, cap := s.host.n, check := true } } = .next u₄ ∧
    u₄.result.outcome = .ok :=
  ⟨at' [] 1 0 [] (sends (replyBytes 0x00 [0x3E])), _, _, _, _, rfl, rfl, by decide +kernel, by decide +kernel, by decide +kernel,
    eq_next (by decide +kernel), eq_next (by decide +kernel), eq_next (by decide +kernel), by decide +kernel,
    eq_next (by decide +kernel), by decide +kernel⟩

/-- CMD.WRITE of one byte, the same. -/
theorem witness_CmdWriteIsItsFourSteps : ∃ s u₁ u₂ u₃ u₄ : State, s.phase = .idle ∧ s.session = .opened ∧ calm s.chan = true ∧
    s.host.ibuf ≠ [] ∧ s.host.ibuf.length ≤ 256 ∧
    exec .frameBuild { s with host := { s.host with ft := 0x08, len := encLen s.host.ibuf.length, rlenEn := false } } = .next u₁ ∧
    exec .txWriteAll { u₁ with host := { u₁.host with ibuf := u₁.result.obuf } } = .next u₂ ∧
    exec .rxReadExact { u₂ with host := { u₂.host with n := 7 } } = .next u₃ ∧ u₃.phase = .idle ∧
    exec .frameParse { u₃ with host := { u₃.host with ibuf := u₃.result.obuf, cap := 1, check := true } } = .next u₄ ∧
    u₄.result.outcome = .ok :=
  ⟨at' [0x3E] 0 0 [] (sends ack), _, _, _, _, rfl, rfl, by decide +kernel, by decide +kernel, by decide +kernel,
    eq_next (by decide +kernel), eq_next (by decide +kernel), eq_next (by decide +kernel), by decide +kernel,
    eq_next (by decide +kernel), by decide +kernel⟩

/-- With six bytes and with seven. -/
theorem witness_PseudoOperationsAreTheirCommands :
    (opened [] []).session = .opened ∧ calm (opened [] (sends ack)).chan = true ∧
    ({ opened [] (sends ack) with requests := [factoryReset Operands.reset] } : State).requests =
      factoryReset Operands.reset :: [] ∧ (pendingRx (opened [] (sends ack)).chan).length = 7 ∧
    (pendingRx (opened [] (sends (ack.take 6))).chan).length = 6 := by decide +kernel

/-- The state a CMD.WRITE leaves that has got six bytes of seven. -/
def suspended : State := stateOf (exec .cmdWrite (at' [0x3E] 0 0 [] (sends (ack.take 6))))

theorem witness_ShortReplyHangs :
    suspended.phase = .rxWait ∧ suspended.work.job = .writeAck .done ∧ suspended.requests = [] ∧ calm suspended.chan = true ∧
    suspended.work.acc.length + (pendingRx suspended.chan).length < jobBytes suspended.work.job ∧
    suspended.chan.rxFifo = [] ∧ suspended.chan.link = [] ∧
    (let c := { suspended.chan with link := [.elapse 1, .fail false] }
     c.rxDepth = none ∧ c.link = [.elapse 1] ++ .fail false :: [] ∧ noFail [.elapse 1] = true ∧
      suspended.work.acc.length + (c.rxFifo ++ arrivals [.elapse 1]).length < jobBytes suspended.work.job) := by decide +kernel

/-- CMD.WRITE cut after six bytes of its reply, the seventh in the second part, and a byte that cuts in after it; and
whole, to be run phase by phase. -/
theorem witness_WaitingIsNotSeenInTheResult :
    let s := at' [0x3E] 0 0 [] (sends ack ++ [.cutIn 0xFF])
    s.phase = .idle ∧ calm s.chan = true ∧ s.chan.link = sends (ack.take 6) ++ [.arrive 0x31, .cutIn 0xFF] ∧
      (∀ e ∈ [LinkEvent.arrive 0x31, .cutIn 0xFF], isAnswer e = false) ∧
      (next? (exec .cmdWrite { s with chan := { s.chan with link := sends (ack.take 6) } })).map (fun u => u.phase) =
        some .rxWait ∧ s.requests = [] ∧ outcome (exec .cmdWrite s) = some .ok := by decide +kernel
theorem witness_EngineFramesAreWireFrames :
    1 ≤ ([0x3E] : List Byte).length ∧ allBytes.length ≤ 256 ∧ (1 : Nat) ≤ 1 ∧ (256 : Nat) ≤ 256 := by decide +kernel

/-- A payload with an empty line, and one whose lines are all empty. -/
theorem witness_ScanReadParsesGrammar :
    let s := opened [0x51, 0x41] (sends [0x0A, 0x0A, 0x42, 0x0D, 0xFF])
    calm s.chan = true ∧ s.params.lineCap = none ∧ s.params.linesCap = none ∧ 1 ≤ s.scanTimeout ∧
      s.chan.rxFifo = 0x51 :: [0x41] ∧ (∀ line ∈ [[0x41], []], line.all dataByte = true) ∧
      pendingRx s.chan = 0x51 :: (scanBody [[0x41], []] [0x42] ++ [0xFF]) ∧
      ([[0x41], [], [0x42]] : List (List Byte)).filter (· ≠ []) = [[0x41], [0x42]] ∧
      pendingRx (opened [0x51, 0x0D] []).chan = 0x51 :: (scanBody [] [] ++ []) := by decide +kernel

/-- A SCAN.READ that has got "AB" and waits. -/
def suspendedScan : State := stateOf (exec .scanRead (opened [0x51, 0x41, 0x0A, 0x42] []))

theorem witness_SuspendedScanReadGoesOn :
    let s := { suspendedScan with chan := { suspendedScan.chan with link := sends [0x43, 0x0D, 0xFF] } }
    s.phase = .scanLines ∧ s.work.job = .scanLines ∧ s.requests = [] ∧ calm s.chan = true ∧ s.params.lineCap = none ∧
      s.params.linesCap = none ∧ s.work.cur = [0x42] ∧ s.work.lines = [[0x41]] ∧
      pendingRx s.chan = scanBody [] [0x43] ++ [0xFF] ∧ [] ++ [[(0x43 : Byte)]] = [0x43] :: [] := by decide +kernel

/-- The deadline read ends with 0x00, with nothing, with a code that came late, and with a failure. -/
theorem witness_ScanReadFirstByteUnderDeadline :
    [(opened [0x00] [], OutcomeCode.ok), (opened [] [], .noData), (opened [] [.elapse 4999, .arrive 0x51, .arrive 0x0D], .ok),
      (opened [] [.fail false], .eIo)].all
      (fun v => outcome (exec .rxReadDeadline { v.1 with host := { v.1.host with n := 1, tmo := v.1.scanTimeout } }) = some v.2) =
      true ∧
    (let s := opened [] [.elapse 4999, .arrive 0x51, .arrive 0x0D]
     let u := stateOf (exec .rxReadDeadline { s with host := { s.host with n := 1, tmo := s.scanTimeout } })
     u.result.obuf = [0x51] ∧ calm u.chan = true ∧ pendingRx u.chan = scanBody [] [] ++ []) ∧
    (let s := opened [0x51, 0x41] [.arrive 0x42, .fail false]
     let u := stateOf (exec .rxReadDeadline { s with host := { s.host with n := 1, tmo := s.scanTimeout } })
     u.result.outcome = .ok ∧ u.result.obuf = [0x51] ∧ u.chan.rxDepth = none ∧ u.chan.link = [.arrive 0x42] ++ .fail false :: [] ∧
      noFail [.arrive 0x42] = true ∧ (∀ b ∈ u.chan.rxFifo ++ arrivals [.arrive 0x42], b ≠ 0x0D)) := by decide +kernel
theorem witness_ScanWithoutCarriageReturnHangs :
    let s := opened [0x0D] [.arrive 0x0A]
    calm s.chan = true ∧ 1 ≤ s.scanTimeout ∧ s.chan.rxFifo = 0x0D :: [] ∧ pendingRx s.chan = 0x0D :: [0x0A] ∧
      (∀ b ∈ [(0x0A : Byte)], b ≠ 0x0D) ∧ suspendedScan.phase = .scanLines ∧ suspendedScan.work.job = .scanLines ∧
      suspendedScan.requests = [] ∧ calm suspendedScan.chan = true ∧ pendingRx suspendedScan.chan = [] ∧
      suspendedScan.chan.rxDepth = none ∧ suspendedScan.params.lineCap = none ∧ suspendedScan.params.linesCap = none ∧
      noFail [.arrive 0x42] = true ∧ (∀ b ∈ suspendedScan.chan.rxFifo ++ arrivals [.arrive 0x42], b ≠ 0x0D) := by decide +kernel

/-- The parameters with these capacities. -/
def capped (lineCap linesCap : Option Nat) : Params := { params with lineCap := lineCap, linesCap := linesCap }

/-- `LINE_CAP` of 0 in the first line and of 1 in the second, `LINES_CAP` of 0 at a CR and of 1 at a LF. -/
theorem witness_FiniteCapacitiesFaultOnOverflow :
    (capped (some 0) none).lineCap = some 0 ∧ calm (opened [0x51, 0x41] []).chan = true ∧ ([0x41] : List Byte).length = 0 + 1 ∧
    pendingRx (opened [0x51, 0x41] []).chan = 0x51 :: ((([] : List (List Byte)).map (· ++ [0x0A])).flatten ++ [0x41] ++ []) ∧
    (∀ line ∈ [[(0x41 : Byte)]], line.all dataByte = true ∧ line.length ≤ 1) ∧ ([0x42, 0x43] : List Byte).length = 1 + 1 ∧
    ([0x42, 0x43] : List Byte).all dataByte = true ∧
    pendingRx (opened [0x51, 0x41, 0x0A, 0x42, 0x43] []).chan =
      0x51 :: ((([[0x41]] : List (List Byte)).map (· ++ [0x0A])).flatten ++ [0x42, 0x43] ++ []) ∧
    (([] : List (List Byte)).filter (· ≠ [])).length = 0 ∧ pendingRx (opened [0x51, 0x41, 0x0D] []).chan =
      0x51 :: ((([] : List (List Byte)).map (· ++ [0x0A])).flatten ++ [0x41] ++ 0x0D :: []) ∧
    (([[0x41]] : List (List Byte)).filter (· ≠ [])).length = 1 ∧ (capped none (some 1)).linesCap = some 1 ∧
    pendingRx (opened [0x51, 0x41, 0x0A, 0x42, 0x0A] []).chan =
      0x51 :: ((([[0x41]] : List (List Byte)).map (· ++ [0x0A])).flatten ++ [0x42] ++ 0x0A :: []) := by decide +kernel

/-- The suspended scan, which holds the line "A" and the byte "B": `LINE_CAP` of 1 and one byte more, `LINES_CAP` of 1
and either terminator. -/
theorem witness_FiniteCapacitiesFaultOnOverflow_suspended :
    let s := { suspendedScan with params := capped (some 1) (some 1) }
    s.phase = .scanLines ∧ s.work.job = .scanLines ∧ s.requests = [] ∧ calm s.chan = true ∧ s.work.cur.length ≤ 1 ∧
      s.work.cur.length + ([0x43] : List Byte).length = 1 + 1 ∧ s.work.lines.length = 1 ∧ s.work.cur ++ [] ≠ [] ∧
      s.work.cur.length + ([] : List Byte).length ≤ 1 ∧
      pendingRx { s.chan with link := sends [0x43] } = [0x43] ++ [] ∧
      pendingRx { s.chan with link := sends [0x0D] } = [] ++ 0x0D :: [] ∧
      pendingRx { s.chan with link := sends [0x0A] } = [] ++ 0x0A :: [] := by decide +kernel

/-- `TMO` at 0, 1, 25500 and 25501, an acknowledgement, six bytes of one, and a failure. -/
theorem witness_SetTimeoutStoresOnlyAcknowledgedValue :
    (at' [] 0 0 [] []).host.tmo = 0 ∧ 25500 < (at' [] 0 25501 [] []).host.tmo ∧ 1 ≤ (at' [] 0 1 [] []).host.tmo ∧
    (at' [] 0 25500 [] []).host.tmo ≤ 25500 ∧ calm (at' [] 0 1 [] (sends ack)).chan = true ∧
    pendingRx (at' [] 0 1 [] (sends ack)).chan = ack ++ [] ∧ replyOutcome 1 ack = .ok ∧
    (pendingRx (at' [] 0 1 [] (sends (ack.take 6))).chan).length < 7 ∧
    (at' [] 0 1 [] [.elapse 1, .fail false]).chan.link = [.elapse 1] ++ .fail false :: [] ∧ noFail [.elapse 1] = true ∧
    (at' [] 0 1 [] [.elapse 1, .fail false]).chan.rxDepth = none := by decide +kernel
theorem witness_TimeoutByteIsFloorOfHundredths : (1 : Nat) ≤ 25500 ∧ (25500 : Nat) ≤ 25500 ∧ (1 : Nat) ≤ 99 ∧ (99 : Nat) ≤ 99 := by
  decide
theorem witness_SessionOpenWritesOptionsThenOpens :
    (opened [] []).session ≠ .closed ∧ (closed [0xFF] (sends ack)).session = .closed ∧ calm (closed [0xFF] (sends ack)).chan = true ∧
    arrivals (closed [0xFF] (sends ack)).chan.link = ack ++ [] ∧
    (arrivals (closed [0xFF] (sends (ack.take 6))).chan.link).length < 7 ∧
    (closed [] [.ok, .fail false]).chan.link = [.ok] ++ .fail false :: [] ∧ noFail [.ok] = true ∧
    (closed [] [.ok, .fail false]).chan.rxDepth = none := by decide +kernel
theorem witness_SessionCloseOnlyReleases : (closed [] []).session ≠ .opened ∧ (opened [] []).session = .opened := by decide +kernel
theorem witness_SessionGatesLinkOperations :
    (closed [] []).phase = .idle ∧ (closed [] []).session = .closed ∧
    outcome (exec .sessionOpen (closed [] (sends ack))) = some .ok ∧ outcome (exec .sessionClose (opened [] [])) = some .ok := by
  decide +kernel
theorem witness_WireCommandFramesAreSentRaw :
    (closed [] []).session ≠ .opened ∧ noFail (opened [] []).chan.link = true ∧
    8 < (encode (.wireWrite 0x000A [0x3E] 0x4CCF)).length ∧
    (opened [] (List.replicate 8 .ok ++ [.fail false])).chan.link = List.replicate 8 .ok ++ .fail false :: [] := by decide +kernel
theorem witness_WireReplyArrivesInQueue : (opened [] []).chan.rxDepth = none := by decide +kernel
/-- The reserved selectors on both sides of the fifteen, whole and phase by phase. -/
theorem witness_ReservedSelectorsAreRefused :
    ({ opened [] [] with requests := [.operation { Operands.reset with op := 0x0F }] } : State).phase = .idle ∧
    (phased { Operands.reset with op := 0x1F } (opened [] [])).phase = .idle ∧
    (0x0F : Byte).toNat < 0x10 ∧ 0x1E < (0x1F : Byte).toNat := by decide +kernel
theorem witness_RunningOperationIsAlone :
    suspended.phase ≠ .idle ∧
    (next? (step { suspended with requests := [.operation Operands.reset] })).isSome = true ∧
    (next? (step (phased Operands.reset suspended))).isSome = true := by decide +kernel
theorem inv_suspended : Inv suspended := by
  have hp : suspended.phase = .rxWait := by decide +kernel
  have hj : suspended.work.job = .writeAck .done := by decide +kernel
  have hd : suspended.chan.rxDepth = none := by decide +kernel
  refine ⟨?_, by decide +kernel, by decide +kernel, ?_, fun d h => ?_, by decide +kernel⟩
  · unfold phaseWork; rw [hp]; exact .inr ⟨.inr (by decide +kernel), by decide +kernel, by decide +kernel⟩
  · rw [hj]; show suspended.session = .opened; decide +kernel
  · rw [hd] at h; cases h

/-- An operation that ends, one that waits, and a waiting one, which meets the invariant, that goes on to end or to wait
longer. -/
theorem witness_OutcomesStayInTheMatrix :
    outcome (exec .cmdWrite (at' [0x01] 0 0 [] (sends [0x02, 0x00, 0x00, 0x02, 0x00, 0x66, 0x62]))) = some .eShort ∧
    Inv suspended ∧ suspended.phase ≠ .idle ∧ jobInstr suspended.work.job = some .cmdWrite ∧ (next? (advance suspended)).isSome = true ∧
    outcome (advance { suspended with chan := { suspended.chan with link := [.arrive 0x31] } }) = some .ok :=
  ⟨by decide +kernel, inv_suspended, by decide +kernel, by decide +kernel, by decide +kernel, by decide +kernel⟩
theorem witness_RefusedTouchesNothing : outcome (exec .cmdRead (closed [0x31] [])) = some .refused := by decide +kernel
/-- An error at once, and one after waiting. -/
theorem witness_ErrorsRollNothingBack :
    outcome (exec .cmdWrite (at' [0x01] 0 0 [] (sends [0x02, 0x00, 0x03, 0x01, 0x00, 0x6A, 0x61]))) = some .eStatus ∧
    suspended.phase ≠ .idle ∧
    outcome (advance { suspended with chan := { suspended.chan with link := [.arrive 0x30] } }) = some .eCrc ∧
    isError .eStatus = true ∧ isError .eCrc = true := by decide +kernel
theorem witness_AccessTableIsTheFrame :
    outcome (exec .cmdWrite (at' [0x3E] 0 0 [] (sends ack))) = some .ok ∧ isError .ok = false ∧
    (next? (exec (.wireReply 0x00 [0x00] 0x3331) (opened [] []))).isSome = true := by decide +kernel
theorem witness_BytesLeaveTheQueueOldestFirst :
    outcome (exec .rxReadByte (opened [0x0A, 0x0D] [])) = some .ok ∧ (next? (advance suspended)).isSome = true ∧
    (opened [0x0A, 0x0D] []).chan.rxDepth = none := by decide +kernel
theorem witness_StepKeepsConfigurationSentBytesAndClock :
    (next? (step { at' [] 0 0 [] [] with requests := [.operation { operands [0x7E] 0 with op := 0x14 }] })).map (fun t => t.chan.tx) =
      some [0x7E] := by decide +kernel
/-- The reset state meets the invariant and steps; so does a suspended one. -/
theorem witness_StepKeepsInvariant :
    (Inv State.reset ∧ (next? (step State.reset)).isSome = true) ∧ Inv suspended ∧ (next? (step suspended)).isSome = true :=
  ⟨⟨⟨rfl, Nat.le_refl _, nofun, trivial, nofun, nofun, rfl⟩, by decide +kernel⟩, inv_suspended, by decide +kernel⟩
theorem witness_OnlySessionOpenReachesTheLinkAfterReset :
    (closed [0x31] []).session = .closed ∧ outcome (exec .rxDiscard (closed [0x31] [])) = some .refused := by decide +kernel
theorem witness_StepRunsDecodedInstruction :
    decode .host [({ Operands.reset with op := 0x10 } : Machine.Operands).op] = .ok (.crcCompute, []) ∧
    (phased { Operands.reset with op := 0x10 } (opened [] [])).requests =
      .phased { Operands.reset with op := 0x10 } :: [] ∧
    decode .wire (ack ++ ack) = .ok (.wireReply 0x00 [0x00] 0x3331, ack) ∧ suspended.phase ≠ .idle ∧
    decode .wire [0x7E, 0x00, 0x07, 0x01, 0x00, 0x0A, 0x01, 0xEE, 0x8A] = .ok (.wireRead 0x000A 1 0xEE8A, []) := by decide +kernel
theorem witness_DecodeUndoesEncode :
    (Instr.wireWrite 0x0100 allBytes 0xB932).wellFormed = true ∧ (Instr.wireRead 0xFFFF 256 0x0000).wellFormed = true ∧
    (Instr.wirePersist []).wellFormed = true ∧ (Instr.wireReply 0x03 [0x00] 0x6A61).wellFormed = true := by decide +kernel
theorem witness_DecodedBytesAreTheEncoding :
    decode .wire (ack ++ [0xFF]) = .ok (.wireReply 0x00 [0x00] 0x3331, [0xFF]) ∧ decode .host [0x1E] = .ok (.sessionClose, []) := by
  decide

end Sys2Proof.Tests
end

section
/-! SUPPORT. The session bit (10_state.md R25): which instructions need an open session and are refused without one,
that the pure operations do not read it, and what an `OK` of SESSION.OPEN and SESSION.CLOSE says of it. -/

namespace Sys2Proof.Machine

/-! ### The guard -/

/-- The instructions that use the link on behalf of an open session (10_state.md R25; a command frame sent raw is a
transmission, log 2). SESSION.OPEN is the one user of the link that needs a closed session. -/
def needsOpen : Instr → Bool
  | .crcCompute | .crcVerify | .frameBuild | .frameParse | .sessionOpen | .wireReply _ _ _ => false
  | .txWriteAll | .rxReadExact | .rxReadDeadline | .rxReadByte | .rxDiscard => true
  | .cmdWrite | .cmdRead | .scanRead | .scanSetTimeout | .sessionClose => true
  | .wireWrite _ _ _ | .wireRead _ _ _ | .wirePersist _ => true

section
variable {i : Instr} {s : State}

/-- Such an instruction starts behind the session guard. -/
theorem start_eq_whenOpen (hi : needsOpen i = true) (s : State) : ∃ body, start i s = whenOpen s body := by
  cases i with
  | crcCompute | crcVerify | frameBuild | frameParse | sessionOpen | wireReply _ _ _ => cases hi
  | txWriteAll | rxReadExact | rxReadDeadline | rxReadByte | rxDiscard => exact ⟨_, rfl⟩
  | cmdWrite | cmdRead | scanRead | scanSetTimeout | sessionClose => exact ⟨_, rfl⟩
  | wireWrite _ _ _ | wireRead _ _ _ | wirePersist _ => exact ⟨_, rfl⟩

/-- Turned away at its start, it runs nothing. -/
theorem exec_of_not_opened (hi : needsOpen i = true) (h : s.phase = .idle) (hs : s.session ≠ .opened) :
    exec i s = .next (raise .refused s) := by
  obtain ⟨body, hb⟩ := start_eq_whenOpen hi s
  have hw : ∀ status p crc, i ≠ .wireReply status p crc := by
    rintro status p crc rfl
    cases hi
  rw [exec_eq_runOn hw, hb, whenOpen_closed h hs, runOn_idle (raise_phase _ _)]

/-- Without an open session it is refused (10_state.md R25). -/
theorem refuses_of_not_opened (hi : needsOpen i = true) (h : s.phase = .idle) (hs : s.session ≠ .opened) :
    refuses i s :=
  ⟨_, exec_of_not_opened hi h hs, endsKeeping_raise _ _, rfl, rfl⟩

end

/-! ### The pure operations -/

/-- The instruction ends the same, but for the session bit itself, whatever the session is. -/
def IgnoresSession (i : Instr) (s : State) : Prop :=
  ∀ other : Session, ∃ t, exec i s = .next t ∧ exec i { s with session := other } = .next { t with session := other }

section
variable {s : State} (h : s.phase = .idle)
include h

theorem crcCompute_ignoresSession : IgnoresSession .crcCompute s :=
  fun _ => ⟨_, whenIdle_idle h, whenIdle_idle h⟩

theorem crcVerify_ignoresSession : IgnoresSession .crcVerify s := by
  intro other
  refine ⟨_, whenIdle_idle h, (whenIdle_idle h).trans ?_⟩
  cases crcAccepts s.host.ibuf s.host.expect with
  | true => rfl
  | false => rfl

theorem frameBuild_ignoresSession : IgnoresSession .frameBuild s := by
  intro other
  refine ⟨_, execFrameBuild_eq h, (execFrameBuild_eq (s := { s with session := other }) h).trans ?_⟩
  cases buildDomain s.host with
  | true => rfl
  | false => rfl

theorem frameParse_ignoresSession : IgnoresSession .frameParse s := by
  intro other
  refine ⟨_, execFrameParse_eq h, (execFrameParse_eq (s := { s with session := other }) h).trans ?_⟩
  cases parseReply s.host.ibuf s.host.cap s.host.check with
  | ok r => rfl
  | error e => rfl

end

/-! ### Opening and closing -/

/-- No error is `OK` (60_exceptions.md R200 to R202). -/
theorem raise_outcome_ne_ok (e : Error) (s : State) : (raise e s).result.outcome ≠ .ok := by
  rw [raise_outcome]
  cases e <;> nofun

/-- An acknowledgement that lets SESSION.OPEN end with `OK` opens the session (70_reset_and_hazards.md R230). -/
theorem completeJob_openSession_ok {acc : List Byte} {s : State}
    (ho : (completeJob (.writeAck .openSession) acc s).result.outcome = .ok) :
    (completeJob (.writeAck .openSession) acc s).session = .opened := by
  obtain ⟨hack, -⟩ | ⟨e, hack, -⟩ := completeJob_writeAck .openSession acc s
  · rw [hack]; rfl
  · rw [hack] at ho; exact absurd ho (raise_outcome_ne_ok _ _)

section
variable {s t : State}

theorem execSessionOpen_ok (h : execSessionOpen s = .next t) (ht : t.phase = .idle) (ho : t.result.outcome = .ok) :
    t.session = .opened := by
  obtain ⟨-, rfl | ⟨-, c, -, rfl | hrun⟩⟩ := execSessionOpen_next h
  · exact absurd ho (raise_outcome_ne_ok _ _)
  · exact absurd ho (raise_outcome_ne_ok _ _)
  · obtain ⟨c', -, ⟨acc, -, rfl⟩ | rfl | ⟨acc, -, rfl⟩⟩ := runCommand_next rfl hrun
    · exact completeJob_openSession_ok ho
    · exact absurd ho (raise_outcome_ne_ok _ _)
    · cases ht

theorem execSessionClose_ok (h : execSessionClose s = .next t) (ho : t.result.outcome = .ok) : t.session = .closed := by
  obtain ⟨-, rfl | ⟨-, tmo, rfl⟩⟩ := execSessionClose_next h
  · exact absurd ho (raise_outcome_ne_ok _ _)
  · rfl

end

/-- Settles O42: the nine operations start behind the session guard, the ends of the four pure ones carry the session
along unread, and only an accepted acknowledgement, or an unrefused close, ends with `OK`. -/
theorem sessionGatesLinkOperations : Obligations.SessionGatesLinkOperations := by
  intro s i h
  refine ⟨fun hi hc => ?refused, fun hi => ?pure, fun t => execSessionOpen_ok, fun t => execSessionClose_ok⟩
  case refused =>
    have hn : needsOpen i = true := by
      simp only [List.mem_cons, List.not_mem_nil, or_false] at hi
      rcases hi with rfl | rfl | rfl | rfl | rfl | rfl | rfl | rfl | rfl <;> rfl
    exact refuses_of_not_opened hn h (by rw [hc]; nofun)
  case pure =>
    simp only [List.mem_cons, List.not_mem_nil, or_false] at hi
    obtain rfl | rfl | rfl | rfl := hi
    · exact crcCompute_ignoresSession h
    · exact crcVerify_ignoresSession h
    · exact frameBuild_ignoresSession h
    · exact frameParse_ignoresSession h

end Sys2Proof.Machine
end

section
/-! SUPPORT. The two ports (30_encoding.md R100): what the decoder answers on the command frames the engine builds, on
the fifteen selectors and on every reserved one, and the timeout byte of R89. -/

namespace Sys2Proof

/-! ### Command frames on the wire -/

/-- A well-formed write frame decodes to its fields, and the decoder stops where it stops (30_encoding.md R81). -/
theorem decode_encode_wireWrite (addr : Word) {p : List Byte} (crc : Word) (more : List Byte)
    (h : encodableLength p.length = true) :
    decode .wire (encode (.wireWrite addr p crc) ++ more) = .ok (.wireWrite addr p crc, more) := by
  have hb : encode (.wireWrite addr p crc) ++ more =
      Config.start :: Config.rsvd :: Config.ftWrite ::
        encLen p.length :: hi addr :: lo addr :: (p ++ (hi crc :: lo crc :: more)) := by
    simp [encode]
  rw [hb]
  exact decodeWriteFrame_append addr p crc more h

/-- A well-formed read frame decodes to its fields, and the decoder stops where it stops (30_encoding.md R82). -/
theorem decode_encode_wireRead (addr : Word) {n : Nat} (crc : Word) (more : List Byte) (h : encodableLength n = true) :
    decode .wire (encode (.wireRead addr n crc) ++ more) = .ok (.wireRead addr n crc, more) := by
  have hd : decode .wire (encode (.wireRead addr n crc) ++ more) =
      .ok (.wireRead (be (hi addr) (lo addr)) (decLen (encLen n)) (be (hi crc) (lo crc)), more) := rfl
  rw [hd, be_hi_lo, be_hi_lo, decLen_encLen h]

/-- A length of 1 to 256 has an encoding (30_encoding.md R88). -/
theorem encodableLength_iff {n : Nat} : encodableLength n = true ↔ 1 ≤ n ∧ n ≤ 256 := by
  simp [encodableLength]

/-! ### Selectors on the host side -/

/-- Every entry of the table of 30_encoding.md R95 decodes to its operation. -/
theorem decodeHost_hostOps : ∀ p ∈ hostOps, decodeHost p.1 = .ok p.2 := by decide

/-- The selectors of that table are numbers from 0x10 to 0x1E. -/
theorem hostOps_range : ∀ p ∈ hostOps, 0x10 ≤ p.1.toNat ∧ p.1.toNat ≤ 0x1E := by decide

/-- On the host side the selector is the whole encoding (30_encoding.md R95, R100). -/
theorem decode_host_of_mem {op : Byte} {i : Instr} (h : (op, i) ∈ hostOps) : decode .host [op] = .ok (i, []) := by
  rw [decode, decodeHost_hostOps _ h]

theorem decode_host_of_toNat {op : Byte} {n : Nat} {i : Instr} (hn : op.toNat = n)
    (hi : (BitVec.ofNat 8 n, i) ∈ hostOps) : decode .host [op] = .ok (i, []) := by
  rw [← hn, BitVec.ofNat_toNat, BitVec.setWidth_eq] at hi
  exact decode_host_of_mem hi

/-- A byte outside that range selects nothing and is rejected by name. -/
theorem decodeHost_reserved {op : Byte} (h : op.toNat < 0x10 ∨ 0x1E < op.toNat) :
    decodeHost op = .error (.reservedSelector op) := by
  unfold decodeHost
  split
  · rename_i i hi
    have hm : (op, i) ∈ hostOps := decodeHost_mem (by rw [decodeHost, hi])
    obtain ⟨hlow, hhigh⟩ : 0x10 ≤ op.toNat ∧ op.toNat ≤ 0x1E := hostOps_range _ hm
    omega
  · rfl

theorem decode_host_reserved {op : Byte} (h : op.toNat < 0x10 ∨ 0x1E < op.toNat) :
    decode .host [op] = .error (.reservedSelector op) := by
  rw [decode, decodeHost_reserved h]

namespace Machine

/-! ### The frames of the two commands -/

theorem writeFrame_eq_writeBytes (addr : Word) (p : List Byte) : writeFrame addr p = writeBytes addr p := rfl

theorem readFrame_eq_readBytes (addr : Word) (n : Nat) : readFrame addr n = readBytes addr n := rfl

/-- Header, four bytes of fields, payload and checksum (30_encoding.md R81). -/
theorem writeFrame_length (addr : Word) (p : List Byte) : (writeFrame addr p).length = p.length + 8 := by
  simp [writeFrame, buildFrame, frameBody, writeFields]

/-- The frame of CMD.WRITE decodes to its fields and the checksum of its body, and to nothing more. -/
theorem decode_writeFrame (addr : Word) {p : List Byte} (h : encodableLength p.length = true) :
    decode .wire (writeFrame addr p) =
      .ok (.wireWrite addr p (crc16 (frameBody (writeFields addr p))), []) := by
  rw [writeFrame_eq]
  simpa using decode_encode_wireWrite addr (crc16 (frameBody (writeFields addr p))) [] h

/-- The frame of CMD.READ decodes to its fields and the checksum of its body, and to nothing more. -/
theorem decode_readFrame (addr : Word) {n : Nat} (h : encodableLength n = true) :
    decode .wire (readFrame addr n) = .ok (.wireRead addr n (crc16 (frameBody (readFields addr n))), []) := by
  rw [readFrame_eq]
  exact decode_encode_wireRead addr (crc16 (frameBody (readFields addr n))) [] h

/-- Settles O31: the built frames are the two wire formats with the computed checksum in place, and decoding undoes
encoding on the lengths a length byte can carry. -/
theorem engineFramesAreWireFrames : Obligations.EngineFramesAreWireFrames := by
  refine ⟨fun addr p h1 h256 => ?write, fun addr n h1 h256 => ?read⟩
  case write =>
    exact ⟨writeFrame_eq_writeBytes addr p, writeFrame_length addr p,
      decode_writeFrame addr (encodableLength_iff.2 ⟨h1, h256⟩)⟩
  case read =>
    exact ⟨readFrame_eq_readBytes addr n, rfl, decode_readFrame addr (encodableLength_iff.2 ⟨h1, h256⟩)⟩

/-! ### An operation started with a reserved selector -/

section
variable {s : State} {o : Operands} {rest : List Request}

/-- Presented whole or phase by phase, such an operation is taken up and found reserved (30_encoding.md R95). -/
theorem fetch_reserved (h : s.phase = .idle) (hr : s.requests = .operation o :: rest ∨ s.requests = .phased o :: rest)
    (hop : o.op.toNat < 0x10 ∨ 0x1E < o.op.toNat) : fetch s = .reserved { s with host := o, requests := rest } := by
  unfold fetch
  rcases hr with hr | hr <;> simp only [hr, h, if_true, decodeHost_reserved hop]

/-- Its step ends it with `REFUSED`. -/
theorem step_reserved (h : s.phase = .idle) (hr : s.requests = .operation o :: rest ∨ s.requests = .phased o :: rest)
    (hop : o.op.toNat < 0x10 ∨ 0x1E < o.op.toNat) :
    step s = .next (raise .refused { s with host := o, requests := rest }) := by
  rw [step, fetch_reserved h hr hop]

end

/-- Settles O45: the byte either is one of the fifteen of R95's table or lies outside their range, and a step that
takes up a selector outside it only records `REFUSED`. -/
theorem reservedSelectorsAreRefused : Obligations.ReservedSelectorsAreRefused := by
  refine ⟨fun op => ?selectors, fun s o rest h hr hop => ?steps⟩
  case selectors =>
    split
    case h_16 =>
      have hop : op.toNat < 0x10 ∨ 0x1E < op.toNat := by grind
      exact decode_host_reserved hop
    all_goals exact decode_host_of_toNat ‹_› (by decide)
  case steps => exact ⟨_, step_reserved h hr hop, endsKeeping_raise _ _, rfl, rfl⟩

/-! ### The timeout byte -/

/-- Up to 25500 ms the hundredths fit in the byte (30_encoding.md R89). -/
theorem timeoutByte_toNat {t : Nat} (h : t ≤ 25500) : (timeoutByte t).toNat = t / 100 := by
  rw [timeoutByte, Config.timeoutUnitMs, BitVec.toNat_ofNat]
  omega

/-- Settles O39: on the legal range the byte is the quotient itself, which is 0 below 100 ms. -/
theorem timeoutByteIsFloorOfHundredths : Obligations.TimeoutByteIsFloorOfHundredths := by
  refine ⟨fun t _ h => timeoutByte_toNat h, rfl, rfl, fun t _ h => BitVec.eq_of_toNat_eq ?_⟩
  rw [timeoutByte_toNat (by omega), Nat.div_eq_of_lt (by omega)]
  rfl

end Machine

end Sys2Proof
end

section
/-! SUPPORT. The checksum engine (40_checksum.md): the register's step in the words of the pseudocode, what zero bytes
do to a zero register, and how CRC.VERIFY ends. -/

namespace Sys2Proof.Machine

/-! ### The register -/

/-- The pseudocode tests bit 15 and masks the shift to 16 bits (40_checksum.md R111); on a 16-bit word the mask keeps
all of it. -/
theorem crcBit_eq_masked (c : Word) :
    crcBit c = if c.getLsbD 15 then ((c <<< 1) &&& 0xFFFF) ^^^ 0x1021 else (c <<< 1) &&& 0xFFFF := by
  have mask (x : Word) : x &&& 0xFFFF = x := BitVec.and_allOnes
  rw [mask, crcBit, BitVec.msb_eq_getLsbD_last]
  rfl

/-- A byte is eight steps of the register. -/
theorem crcByte_eq_iterate (c : Word) (b : Byte) : crcByte c b = crcBit^[8] (c ^^^ (b.setWidth 16 <<< 8)) := rfl

theorem crc16_eq_foldl (bytes : List Byte) : crc16 bytes = bytes.foldl crcByte 0x0000 := crcFrom_eq_foldl bytes _

/-- Settles O1: the register runs through a fold over the bytes, each byte is eight steps, and each step is that of the
pseudocode. -/
theorem crcFollowsPseudocode : Obligations.CrcFollowsPseudocode := by
  intro bytes
  simp only [crc16_eq_foldl, ← crcBit_eq_masked]
  exact congrArg (bytes.foldl · 0x0000) (funext₂ crcByte_eq_iterate)

/-- The register starts at zero, where a zero byte leaves it (40_checksum.md R112). -/
theorem crc16_zero_cons (bytes : List Byte) : crc16 (0x00 :: bytes) = crc16 bytes := by
  have hz : crcByte Config.crcInit 0x00 = Config.crcInit := crcByte_zero_eq_zero.2 rfl
  rw [crc16, crcFrom_cons, hz, crc16]

theorem crc16_replicate_zero (k : Nat) : crc16 (List.replicate k 0x00) = 0x0000 := by
  induction k with
  | zero => rfl
  | succ k ih => rw [List.replicate_succ, crc16_zero_cons, ih]

/-! ### The operations -/

section
variable {s : State}

theorem execCrcCompute_eq (h : s.phase = .idle) :
    execCrcCompute s = .next (finish { s.result with outcome := .ok, crcout := crc16 s.host.ibuf } s) :=
  whenIdle_idle h

/-- CRC.VERIFY on the sentinel or on the true checksum (40_checksum.md R113). -/
theorem execCrcVerify_accepted (h : s.phase = .idle)
    (ha : s.host.expect = 0xABCD ∨ crc16 s.host.ibuf = s.host.expect) :
    execCrcVerify s = .next (finishWith .ok s) := by
  rw [execCrcVerify, whenIdle_idle h, if_pos (crcAccepts_iff.2 ha)]

/-- CRC.VERIFY on any other value (40_checksum.md R113). -/
theorem execCrcVerify_rejected (h : s.phase = .idle)
    (ha : ¬(s.host.expect = 0xABCD ∨ crc16 s.host.ibuf = s.host.expect)) :
    execCrcVerify s = .next (raise .checksumMismatch s) := by
  rw [execCrcVerify, whenIdle_idle h, if_neg (mt crcAccepts_iff.1 ha)]

end

/-- Settles O2: the operation has one end, which writes the outcome and `CRCOUT` only; the corner cases are facts about
the register, and the example's trace is evaluated. -/
theorem crcComputeWritesCrcout : Obligations.CrcComputeWritesCrcout := by
  refine ⟨rfl, fun s h => ?ends, crc16_replicate_zero, crc16_zero_cons, by decide, by decide⟩
  case ends => exact ⟨_, execCrcCompute_eq h, endsKeeping_finish _ s, rfl, rfl, rfl⟩

/-- Settles O3: by whether `EXPECT` is the sentinel or the checksum. -/
theorem crcVerifyComparesUnlessSentinel : Obligations.CrcVerifyComparesUnlessSentinel := by
  refine ⟨rfl, fun s h => ?_⟩
  by_cases ha : s.host.expect = 0xABCD ∨ crc16 s.host.ibuf = s.host.expect
  case pos =>
    exact ⟨_, execCrcVerify_accepted h ha, endsKeeping_finishWith _ s, rfl, fun _ => rfl,
      fun hn => absurd ha (not_or.2 hn)⟩
  case neg =>
    exact ⟨_, execCrcVerify_rejected h ha, endsKeeping_raise _ s, rfl, fun hp => absurd hp ha, fun _ => rfl⟩

end Sys2Proof.Machine
end

section
/-! SUPPORT. The frame codec (41_frame_codec.md): what FRAME.BUILD lays out, FRAME.PARSE's tests in the spec's words,
and how the operation reports what the parser answers. -/

namespace Sys2Proof.Machine

/-! ### FRAME.BUILD -/

/-- The domain as R120 says it. -/
theorem buildDomain_iff {o : Operands} : buildDomain o = true ↔ (o.rlenEn = true → 1 ≤ o.rlen ∧ o.rlen ≤ 256) := by
  rw [buildDomain, ← encodableLength_iff]
  cases o.rlenEn with
  | true => simp
  | false => simp

/-- The body of the frame FRAME.BUILD is asked for; a requested length stands in it modulo 256 (R120, R88). -/
theorem frameBody_buildFields (o : Operands) :
    frameBody (buildFields o) = [o.ft, o.len, hi o.addr, lo o.addr] ++
      (if o.rlenEn then [BitVec.ofNat 8 (o.rlen % 256)] else []) ++ o.ibuf := by
  have hmod : BitVec.ofNat 8 (o.rlen % 256) = encLen o.rlen := BitVec.eq_of_toNat_eq (by simp [encLen])
  rw [hmod, frameBody, buildFields, requestedLength]
  cases o.rlenEn with
  | true => rfl
  | false => rfl

/-- Settles O7: the operation ends with the wrapped body where the requested length can be encoded, and is refused
where not. -/
theorem frameBuildLaysOutCommandFrame : Obligations.FrameBuildLaysOutCommandFrame := by
  refine ⟨rfl, fun s h => ⟨fun hdom body hbody => ?built, fun hen hdom => ?refused⟩⟩
  case built =>
    rw [← frameBody_buildFields] at hbody
    subst hbody
    have hrun := execFrameBuild_eq h
    rw [if_pos (buildDomain_iff.2 hdom)] at hrun
    exact ⟨_, hrun, endsKeeping_finish _ s, rfl, rfl, rfl, rfl⟩
  case refused =>
    have hrun := execFrameBuild_eq h
    rw [if_neg fun hb => hdom (buildDomain_iff.1 hb hen)] at hrun
    exact ⟨_, hrun, endsKeeping_raise _ s, rfl, rfl⟩

/-! ### The parser's tests -/

theorem be_toNat (a b : Byte) : (be a b).toNat = a.toNat * 256 + b.toNat := by
  rw [be, BitVec.toNat_append, ← Nat.shiftLeft_add_eq_or_of_lt b.isLt, Nat.shiftLeft_eq]

/-- Test (d) fails exactly where the checksum is verified and the trailer is neither the sentinel nor the checksum of
the span (R123, R125, R127). -/
theorem crcTest_fails_iff {span : List Byte} {v : Word} {check : Bool} :
    crcAccepts span (if check then v else Config.crcSkip) = false ↔
      check = true ∧ v ≠ 0xABCD ∧ crc16 span ≠ v := by
  rw [← Bool.not_eq_true, crcAccepts_iff]
  cases check with
  | true => simp
  | false => simp [Config.crcSkip]

/-- The tests in the words of R123: bytes of the buffer, and a trailer and a length as numbers. -/
theorem parseReply_eq_tests (buf : List Byte) (cap : Nat) (check : Bool) {rx n : Nat}
    (hrx : rx = (buf.getD (buf.length - 2) 0x00).toNat * 256 + (buf.getD (buf.length - 1) 0x00).toNat)
    (hn : n = if buf.getD 3 0x00 = 0x00 then 256 else (buf.getD 3 0x00).toNat) :
    parseReply buf cap check =
      if buf.length < 6 then .error (.shortReply .tooShort)
      else if buf.getD 0 0x00 ≠ 0x02 ∨ buf.getD 1 0x00 ≠ 0x00 then .error .invalidHeader
      else if buf.getD 2 0x00 ≠ 0x00 then .error (.deviceError (buf.getD 2 0x00))
      else if check = true ∧ rx ≠ 0xABCD ∧ (crc16 ((buf.drop 2).take (buf.length - 4))).toNat ≠ rx then
        .error .checksumMismatch
      else if cap < n then .error (.shortReply .overCapacity)
      else if buf.length - 6 < n then .error (.shortReply .overRoom)
      else .ok ((buf.drop 4).take n, n) := by
  have htrailer : rx = (replyTrailer buf).toNat := hrx.trans (be_toNat _ _).symm
  have hword (a b : Word) : a.toNat ≠ b.toNat ↔ a ≠ b := not_congr BitVec.toNat_inj
  have hcrc : (check = true ∧ rx ≠ 0xABCD ∧ (crc16 ((buf.drop 2).take (buf.length - 4))).toNat ≠ rx) ↔
      crcAccepts (replySpan buf) (if check then replyTrailer buf else Config.crcSkip) = false := by
    rw [crcTest_fails_iff, htrailer, hword, ← hword _ 0xABCD]
    rfl
  simp only [hcrc, hn]
  rfl

section
variable {len : Byte} {room : List Byte} {v : Word} {cap : Nat} {check : Bool}

/-- Test (b) on a buffer of reply shape. -/
theorem parseReply_header {buf : List Byte} (hl : 6 ≤ buf.length) (hh : buf.take 2 ≠ [0x02, 0x00]) :
    parseReply buf cap check = .error .invalidHeader := by
  obtain ⟨h0, h1, status, len, room, v, rfl⟩ := exists_reply_shape hl
  rw [parseReply_shape, if_pos]
  exact Decidable.not_and_iff_or_not.1 fun ⟨e0, e1⟩ => hh (by rw [e0, e1]; rfl)

/-- Test (c), once (b) has passed. -/
theorem parseReply_status {buf : List Byte} (hl : 6 ≤ buf.length) (hh : buf.take 2 = [0x02, 0x00])
    (hs : buf.getD 2 0x00 ≠ 0x00) : parseReply buf cap check = .error (.deviceError (buf.getD 2 0x00)) := by
  obtain ⟨h0, h1, status, len, room, v, rfl⟩ := exists_reply_shape hl
  obtain ⟨rfl, rfl⟩ : h0 = 0x02 ∧ h1 = 0x00 := by simpa using hh
  have hs' : status ≠ Config.statusOk := hs
  rw [parseReply_shape, if_neg (by decide), if_pos hs']
  rfl

/-- Test (d), once (b) and (c) have passed. -/
theorem parseReply_mismatch (hv : v ≠ 0xABCD) (hc : crc16 (0x00 :: len :: room) ≠ v) :
    parseReply (0x02 :: 0x00 :: 0x00 :: len :: (room ++ [hi v, lo v])) cap true = .error .checksumMismatch := by
  rw [parseReply_shape, if_neg (by decide), if_neg (by decide), if_pos (crcTest_fails_iff.2 ⟨rfl, hv, hc⟩)]

/-- A reply of an encodable length that fits is answered with its payload, if its trailer passes test (d). -/
theorem parseReply_payload {p : List Byte} (hl : encodableLength p.length = true) (hcap : p.length ≤ cap)
    (hv : check = true → v = 0xABCD ∨ crc16 (0x00 :: encLen p.length :: p) = v) :
    parseReply (0x02 :: 0x00 :: 0x00 :: encLen p.length :: (p ++ [hi v, lo v])) cap check = .ok (p, p.length) := by
  have hcrc : ¬ crcAccepts (0x00 :: encLen p.length :: p) (if check then v else Config.crcSkip) = false := by
    rw [crcTest_fails_iff]
    rintro ⟨hcheck, hskip, hne⟩
    exact (hv hcheck).elim hskip hne
  rw [parseReply_shape, decLen_encLen hl, if_neg (by decide), if_neg (by decide), if_neg hcrc,
    if_neg (by omega), if_neg (by omega), List.take_length]

end

/-! ### FRAME.PARSE -/

section
variable {s : State}

/-- How FRAME.PARSE ends on the parser's answer. -/
def endParse (answer : Except Error (List Byte × Nat)) (s : State) : State :=
  match answer with
  | .ok (data, n) => finish { s.result with outcome := .ok, obuf := data, olen := n } s
  | .error e => raise e s

theorem exec_frameParse (h : s.phase = .idle) :
    exec .frameParse s = .next (endParse (parseReply s.host.ibuf s.host.cap s.host.check) s) :=
  execFrameParse_eq h

theorem endsKeeping_endParse (answer : Except Error (List Byte × Nat)) (s : State) :
    EndsKeeping s (endParse answer s) := by
  cases answer with
  | ok r => exact endsKeeping_finish _ s
  | error e => exact endsKeeping_raise e s

theorem endParse_chan (answer : Except Error (List Byte × Nat)) (s : State) : (endParse answer s).chan = s.chan := by
  cases answer with
  | ok r => rfl
  | error e => rfl

/-- An error of the parser is the operation's. -/
theorem exec_frameParse_error {e : Error} (h : s.phase = .idle)
    (hp : parseReply s.host.ibuf s.host.cap s.host.check = .error e) : exec .frameParse s = .next (raise e s) := by
  rw [exec_frameParse h, hp, endParse]

/-- A reply with status 0 whose trailer passes test (d) is parsed to its payload. -/
theorem exec_frameParse_payload {p : List Byte} {v : Word} (h : s.phase = .idle) (h1 : 1 ≤ p.length)
    (h256 : p.length ≤ 256) (hcap : p.length ≤ s.host.cap)
    (hbuf : s.host.ibuf = [0x02, 0x00, 0x00, encLen p.length] ++ p ++ [hi v, lo v])
    (hv : s.host.check = true → v = 0xABCD ∨ crc16 (0x00 :: encLen p.length :: p) = v) :
    ∃ t, exec .frameParse s = .next t ∧ EndsKeeping s t ∧ t.chan = s.chan ∧ t.result.outcome = .ok ∧
      t.result.obuf = p ∧ t.result.olen = p.length := by
  have hp : parseReply s.host.ibuf s.host.cap s.host.check = .ok (p, p.length) := by
    rw [hbuf]
    exact parseReply_payload (encodableLength_iff.2 ⟨h1, h256⟩) hcap hv
  have hrun := exec_frameParse h
  rw [hp] at hrun
  exact ⟨_, hrun, endsKeeping_finish _ s, rfl, rfl, rfl, rfl⟩

end

/-- Settles O8: the parser is the chain of tests the statement writes out, and each of its answers is reported with
its outcome and `INFO`. -/
theorem frameParseTestsInOrder : Obligations.FrameParseTestsInOrder := by
  refine ⟨rfl, fun s h buf len n rx hbuf hlen hrx hn => ?_⟩
  subst hbuf hlen
  refine ⟨_, exec_frameParse h, endsKeeping_endParse _ s, endParse_chan _ s, ?_⟩
  rw [parseReply_eq_tests _ _ _ hrx hn]
  split_ifs with hshort hheader hstatus hcrc hcap hroom
  · exact ⟨rfl, rfl⟩
  · rfl
  · exact ⟨rfl, rfl⟩
  · rfl
  · exact ⟨rfl, rfl⟩
  · exact ⟨rfl, rfl⟩
  · exact ⟨rfl, rfl, rfl⟩

/-- Settles O10: the sentinel passes test (d) before the span is looked at; the example's checksum is evaluated. -/
theorem sentinelTrailerPassesParser : Obligations.SentinelTrailerPassesParser := by
  refine ⟨fun s p h _ h1 h256 hcap hbuf => ?passes, by decide⟩
  case passes => exact exec_frameParse_payload (v := 0xABCD) h h1 h256 hcap hbuf fun _ => .inl rfl

/-! ### Replies built by hand -/

/-- A word altered in one bit is another word. -/
theorem xor_bit_ne (x : Word) {k : Nat} (hk : k < 16) : x ≠ x ^^^ (1#16 <<< k) := by
  intro h
  have hbit := congrArg (·.getLsbD k) h
  simp [hk] at hbit

/-- Settles O11: the true checksum passes test (d), and each rejection is the first test that applies to the
altered reply; a checksum altered in one bit is not the true one. -/
theorem replyFramesRoundTrip : Obligations.ReplyFramesRoundTrip := by
  intro s h
  refine ⟨fun p h1 h256 hcap hbuf => ?payload, fun hl => ?short, fun hl hh => ?header, fun hl hh hs => ?status,
    fun p body c k _ _ hcheck hk hbody hc hskip hbuf => ?checksum⟩
  case payload => exact exec_frameParse_payload h h1 h256 hcap hbuf fun _ => .inr rfl
  case short => exact ⟨_, exec_frameParse_error h (parseReply_tooShort hl _ _), rfl⟩
  case header => exact ⟨_, exec_frameParse_error h (parseReply_header hl hh), rfl⟩
  case status => exact ⟨_, exec_frameParse_error h (parseReply_status hl hh hs), rfl, rfl⟩
  case checksum =>
    have hne : crc16 body ≠ c := hc ▸ xor_bit_ne (crc16 body) hk
    subst hbody
    have hp : parseReply s.host.ibuf s.host.cap s.host.check = .error .checksumMismatch := by
      rw [hbuf, hcheck]
      exact parseReply_mismatch hskip hne
    exact ⟨_, exec_frameParse_error h hp, rfl⟩

end Sys2Proof.Machine
end

section
/-! SUPPORT. The transport adapter (42_transport.md): a link that will fail and what a read makes of it, and how a raw
transmission and an exact read end or wait. -/

namespace Sys2Proof.Machine

/-! ### Transmitting -/

/-- A transmission fails only on a link that fails and with a byte to hand over (42_transport.md R141). -/
theorem transmit_ne_ioFail {l : List LinkEvent} {bs : List Byte} {c c' : Channel}
    (h : noFail l = true ∨ bs = []) : transmit l bs c ≠ .ioFail c' := by
  intro hf
  obtain h | rfl := h
  · obtain ⟨c'', hs⟩ := transmit_calm h bs c
    rw [hf] at hs; cases hs
  · obtain ⟨k, hk, -⟩ := transmit_ioFail hf
    cases hk

/-- Settles O13: the transmission succeeds or fails; the transfer's laws say what each hands over, and that neither
reads from the queue. -/
theorem txWriteAllHandsOverEveryByte : Obligations.TxWriteAllHandsOverEveryByte := by
  refine ⟨rfl, fun s h => ⟨refuses_of_not_opened rfl h, fun ho => ?opened⟩⟩
  case opened =>
    have hrun : exec .txWriteAll s = runOn (.next (enterSend s.host.ibuf s)) := execTxWriteAll_opened h ho
    have hqueue := fun hd => transmit_unbounded (c := s.chan) hd s.chan.link s.host.ibuf
    cases htx : transmit s.chan.link s.host.ibuf s.chan with
    | sent c =>
      rw [htx] at hqueue
      exact ⟨_, hrun.trans (runSend_sent htx), (endsKeeping_finishWith _ _).of_chan, hqueue,
        .inl ⟨rfl, (transmit_sent htx).1⟩, fun _ => rfl⟩
    | ioFail c =>
      rw [htx] at hqueue
      obtain ⟨k, hk, out, -, hsent⟩ := transmit_ioFail htx
      refine ⟨_, hrun.trans (runSend_ioFail htx), (endsKeeping_raise _ _).of_chan, hqueue,
        .inr ⟨rfl, k, hk, ?_⟩, fun hn => absurd htx (transmit_ne_ioFail hn)⟩
      cases out with
      | false => exact .inl hsent
      | true => exact .inr hsent

/-! ### A link that will fail -/

/-- The queue is unbounded, and `bs` are the bytes queued and to come before the link's first failure, after which it
has the events `rest` left. -/
def FailsAfter (bs : List Byte) (rest : List LinkEvent) (c : Channel) : Prop :=
  c.rxDepth = none ∧ ∃ l sent, c.link = l ++ .fail sent :: rest ∧ noFail l = true ∧ c.rxFifo ++ arrivals l = bs

/-- A link does not fail if neither its next event nor a later one is a failure. -/
theorem noFail_cons {e : LinkEvent} {l : List LinkEvent} :
    noFail (e :: l) = true ↔ isFail e = false ∧ noFail l = true := by
  simp [noFail]

section
variable {rest : List LinkEvent} {sent : Bool}

/-- A byte that cuts in is one of the bytes before the failure, queued or to come. -/
theorem land_failsAfter {l : List LinkEvent} {c : Channel} (hd : c.rxDepth = none) (hl : noFail l = true) :
    FailsAfter (c.rxFifo ++ arrivals l) rest (land (l ++ .fail sent :: rest) c) := by
  induction l generalizing c with
  | nil => exact ⟨hd, [], sent, rfl, rfl, rfl⟩
  | cons e l ih =>
    cases e with
    | cutIn b =>
      have hpushed := ih (c := { c with rxFifo := c.rxFifo ++ [b] }) hd (noFail_cons.1 hl).2
      rw [List.cons_append, land, pushRx_unbounded b c hd]
      simpa [arrivals] using hpushed
    | arrive _ | elapse _ | ok | fail _ | latePoll => exact ⟨hd, _ :: l, sent, rfl, hl, rfl⟩

/-- A wait with an empty queue takes the first byte before the failure, or fails. -/
theorem waitArrival_failing {l : List LinkEvent} {c : Channel} (hd : c.rxDepth = none) (hq : c.rxFifo = [])
    (hl : noFail l = true) :
    (∃ c', waitArrival (l ++ .fail sent :: rest) c = .ioFail c' ∧ c'.link = rest) ∨
    ∃ b bs c', arrivals l = b :: bs ∧ waitArrival (l ++ .fail sent :: rest) c = .byte b c' ∧
      FailsAfter bs rest c' := by
  induction l generalizing c with
  | nil => exact .inl ⟨_, rfl, rfl⟩
  | cons e l ih =>
    obtain ⟨he, hl⟩ := noFail_cons.1 hl
    have htaken : FailsAfter (arrivals l) rest
        { c with rxFifo := [], link := l ++ .fail sent :: rest } := ⟨hd, l, sent, rfl, hl, rfl⟩
    cases e with
    | arrive b | cutIn b =>
      refine .inr ⟨b, arrivals l, _, rfl, ?_, htaken⟩
      rw [List.cons_append, waitArrival, pushRx_unbounded b c hd, hq]
      rfl
    | elapse k => exact ih (c := { c with now := c.now + k * tickMs c }) hd hq hl
    | ok | latePoll => exact ih hd hq hl
    | fail _ => cases he

/-- A failure that comes next ends the wait, whether a byte is queued or not (60_exceptions.md R208). -/
theorem takeByte_fail {c : Channel} (h : c.link = .fail sent :: rest) :
    ∃ c', takeByte c = .ioFail c' ∧ c'.link = rest := by
  unfold takeByte
  cases c.rxFifo with
  | nil => exact ⟨_, by rw [h]; rfl, rfl⟩
  | cons b q => exact ⟨_, by rw [h], rfl⟩

/-- Any other event lets a queued byte be taken; an `ok` is the answer to just that (log 4). -/
theorem takeByte_queued {b : Byte} {q : List Byte} {e : LinkEvent} {l : List LinkEvent} {c : Channel}
    (hq : c.rxFifo = b :: q) (hlink : c.link = e :: l) (he : isFail e = false) :
    takeByte c = .byte b { c with rxFifo := q, link := if e = .ok then l else e :: l } := by
  rw [takeByte, hq, hlink]
  cases e with
  | ok | arrive _ | cutIn _ | elapse _ | latePoll => rfl
  | fail _ => cases he

theorem rxByte_fail {c : Channel} (h : c.link = .fail sent :: rest) :
    ∃ c', rxByte c = .ioFail c' ∧ c'.link = rest := by
  have hland : land c.link c = c := by rw [h, land_quiet (by simp [isCutIn]), ← h]
  rw [rxByte, hland]
  exact takeByte_fail h

/-- A transfer takes the oldest of the bytes before the failure, or fails. -/
theorem takeByte_failing {bs : List Byte} {c : Channel} (h : FailsAfter bs rest c) :
    (∃ c', takeByte c = .ioFail c' ∧ c'.link = rest) ∨
    ∃ b bs' c', bs = b :: bs' ∧ takeByte c = .byte b c' ∧ FailsAfter bs' rest c' := by
  obtain ⟨hd, l, sent, hlink, hl, rfl⟩ := h
  cases hq : c.rxFifo with
  | nil =>
    have htake : takeByte c = waitArrival (l ++ .fail sent :: rest) c := by rw [takeByte, hq, hlink]
    rw [htake]
    exact waitArrival_failing hd hq hl
  | cons b q =>
    cases l with
    | nil => exact .inl (takeByte_fail hlink)
    | cons e l =>
      obtain ⟨he, hl'⟩ := noFail_cons.1 hl
      refine .inr ⟨b, q ++ arrivals (e :: l), _, rfl, takeByte_queued hq hlink he, hd, ?_⟩
      cases e with
      | ok => exact ⟨l, sent, rfl, hl', rfl⟩
      | arrive _ | cutIn _ | elapse _ | latePoll => exact ⟨_ :: l, sent, rfl, hl, rfl⟩
      | fail _ => cases he

/-- One byte of a read on a link that will fail: the oldest of those before the failure, or the failure, which may
come although bytes are queued (60_exceptions.md R208). -/
theorem rxByte_failing {bs : List Byte} {c : Channel} (h : FailsAfter bs rest c) :
    (∃ c', rxByte c = .ioFail c' ∧ c'.link = rest) ∨
    ∃ b bs' c', bs = b :: bs' ∧ rxByte c = .byte b c' ∧ FailsAfter bs' rest c' := by
  obtain ⟨hd, l, sent, hlink, hl, rfl⟩ := h
  rw [rxByte, hlink]
  exact takeByte_failing (land_failsAfter hd hl)

/-- A read that needs more bytes than come before the failure fails (42_transport.md R142, R149). -/
theorem readMore_failing {k : Nat} {bs acc : List Byte} {c : Channel} (h : FailsAfter bs rest c) (hk : bs.length < k) :
    ∃ c', readMore k acc c = .ioFail c' ∧ c'.link = rest := by
  induction k generalizing bs acc c with
  | zero => cases hk
  | succ k ih =>
    obtain ⟨c', hr, hlink⟩ | ⟨b, bs, c', rfl, hr, hc'⟩ := rxByte_failing h
    · exact ⟨c', by rw [readMore, hr], hlink⟩
    · rw [readMore, hr]
      exact ih hc' (Nat.lt_of_succ_lt_succ hk)

end

/-! ### How an exact read ends or waits -/

section
variable {s : State} {n : Nat}

/-- Enough bytes on a link that does not fail: the oldest `n`, the rest still to be read (42_transport.md R142). -/
theorem runRead_calm (hc : calm s.chan = true) (hn : n ≤ (pendingRx s.chan).length) :
    ∃ c, runOn (.next (enterRead n s)) = .next (finish { s.result with
        outcome := .ok, obuf := (pendingRx s.chan).take n, olen := n } { s with chan := c }) ∧
      c.tx = s.chan.tx ∧ pendingRx c = (pendingRx s.chan).drop n := by
  obtain ⟨c, hr, -, hp, htx⟩ := readMore_calm [] hc hn
  exact ⟨c, runRead_done hr, htx, hp⟩

/-- Too few: all of them, and it waits (42_transport.md R142). -/
theorem runRead_short (hc : calm s.chan = true) (hn : (pendingRx s.chan).length < n) :
    ∃ c, runOn (.next (enterRead n s)) = .next (suspend .rxWait
        { Work.clear with job := .readExact n, acc := pendingRx s.chan } { s with chan := c }) ∧
      c.tx = s.chan.tx ∧ pendingRx c = [] := by
  obtain ⟨c, hr, -, hq, hlink, htx⟩ := readMore_short [] hc hn
  exact ⟨c, runRead_waiting hr, htx, by rw [pendingRx, hq, hlink]; rfl⟩

/-- A read that fails has sent nothing. -/
theorem runRead_fails {c : Channel} (hr : readMore n [] s.chan = .ioFail c) :
    runOn (.next (enterRead n s)) = .next (raise .ioFailure { s with chan := c }) ∧ c.tx = s.chan.tx := by
  have htx := readMore_tx n [] s.chan
  rw [hr] at htx
  exact ⟨runRead_ioFail hr, htx⟩

end

/-- Settles O15: a read of no bytes leaves the channel as it is; with bytes asked for, it takes them, waits, or meets
the failure before it has them. -/
theorem readExactTakesOldestBytes : Obligations.ReadExactTakesOldestBytes := by
  refine ⟨rfl, fun s h => ⟨refuses_of_not_opened rfl h, fun ho => ?_⟩⟩
  have hrun : exec .rxReadExact s = runOn (.next (enterRead s.host.n s)) := execRxReadExact_opened h ho
  rw [hrun]
  refine ⟨fun hn => ?none, fun hc hn => ?enough, fun hc hn => ?short, fun l sent rest hd hlink hl hn => ?failing⟩
  case none =>
    rw [hn]
    exact ⟨_, runRead_done rfl, (endsKeeping_finish _ _).of_chan, rfl, rfl, rfl, rfl⟩
  case enough =>
    obtain ⟨c, hread, htx, hp⟩ := runRead_calm hc hn
    exact ⟨_, hread, (endsKeeping_finish _ _).of_chan, htx, rfl, rfl, rfl, hp⟩
  case short =>
    obtain ⟨c, hread, htx, hp⟩ := runRead_short hc hn
    exact ⟨_, hread, (waitsKeeping_suspend _ (nofun : Phase.rxWait ≠ .idle) _).of_chan, htx, rfl, rfl, hp⟩
  case failing =>
    obtain ⟨c, hr, hrest⟩ := readMore_failing ⟨hd, l, sent, hlink, hl, rfl⟩ hn
    obtain ⟨hread, htx⟩ := runRead_fails hr
    exact ⟨_, hread, (endsKeeping_raise _ _).of_chan, htx, hrest, rfl⟩

/-- Settles O16: both operations enter the same read; the rest are the ends of a read of one byte. -/
theorem readByteIsReadExactOfOne : Obligations.ReadByteIsReadExactOfOne := by
  refine ⟨rfl, fun s h => ⟨refuses_of_not_opened rfl h, fun ho => ?_⟩⟩
  have hrun : exec .rxReadByte s = runOn (.next (enterRead 1 s)) := execRxReadByte_opened h ho
  rw [hrun]
  refine ⟨fun hn => ?same, fun b rest hc hp => ?byte, fun hc hp => ?silent, fun sent rest hlink => ?failing⟩
  case same =>
    have hexact : exec .rxReadExact s = runOn (.next (enterRead s.host.n s)) := execRxReadExact_opened h ho
    rw [hexact, hn]
  case byte =>
    obtain ⟨c, hread, htx, hpend⟩ := runRead_calm (s := s) (n := 1) hc (by simp [hp])
    rw [hp] at hread hpend
    exact ⟨_, hread, (endsKeeping_finish _ _).of_chan, htx, rfl, rfl, rfl, hpend⟩
  case silent =>
    obtain ⟨c, hread, htx, hpend⟩ := runRead_short (s := s) (n := 1) hc (by simp [hp])
    exact ⟨_, hread, (waitsKeeping_suspend _ (nofun : Phase.rxWait ≠ .idle) _).of_chan, htx, hpend⟩
  case failing =>
    obtain ⟨c, hr, -⟩ := rxByte_fail hlink
    have hread : readMore 1 [] s.chan = .ioFail c := by rw [readMore, hr]
    obtain ⟨hfails, htx⟩ := runRead_fails hread
    exact ⟨_, hfails, (endsKeeping_raise _ _).of_chan, htx, rfl⟩

end Sys2Proof.Machine
end

section
/-! SUPPORT. The command/reply engine (43_command_reply.md): when its operations are refused, what the link makes of a
command, and what a command says of a reply of the length it waits for. -/

namespace Sys2Proof.Machine

/-! ### Refusals -/

/-- An operation that tests its operands behind the session guard is refused where either turns it away, before
anything is sent (43_command_reply.md R162, R165). -/
theorem refuses_of_guard {i : Instr} {s u : State} {inDomain : Bool}
    (hrun : exec i s = runOn (whenOpen s (.next (if inDomain then u else raise .refused s)))) (h : s.phase = .idle)
    (hg : s.session ≠ .opened ∨ inDomain = false) : refuses i s := by
  have hraise : exec i s = .next (raise .refused s) := by
    by_cases ho : s.session = .opened
    · obtain rfl := hg.resolve_left (not_not_intro ho)
      rw [hrun, runOn_whenOpen, whenOpen_opened h ho]
      exact runOn_idle (raise_phase _ _)
    · rw [hrun, runOn_whenOpen, whenOpen_closed h ho]
  exact ⟨_, hraise, endsKeeping_raise _ _, rfl, rfl⟩

theorem writeDomain_iff {o : Operands} : writeDomain o = true ↔ o.ibuf ≠ [] ∧ o.ibuf.length ≤ 256 := by
  rw [writeDomain, encodableLength_iff, Nat.one_le_iff_ne_zero, ne_eq, List.length_eq_zero_iff]

theorem readDomain_iff {o : Operands} : readDomain o = true ↔ 1 ≤ o.n ∧ o.n ≤ 256 := encodableLength_iff

/-! ### Transmitting on a link that will fail -/

/-- With nothing left to hand over the link is not asked. -/
theorem transmit_nothing (l : List LinkEvent) (c : Channel) : transmit l [] c = .sent { c with link := l } := by
  cases l with
  | nil => simp
  | cons e l => cases e <;> simp [transmit]

/-- The transmission meets the failure, or it ends before and what is to be read up to the failure is the same. -/
theorem transmit_failing {rest : List LinkEvent} {sent : Bool} {l : List LinkEvent} (bytes : List Byte) {c : Channel}
    (hd : c.rxDepth = none) (hl : noFail l = true) :
    (∃ c', transmit (l ++ .fail sent :: rest) bytes c = .ioFail c' ∧ c'.link = rest) ∨
    ∃ c', transmit (l ++ .fail sent :: rest) bytes c = .sent c' ∧ FailsAfter (c.rxFifo ++ arrivals l) rest c' := by
  induction l generalizing bytes c with
  | nil =>
    cases bytes with
    | nil => exact .inr ⟨_, transmit_nothing _ _, hd, [], sent, rfl, rfl, rfl⟩
    | cons b bs => exact .inl ⟨_, rfl, rfl⟩
  | cons e l ih =>
    have hl' : noFail l = true := (noFail_cons.1 hl).2
    cases bytes with
    | nil => exact .inr ⟨_, transmit_nothing _ _, hd, e :: l, sent, rfl, hl, rfl⟩
    | cons b bs =>
      cases e with
      | cutIn x =>
        have hpushed := ih (b :: bs) (c := { c with rxFifo := c.rxFifo ++ [x] }) hd hl'
        rw [List.cons_append, transmit, pushRx_unbounded x c hd]
        simpa [arrivals] using hpushed
      | ok => exact ih bs (c := { c with tx := c.tx ++ [b], link := l ++ .fail sent :: rest }) hd hl'
      | arrive _ | elapse _ | latePoll => exact .inr ⟨_, rfl, hd, _ :: l, sent, rfl, hl, rfl⟩
      | fail _ => cases (noFail_cons.1 hl).1

/-! ### How a command ends or waits -/

section
variable {s : State} {f : FrameFields} {job : Job} (hj : isCommand job = true)
include hj

/-- The whole reply, on a link that does not fail: the frame is out and the job completes with just that reply
(43_command_reply.md R160). -/
theorem runCommand_calm {reply rest : List Byte} (hc : calm s.chan = true) (hl : reply.length = jobBytes job)
    (hp : pendingRx s.chan = reply ++ rest) :
    ∃ c, runOn (.next (enterCommand f job s)) = .next (completeJob job reply { s with chan := c }) ∧
      c.tx = s.chan.tx ++ buildFrame f ∧ pendingRx c = rest := by
  obtain ⟨c, hsent⟩ := transmit_calm (calm_iff.1 hc).2 (buildFrame f) s.chan
  have hpc : pendingRx c = reply ++ rest := (transmit_pendingRx (calm_iff.1 hc).1 hsent).trans hp
  have henough : jobBytes job ≤ (pendingRx c).length := by simp [hpc, hl]
  obtain ⟨c', hr, -, hrest, htx⟩ := readMore_calm [] (transmit_calm_later hc hsent) henough
  rw [hpc, ← hl] at hr hrest
  simp only [List.nil_append, List.take_left, List.drop_left] at hr hrest
  exact ⟨c', runCommand_done hj hsent (hl ▸ hr), htx.trans (transmit_sent hsent).1, hrest⟩

/-- A reply that is not all there: the frame is out and the command waits for the rest
(70_reset_and_hazards.md R237). -/
theorem runCommand_short (hc : calm s.chan = true) (hn : (pendingRx s.chan).length < jobBytes job) :
    ∃ t, runOn (.next (enterCommand f job s)) = .next t ∧ WaitsKeeping s t ∧
      t.chan.tx = s.chan.tx ++ buildFrame f ∧ pendingRx t.chan = [] := by
  obtain ⟨c, hsent⟩ := transmit_calm (calm_iff.1 hc).2 (buildFrame f) s.chan
  rw [← transmit_pendingRx (calm_iff.1 hc).1 hsent] at hn
  obtain ⟨c', hr, -, hq, hlink, htx⟩ := readMore_short [] (transmit_calm_later hc hsent) hn
  refine ⟨_, runCommand_waiting hj hsent hr, (waitsKeeping_suspend _ (nofun : Phase.rxWait ≠ .idle) _).of_chan,
    htx.trans (transmit_sent hsent).1, ?_⟩
  rw [suspend_chan, pendingRx, hq, hlink]
  rfl

/-- A link that fails before the reply is there, while the frame goes out or afterwards: `E_IO`. -/
theorem runCommand_failing {bs : List Byte} {rest : List LinkEvent} (h : FailsAfter bs rest s.chan)
    (hn : bs.length < jobBytes job) :
    ∃ t, runOn (.next (enterCommand f job s)) = .next t ∧ EndsKeeping s t ∧ t.chan.link = rest ∧
      t.result.outcome = .eIo := by
  suffices hrun : ∃ c, runOn (.next (enterCommand f job s)) = .next (raise .ioFailure { s with chan := c }) ∧
      c.link = rest by
    obtain ⟨c, hrun, hlink⟩ := hrun
    exact ⟨_, hrun, (endsKeeping_raise _ _).of_chan, hlink, rfl⟩
  obtain ⟨hd, l, sent, hlink, hl, rfl⟩ := h
  obtain ⟨c, hfail, hrest⟩ | ⟨c, hsent, hc⟩ := transmit_failing (rest := rest) (sent := sent) (buildFrame f) hd hl
  · rw [← hlink] at hfail
    exact ⟨c, runCommand_ioFail hj hfail, hrest⟩
  · rw [← hlink] at hsent
    obtain ⟨c', hr, hrest⟩ := readMore_failing (acc := []) hc hn
    exact ⟨c', runCommand_readFails hj hsent hr, hrest⟩

end

/-! ### What a command says of a reply of the length it waits for -/

/-- The tests of R123 on `n + 6` bytes: with as much room as capacity, neither too short nor short of room. -/
theorem parseReply_full {r : List Byte} {n : Nat} (hl : r.length = n + 6) :
    parseReply r n true =
      if r.getD 0 0x00 ≠ 0x02 ∨ r.getD 1 0x00 ≠ 0x00 then .error .invalidHeader
      else if r.getD 2 0x00 ≠ 0x00 then .error (.deviceError (r.getD 2 0x00))
      else if be (r.getD (n + 4) 0x00) (r.getD (n + 5) 0x00) ≠ 0xABCD ∧
          crc16 ((r.drop 2).take (n + 2)) ≠ be (r.getD (n + 4) 0x00) (r.getD (n + 5) 0x00) then
        .error .checksumMismatch
      else if n < decLen (r.getD 3 0x00) then .error (.shortReply .overCapacity)
      else .ok ((r.drop 4).take (decLen (r.getD 3 0x00)), decLen (r.getD 3 0x00)) := by
  have hspan : replySpan r = (r.drop 2).take (n + 2) := by rw [replySpan, hl]; rfl
  have htrailer : replyTrailer r = be (r.getD (n + 4) 0x00) (r.getD (n + 5) 0x00) := by rw [replyTrailer, hl]; rfl
  have hcrc : (be (r.getD (n + 4) 0x00) (r.getD (n + 5) 0x00) ≠ 0xABCD ∧
        crc16 ((r.drop 2).take (n + 2)) ≠ be (r.getD (n + 4) 0x00) (r.getD (n + 5) 0x00)) ↔
      crcAccepts (replySpan r) (if true then replyTrailer r else Config.crcSkip) = false := by
    rw [crcTest_fails_iff, hspan, htrailer, and_iff_right rfl]
  have hlong : ¬ r.length < Config.envelope := by rw [hl, Config.envelope]; omega
  have hroom : r.length - Config.envelope = n := by rw [hl, Config.envelope]; omega
  unfold parseReply byteAt
  by_cases hcap : n < decLen (r.getD 3 0x00)
  · simp only [hcrc, hroom, if_neg hlong, if_pos hcap]; rfl
  · simp only [hcrc, hroom, if_neg hlong, if_neg hcap]; rfl

/-- An `OK` has nothing to say in `INFO`. -/
theorem replyInfo_ok (r : List Byte) (info : Byte) : replyInfo r .ok info := ⟨nofun, nofun⟩

/-- The reply is right, and the parser returns the payload its length byte says; or it fails a test, and the error is
the one the outcome names. -/
theorem parseReply_full_cases {r : List Byte} {n : Nat} (hl : r.length = n + 6) :
    (replyOutcome n r = .ok ∧ decLen (r.getD 3 0x00) ≤ n ∧
      parseReply r n true = .ok ((r.drop 4).take (decLen (r.getD 3 0x00)), decLen (r.getD 3 0x00))) ∨
    ∃ e, parseReply r n true = .error e ∧ errorOutcome e = replyOutcome n r ∧
      ∀ k, replyInfo r (errorOutcome e) (errorInfo e k) := by
  rw [parseReply_full hl]
  unfold replyOutcome
  split_ifs with hheader hstatus hcrc hcap
  · exact .inr ⟨_, rfl, rfl, fun _ => ⟨nofun, nofun⟩⟩
  · exact .inr ⟨_, rfl, rfl, fun _ => ⟨fun _ => rfl, nofun⟩⟩
  · exact .inr ⟨_, rfl, rfl, fun _ => ⟨nofun, nofun⟩⟩
  · exact .inr ⟨_, rfl, rfl, fun _ => ⟨nofun, fun _ => rfl⟩⟩
  · exact .inl ⟨rfl, Nat.le_of_not_lt hcap, rfl⟩

theorem replyBytes_length (status : Byte) (p : List Byte) : (replyBytes status p).length = p.length + 6 := by
  simp [replyBytes]

/-- The reply of R128 with a status of 0 is right. -/
theorem replyOutcome_replyBytes {p : List Byte} (hp : encodableLength p.length = true) :
    replyOutcome p.length (replyBytes 0x00 p) = .ok := by
  have hparse : parseReply (replyBytes 0x00 p) p.length true = .ok (p, p.length) :=
    parseReply_payload hp (Nat.le_refl _) fun _ => .inr rfl
  obtain ⟨hok, -⟩ | ⟨e, he, -⟩ := parseReply_full_cases (replyBytes_length 0x00 p)
  · exact hok
  · rw [hparse] at he; cases he

/-! ### CMD.WRITE -/

/-- Seven bytes taken as an acknowledgement end CMD.WRITE with what the tests say of them (43_command_reply.md R161,
R163). -/
theorem completeJob_writeAck_done_reports {reply : List Byte} {s t : State} (hl : reply.length = 7)
    (ht : completeJob (.writeAck .done) reply s = t) :
    EndsKeeping s t ∧ t.chan = s.chan ∧ t.result.outcome = replyOutcome 1 reply ∧
      replyInfo reply t.result.outcome t.result.info := by
  obtain ⟨hok, -, hparse⟩ | ⟨e, hparse, hout, hinfo⟩ := parseReply_full_cases hl
  · obtain rfl := (completeJob_writeAck_ok s hparse).symm.trans ht
    exact ⟨endsKeeping_finishWith _ s, rfl, hok.symm, replyInfo_ok _ _⟩
  · obtain rfl := (completeJob_writeAck_error s hparse).symm.trans ht
    exact ⟨endsKeeping_raise e s, rfl, hout, hinfo _⟩

/-- Settles O22: the operation is refused by its guard; otherwise it is a command whose job completes with an
acknowledgement, and the link lets it complete, wait or fail. -/
theorem cmdWriteValidatesAcknowledgement : Obligations.CmdWriteValidatesAcknowledgement := by
  refine ⟨rfl, fun s h => ⟨fun hg => refuses_of_guard (inDomain := writeDomain s.host) rfl h (hg.imp_right ?domain),
    fun ho hne h256 => ?opened⟩⟩
  case domain =>
    intro hlen
    rw [← Bool.not_eq_true, writeDomain_iff]
    rintro ⟨hne, h256⟩
    exact hlen.elim hne (Nat.not_lt_of_le h256)
  case opened =>
    have hrun : exec .cmdWrite s =
        runOn (.next (enterCommand (writeFields s.host.addr s.host.ibuf) (.writeAck .done) s)) :=
      execCmdWrite_opened h ho (writeDomain_iff.2 ⟨hne, h256⟩)
    rw [hrun]
    refine ⟨fun reply rest hc hl hp => ?reply, runCommand_short (job := .writeAck .done) rfl,
      fun l sent rest hd hlink hl hn => ?failing⟩
    case reply =>
      obtain ⟨c, hcmd, htx, hrest⟩ := runCommand_calm (job := .writeAck .done) rfl hc hl hp
      obtain ⟨hends, hchan, hout, hinfo⟩ := completeJob_writeAck_done_reports (s := { s with chan := c }) hl rfl
      refine ⟨_, hcmd, hends.of_chan, hchan ▸ htx, hchan ▸ hrest, hout, hinfo, ?_⟩
      rintro ack rfl
      exact hout.trans (replyOutcome_replyBytes (p := [ack]) rfl)
    case failing => exact runCommand_failing rfl ⟨hd, l, sent, hlink, hl, rfl⟩ hn

/-! ### CMD.READ -/

/-- The `n + 6` bytes taken as a reply end CMD.READ with what the tests say of them, and with their payload if they
are right (43_command_reply.md R164). -/
theorem completeJob_readReply_reports {reply : List Byte} {n : Nat} {s t : State} (hl : reply.length = n + 6)
    (ht : completeJob (.readReply n) reply s = t) :
    EndsKeeping s t ∧ t.chan = s.chan ∧ t.result.outcome = replyOutcome n reply ∧
      replyInfo reply t.result.outcome t.result.info ∧
      (t.result.outcome = .ok → t.result.olen = decLen (reply.getD 3 0x00) ∧
        t.result.obuf = (reply.drop 4).take t.result.olen ∧ 1 ≤ t.result.olen ∧ t.result.olen ≤ n) ∧
      (isError t.result.outcome = true → ∃ k, t.result.obuf = Config.freeBytes k) := by
  obtain ⟨hok, hcap, hparse⟩ | ⟨e, hparse, hout, hinfo⟩ := parseReply_full_cases hl
  · have hpos : 1 ≤ decLen (reply.getD 3 0x00) := (encodableLength_iff.1 (encodableLength_decLen _)).1
    obtain rfl := (completeJob_readReply_ok s hparse).symm.trans ht
    exact ⟨endsKeeping_finish _ s, rfl, hok.symm, replyInfo_ok _ _, fun _ => ⟨rfl, rfl, hpos, hcap⟩, nofun⟩
  · obtain rfl := (completeJob_readReply_error s hparse).symm.trans ht
    exact ⟨endsKeeping_raise e s, rfl, hout, hinfo _, fun hok => absurd hok (raise_outcome_ne_ok e s),
      fun _ => ⟨s.free, rfl⟩⟩

/-- Settles O23: as CMD.WRITE, with a job that completes with a reply of `N + 6` bytes. -/
theorem cmdReadExtractsPayload : Obligations.CmdReadExtractsPayload := by
  refine ⟨rfl, fun s h => ⟨fun hg => refuses_of_guard (inDomain := readDomain s.host) rfl h (hg.imp_right ?domain),
    fun ho h1 h256 => ?opened⟩⟩
  case domain =>
    intro hn
    rw [← Bool.not_eq_true, readDomain_iff]
    omega
  case opened =>
    have hrun : exec .cmdRead s =
        runOn (.next (enterCommand (readFields s.host.addr s.host.n) (.readReply s.host.n) s)) :=
      execCmdRead_opened h ho (readDomain_iff.2 ⟨h1, h256⟩)
    rw [hrun]
    refine ⟨fun reply rest hc hl hp => ?reply, runCommand_short (job := .readReply s.host.n) rfl,
      fun l sent rest hd hlink hl hn => ?failing⟩
    case reply =>
      obtain ⟨c, hcmd, htx, hrest⟩ := runCommand_calm (job := .readReply s.host.n) rfl hc hl hp
      obtain ⟨hends, hchan, hreports⟩ := completeJob_readReply_reports (s := { s with chan := c }) hl rfl
      exact ⟨_, hcmd, hends.of_chan, hchan ▸ htx, hchan ▸ hrest, hreports⟩
    case failing => exact runCommand_failing rfl ⟨hd, l, sent, hlink, hl, rfl⟩ hn

end Sys2Proof.Machine
end

section
/-! SUPPORT. SCAN.SET_TIMEOUT (44_scan_decoder.md R186): how a value outside the range ends it, and what an
acknowledgement, right or wrong, makes of the register. -/

namespace Sys2Proof.Machine

section
variable {s : State} (h : s.phase = .idle) (ho : s.session = .opened)
include h ho

/-- The validation comes first: a timeout of 0 ends the operation before anything is sent, … -/
theorem execScanSetTimeout_zero (hz : s.host.tmo = 0) : execScanSetTimeout s = .next (raise (.outOfRange .zero) s) := by
  unfold execScanSetTimeout startScanSetTimeout
  rw [runOn_whenOpen, whenOpen_opened h ho, if_pos hz, runOn_idle (raise_phase _ _)]

/-- … and so does one above the limit. -/
theorem execScanSetTimeout_tooLarge (hm : Config.timeoutMaxMs < s.host.tmo) :
    execScanSetTimeout s = .next (raise (.outOfRange .tooLarge) s) := by
  unfold execScanSetTimeout startScanSetTimeout
  rw [runOn_whenOpen, whenOpen_opened h ho, if_neg (Nat.ne_zero_of_lt hm), if_pos hm, runOn_idle (raise_phase _ _)]

end

theorem legalTimeout_iff {t : Nat} : legalTimeout t = true ↔ 1 ≤ t ∧ t ≤ 25500 := by
  rw [legalTimeout, Bool.and_eq_true, decide_eq_true_eq, decide_eq_true_eq]
  rfl

/-- Seven bytes taken as an acknowledgement end the operation with what the tests say of them, and only right ones
set the register. -/
theorem completeJob_setTimeout_reports {reply : List Byte} {tmo : Nat} {s t : State} {c : Channel}
    (hl : reply.length = 7) (ht : completeJob (.writeAck (.setTimeout tmo)) reply { s with chan := c } = t) :
    EndsKeeping (if replyOutcome 1 reply = .ok then { s with scanTimeout := tmo } else s) t ∧ t.chan = c ∧
      t.result.outcome = replyOutcome 1 reply ∧ replyInfo reply t.result.outcome t.result.info := by
  obtain ⟨hok, -, hparse⟩ | ⟨e, hparse, hout, hinfo⟩ := parseReply_full_cases hl
  · obtain rfl := (completeJob_writeAck_ok _ hparse).symm.trans ht
    rw [if_pos hok]
    exact ⟨(endsKeeping_finishWith _ _).of_chan (c := c), rfl, hok.symm, replyInfo_ok _ _⟩
  · obtain rfl := (completeJob_writeAck_error _ hparse).symm.trans ht
    rw [if_neg (hout ▸ raise_outcome_ne_ok e s)]
    exact ⟨(endsKeeping_raise _ _).of_chan, rfl, hout, hinfo _⟩

/-- Settles O38: a value outside the range is turned away before anything is sent; any other makes the operation a
write command whose job alone, completing with a right acknowledgement, writes the register. -/
theorem setTimeoutStoresOnlyAcknowledgedValue : Obligations.SetTimeoutStoresOnlyAcknowledgedValue := by
  refine ⟨rfl, fun s h => ⟨refuses_of_not_opened rfl h, fun ho => ⟨fun hz => ?zero, fun hm => ?tooLarge,
    fun h1 hmax => ?legal⟩⟩⟩
  case zero => exact ⟨_, execScanSetTimeout_zero h ho hz, endsKeeping_raise _ _, rfl, rfl, rfl⟩
  case tooLarge => exact ⟨_, execScanSetTimeout_tooLarge h ho hm, endsKeeping_raise _ _, rfl, rfl, rfl⟩
  case legal =>
    have hrun : exec .scanSetTimeout s =
        runOn (.next (enterCommand (writeFields s.params.addrScanTimeout [timeoutByte s.host.tmo])
          (.writeAck (.setTimeout s.host.tmo)) s)) :=
      execScanSetTimeout_opened h ho (legalTimeout_iff.2 ⟨h1, hmax⟩)
    have hj : isCommand (.writeAck (.setTimeout s.host.tmo)) = true := rfl
    rw [hrun]
    refine ⟨fun reply rest hc hl hp => ?reply, fun hc hn => ?short, fun l sent rest hd hlink hl hn => ?failing⟩
    case reply =>
      obtain ⟨c, hcmd, htx, hrest⟩ := runCommand_calm hj hc hl hp
      obtain ⟨hends, hchan, hout, hinfo⟩ := completeJob_setTimeout_reports (s := s) (c := c) hl rfl
      exact ⟨_, hcmd, hends, (congrArg _ hchan).trans htx, (congrArg _ hchan).trans hrest, hout, hinfo⟩
    case short =>
      obtain ⟨t, hcmd, hwaits, -⟩ := runCommand_short hj hc hn
      exact ⟨t, hcmd, hwaits⟩
    case failing =>
      obtain ⟨t, hcmd, hends, -, hio⟩ := runCommand_failing hj ⟨hd, l, sent, hlink, hl, rfl⟩ hn
      exact ⟨t, hcmd, hends, hio⟩

end Sys2Proof.Machine
end

section
/-! SUPPORT. What an error leaves behind (60_exceptions.md R211): an operation enters a phase or ends at once, and
whichever step ends it with an error does so through `raise`, on the state it started from but for what its transfers
did to the channel. -/

namespace Sys2Proof.Machine

/-! ### Ending with an error -/

/-- `t` is `s` after an error was taken: the transfers have moved the channel, and `raise` wrote the rest. -/
def Raised (s t : State) : Prop := ∃ e c, Moves s.chan c ∧ t = raise e { s with chan := c }

/-- Nothing is rolled back, and nothing but `OUTCOME` and `INFO` is specified (60_exceptions.md R211). -/
theorem Raised.rollsNothingBack {s t : State} (h : Raised s t) :
    EndsKeeping s t ∧ s.chan.tx <+: t.chan.tx ∧
    (∃ k, t.result = { unspecified k with outcome := t.result.outcome, info := t.result.info }) ∧
    (s.chan.rxDepth = none → pendingRx t.chan <:+ pendingRx s.chan) := by
  obtain ⟨e, c, hm, rfl⟩ := h
  exact ⟨(endsKeeping_raise _ _).of_chan, hm.later.sent, ⟨s.free, rfl⟩, hm.oldest⟩

/-- An accepted acknowledgement is no error. -/
theorem afterAck_not_error (next : AfterAck) (s : State) : isError (afterAck next s).result.outcome = false := by
  cases next <;> rfl

/-- A running operation that ends with an error has raised it. -/
theorem Ends.raised {s t : State} (h : Ends s t) (hs : s.phase ≠ .idle) (ht : t.phase = .idle)
    (he : isError t.result.outcome = true) : Raised s t := by
  cases h with
  | same => exact absurd ht hs
  | error e c hm => exact ⟨e, c, hm, rfl⟩
  | result r c hm hr => exact absurd he (Bool.eq_false_iff.1 hr)
  | acknowledged next c hm => exact absurd he (Bool.eq_false_iff.1 (afterAck_not_error next _))
  | phase p w c hm hp => exact absurd ht hp

/-! ### Starting -/

/-- What the start of an operation can lead to: an error, another end, or a phase. -/
inductive Starts (s : State) : State → Prop
  | error {t : State} (h : Raised s t) : Starts s t
  | ended {t : State} (hp : t.phase = .idle) (ho : isError t.result.outcome = false) : Starts s t
  | phase {p : Phase} {w : Work} {c : Channel} (h : Moves s.chan c) (hp : p ≠ .idle) :
    Starts s (enter p w { s with chan := c })

section
variable {s t u : State}

/-- An error before any transfer. -/
theorem Starts.raise (e : Error) : Starts s (raise e s) := .error ⟨e, s.chan, .refl _, rfl⟩

/-- A phase entered before any transfer. -/
theorem Starts.enter {p : Phase} {w : Work} (hp : p ≠ .idle) : Starts s (enter p w s) := .phase (.refl s.chan) hp

/-- Behind the session guard an operation starts as it does without it, or is refused. -/
theorem Starts.of_whenOpen (h : whenOpen s (.next u) = .next t) (hu : Starts s u) : Starts s t := by
  obtain ⟨-, ⟨-, hnext⟩ | ⟨-, rfl⟩⟩ := whenOpen_next h
  · cases hnext; exact hu
  · exact .raise _

theorem startSessionOpen_starts (h : startSessionOpen s = .next t) : Starts s t := by
  obtain ⟨-, hnext⟩ := whenIdle_next h
  cases hnext
  have hm := moves_discard s.chan
  split
  · split <;> rename_i c hd <;> rw [hd] at hm
    · exact .error ⟨_, c, hm, rfl⟩
    · exact .phase hm nofun
  · exact .raise _

theorem execRxDiscard_starts (h : execRxDiscard s = .next t) : Starts s t := by
  obtain ⟨-, rfl | ⟨c, hm, -, rfl | rfl⟩⟩ := execRxDiscard_next h
  · exact .raise _
  · exact .ended rfl rfl
  · exact .error ⟨_, c, hm, rfl⟩

theorem start_starts {i : Instr} (hi : ∀ status p crc, i ≠ .wireReply status p crc) (h : start i s = .next t) :
    Starts s t := by
  cases i with
  | crcCompute =>
    obtain ⟨-, rfl⟩ := execCrcCompute_next h
    exact .ended rfl rfl
  | crcVerify =>
    obtain ⟨-, rfl | rfl⟩ := execCrcVerify_next h
    · exact .ended rfl rfl
    · exact .raise _
  | frameBuild =>
    obtain ⟨-, hnext⟩ := whenIdle_next h
    cases hnext
    exact iteInduction (fun _ => .enter nofun) fun _ => .raise _
  | frameParse =>
    obtain ⟨-, hnext⟩ := whenIdle_next h
    cases hnext
    exact .enter nofun
  | txWriteAll | rxReadExact | rxReadByte | scanRead | wireWrite _ _ _ | wireRead _ _ _ | wirePersist _ =>
    exact .of_whenOpen h (.enter nofun)
  | rxReadDeadline => exact .of_whenOpen h (iteInduction (fun _ => .raise _) fun _ => .enter nofun)
  | cmdWrite | cmdRead => exact .of_whenOpen h (iteInduction (fun _ => .enter nofun) fun _ => .raise _)
  | scanSetTimeout =>
    exact .of_whenOpen h
      (iteInduction (fun _ => .raise _) fun _ => iteInduction (fun _ => .raise _) fun _ => .enter nofun)
  | rxDiscard => exact execRxDiscard_starts h
  | sessionOpen => exact startSessionOpen_starts h
  | sessionClose =>
    obtain ⟨-, rfl | ⟨-, tmo, rfl⟩⟩ := execSessionClose_next h
    · exact .raise _
    · exact .ended rfl rfl
  | wireReply status p crc => exact absurd rfl (hi status p crc)

/-! ### Running on to an error -/

/-- An operation that ends in the step that starts it is where its phases have left it: nothing is parked. -/
theorem runOn_ended {started : Exec} (h : runOn started = .next t) (ht : t.phase = .idle) :
    ∃ u, started = .next u ∧ settle phaseCount u = .next t := by
  obtain ⟨u, hu, hrun⟩ := andThen_eq_next.1 h
  obtain ⟨v, hv, hpark⟩ := andThen_eq_next.1 hrun
  cases hpark
  by_cases hi : v.phase = .idle
  · exact ⟨u, hu, hv.trans (congrArg _ (park_idle hi).symm)⟩
  · rw [park, if_neg hi] at ht
    exact absurd ht hi

/-- An operation that ends with an error in the step that starts it has raised it, at its start or in a phase. -/
theorem exec_raised {i : Instr} (hi : ∀ status p crc, i ≠ .wireReply status p crc) (h : exec i s = .next t)
    (ht : t.phase = .idle) (he : isError t.result.outcome = true) : Raised s t := by
  rw [exec_eq_runOn hi] at h
  obtain ⟨u, hu, hsettle⟩ := runOn_ended h ht
  cases start_starts hi hu with
  | error hr =>
    obtain ⟨e, c, hm, rfl⟩ := hr
    rw [settle_idle (raise_phase _ _)] at hsettle
    cases hsettle
    exact ⟨e, c, hm, rfl⟩
  | ended hp ho =>
    rw [settle_idle hp] at hsettle
    cases hsettle
    exact absurd he (Bool.eq_false_iff.1 ho)
  | phase hm hp =>
    obtain ⟨e, c, hm', rfl⟩ := (settle_ends hsettle).raised hp ht he
    exact ⟨e, c, hm.trans hm', rfl⟩

end

/-- Settles O50: an error ends an operation through `raise` alone, in the step that starts it or in a later one, and
`raise` writes no more than the result registers. -/
theorem errorsRollNothingBack : Obligations.ErrorsRollNothingBack := by
  rintro s t (⟨i, hi, h⟩ | ⟨hs, h⟩) ht he
  · exact (exec_raised hi h ht he).rollsNothingBack
  · exact ((advance_ends hs h).raised hs ht he).rollsNothingBack

end Sys2Proof.Machine
end

section
/-! SUPPORT. SESSION.OPEN (70_reset_and_hazards.md R230): what the discard that comes first makes of the link, and what
an acknowledgement, right or wrong, makes of the session and the default timeout. -/

namespace Sys2Proof.Machine

/-! ### The discard -/

section
variable {c : Channel}

/-- A link that does not fail next lets the queue be emptied; an `ok` is the answer to just that (log 4). -/
theorem discardRx_cons {e : LinkEvent} {l : List LinkEvent} (hlink : c.link = e :: l) (he : isFail e = false) :
    discardRx c = .sent { c with rxFifo := [], link := if e = .ok then l else e :: l } := by
  obtain ⟨rxFifo, tx, now, link, rxDepth, tick, lost⟩ := c
  obtain rfl : link = e :: l := hlink
  cases e with
  | ok | arrive _ | cutIn _ | elapse _ | latePoll => rfl
  | fail _ => cases he

/-- The discard uses up the link's events from the front. -/
theorem discardRx_link {c' : Channel} (h : discardRx c = .sent c') : c'.link <:+ c.link := by
  unfold discardRx at h
  split at h
  case h_1 => cases h
  case h_2 l hlink => cases h; exact hlink ▸ List.suffix_cons _ l
  case h_3 => cases h; exact List.suffix_rfl

/-- On a link that does not fail the discard succeeds, and leaves such a link and only what is yet to arrive. -/
theorem discardRx_of_calm (hc : calm c = true) :
    ∃ c', discardRx c = .sent c' ∧ calm c' = true ∧ c'.tx = c.tx ∧ pendingRx c' = arrivals c.link := by
  obtain ⟨hd, hl⟩ := calm_iff.1 hc
  have hhead : ∀ e ∈ c.link.head?, isFail e = false := by
    intro e he
    obtain ⟨l, hlink⟩ := List.head?_eq_some_iff.1 he
    rw [hlink] at hl
    exact (noFail_cons.1 hl).1
  obtain ⟨c', h⟩ := discardRx_calm hhead
  obtain ⟨hq, htx, -, harr⟩ := discardRx_sent h
  have hlater := discardRx_later c
  rw [h] at hlater
  exact ⟨c', h, calm_iff.2 ⟨hlater.depth.trans hd, noFail_suffix (discardRx_link h) hl⟩, htx,
    by rw [pendingRx, hq, harr, List.nil_append]⟩

/-- On a link that will fail the discard meets the failure, or leaves what is to arrive before it. -/
theorem discardRx_failing {l : List LinkEvent} {sent : Bool} {rest : List LinkEvent} (hd : c.rxDepth = none)
    (hlink : c.link = l ++ .fail sent :: rest) (hl : noFail l = true) :
    (∃ c', discardRx c = .ioFail c') ∨ ∃ c', discardRx c = .sent c' ∧ FailsAfter (arrivals l) rest c' := by
  cases l with
  | nil => exact .inl ⟨_, by rw [discardRx, hlink]; rfl⟩
  | cons e l =>
    obtain ⟨he, hl'⟩ := noFail_cons.1 hl
    refine .inr ⟨_, discardRx_cons hlink he, hd, ?_⟩
    cases e with
    | ok => exact ⟨l, sent, rfl, hl', rfl⟩
    | arrive _ | cutIn _ | elapse _ | latePoll => exact ⟨_ :: l, sent, rfl, hl, rfl⟩
    | fail _ => cases he

end

/-! ### The acknowledgement -/

/-- An accepted acknowledgement ends its operation with `OK` and leaves the channel alone. -/
theorem afterAck_reports (next : AfterAck) (s : State) :
    (afterAck next s).chan = s.chan ∧ (afterAck next s).result.outcome = .ok := by
  cases next <;> exact ⟨rfl, rfl⟩

/-- Seven bytes taken as an acknowledgement end a write command, or the operation around it, with what the tests say of
them, and only right ones write the registers that `afterAck` does, which make `u` of `s`. -/
theorem completeJob_writeAck_reports {next : AfterAck} {reply : List Byte} {s t u : State} {c : Channel}
    (hl : reply.length = 7) (hack : EndsKeeping u (afterAck next { s with chan := c }))
    (ht : completeJob (.writeAck next) reply { s with chan := c } = t) :
    EndsKeeping (if replyOutcome 1 reply = .ok then u else s) t ∧ t.chan = c ∧
      t.result.outcome = replyOutcome 1 reply ∧ replyInfo reply t.result.outcome t.result.info := by
  obtain ⟨hok, -, hparse⟩ | ⟨e, hparse, hout, hinfo⟩ := parseReply_full_cases hl
  · obtain rfl := (completeJob_writeAck_ok _ hparse).symm.trans ht
    obtain ⟨hchan, hack_ok⟩ := afterAck_reports next { s with chan := c }
    rw [if_pos hok, hok, hack_ok]
    exact ⟨hack, hchan, rfl, replyInfo_ok _ _⟩
  · obtain rfl := (completeJob_writeAck_error _ hparse).symm.trans ht
    rw [if_neg (hout ▸ raise_outcome_ne_ok e s)]
    exact ⟨(endsKeeping_raise _ _).of_chan, rfl, hout, hinfo _⟩

/-- A right acknowledgement opens the session with the default timeout, and nothing else. -/
theorem endsKeeping_afterAck_openSession (s : State) (c : Channel) :
    EndsKeeping { s with session := .opened, scanTimeout := 5000 } (afterAck .openSession { s with chan := c }) :=
  (endsKeeping_finishWith _ _).of_chan (c := c)

/-! ### The operation -/

/-- The decoding options have a length the write frame can encode (30_encoding.md R81). -/
theorem decodeOptsPayload_length (p : Params) :
    1 ≤ (decodeOptsPayload p).length ∧ (decodeOptsPayload p).length ≤ 256 := by
  rw [decodeOptsPayload, List.length_cons, List.length_take]
  omega

section
variable {s : State} (h : s.phase = .idle)
include h

/-- In an open session it is refused. -/
theorem refuses_sessionOpen (ho : s.session ≠ .closed) : refuses .sessionOpen s := by
  refine ⟨_, ?_, endsKeeping_raise .refused s, rfl, rfl⟩
  show runOn (startSessionOpen s) = _
  rw [startSessionOpen, runOn_whenIdle, whenIdle_idle h, if_neg ho, runOn_idle (raise_phase _ _)]

/-- A discard that succeeds lets the write command run on, … -/
theorem exec_sessionOpen_sent {c : Channel} (hs : s.session = .closed) (hd : discardRx s.chan = .sent c) :
    exec .sessionOpen s = runOn (.next (enterCommand
      (writeFields s.params.addrDecodeOpts (decodeOptsPayload s.params)) (.writeAck .openSession)
      { s with chan := c })) := by
  show execSessionOpen s = _
  rw [execSessionOpen_closed h hs, hd]

/-- … and one that fails ends the operation. -/
theorem exec_sessionOpen_ioFail {c : Channel} (hs : s.session = .closed) (hd : discardRx s.chan = .ioFail c) :
    exec .sessionOpen s = .next (raise .ioFailure { s with chan := c }) := by
  show execSessionOpen s = _
  rw [execSessionOpen_closed h hs, hd]

end

/-- Settles O40: after the discard the operation is a write command on what has yet to arrive, whose job alone,
completing with a right acknowledgement, opens the session. -/
theorem sessionOpenWritesOptionsThenOpens : Obligations.SessionOpenWritesOptionsThenOpens := by
  refine ⟨rfl, fun s h => ⟨refuses_sessionOpen h, fun hs => ?closed, decodeOptsPayload_length s.params⟩⟩
  have hj : isCommand (.writeAck .openSession) = true := rfl
  refine ⟨fun reply rest hc hl hp => ?reply, fun hc hn => ?short, fun l sent rest hd hlink hl hn => ?failing⟩
  case reply =>
    obtain ⟨c, hdisc, hcalm, hctx, hcp⟩ := discardRx_of_calm hc
    obtain ⟨c', hcmd, htx, hrest⟩ := runCommand_calm (s := { s with chan := c }) hj hcalm hl (hcp.trans hp)
    obtain ⟨hends, hchan, hreports⟩ := completeJob_writeAck_reports hl (endsKeeping_afterAck_openSession s c') rfl
    exact ⟨_, (exec_sessionOpen_sent h hs hdisc).trans hcmd, hends,
      (congrArg _ hchan).trans (htx.trans (congrArg (· ++ _) hctx)), (congrArg _ hchan).trans hrest, hreports⟩
  case short =>
    obtain ⟨c, hdisc, hcalm, hctx, hcp⟩ := discardRx_of_calm hc
    obtain ⟨t, hcmd, hwaits, htx, hrest⟩ := runCommand_short (s := { s with chan := c }) hj hcalm (hcp.symm ▸ hn)
    exact ⟨t, (exec_sessionOpen_sent h hs hdisc).trans hcmd, hwaits.of_chan, htx.trans (congrArg (· ++ _) hctx),
      hrest⟩
  case failing =>
    obtain ⟨c, hdisc⟩ | ⟨c, hdisc, hfails⟩ := discardRx_failing hd hlink hl
    · exact ⟨_, exec_sessionOpen_ioFail h hs hdisc, (endsKeeping_raise _ _).of_chan, rfl⟩
    · obtain ⟨t, hcmd, hends, -, hio⟩ := runCommand_failing (s := { s with chan := c }) hj hfails hn
      exact ⟨t, (exec_sessionOpen_sent h hs hdisc).trans hcmd, hends.of_chan, hio⟩

end Sys2Proof.Machine
end

section
/-! SUPPORT. Encoding (30_encoding.md R80 to R100): decoding and encoding undo each other on both ports, and a step runs
the instruction that what the host presents decodes to. -/

namespace Sys2Proof

/-! ### Decoding undoes encoding -/

/-- A well-formed reply decodes to its fields, and the decoder stops where it stops (30_encoding.md R84). -/
theorem decode_encode_wireReply (status : Byte) {p : List Byte} (crc : Word) (more : List Byte)
    (h : encodableLength p.length = true) :
    decode .wire (encode (.wireReply status p crc) ++ more) = .ok (.wireReply status p crc, more) := by
  have hb : encode (.wireReply status p crc) ++ more =
      Config.replyHdr :: Config.rsvd :: status :: encLen p.length :: (p ++ (hi crc :: lo crc :: more)) := by
    simp [encode]
  rw [hb]
  exact decodeReplyFrame_append status p crc more h

/-- The instructions of the host side are those of the table of 30_encoding.md R95, encoded by their selector. -/
theorem mem_hostOps_of_port {i : Instr} (h : i.port = .host) : ∃ op, (op, i) ∈ hostOps ∧ encode i = [op] := by
  cases i with
  | wireWrite _ _ _ | wireRead _ _ _ | wirePersist _ | wireReply _ _ _ => cases h
  | _ => exact ⟨_, by decide, rfl⟩

theorem decode_encode_host {i : Instr} (h : i.port = .host) : decode i.port (encode i) = .ok (i, []) := by
  obtain ⟨op, hm, he⟩ := mem_hostOps_of_port h
  rw [h, he]
  exact decode_host_of_mem hm

/-- An encoding that may be followed by anything may be followed by nothing. -/
theorem decode_encode_of_more {i : Instr} (hp : i.port = .wire)
    (h : ∀ more, decode .wire (encode i ++ more) = .ok (i, more)) : decode i.port (encode i) = .ok (i, []) := by
  rw [hp, ← List.append_nil (encode i)]
  exact h []

/-- Settles O58: on the host side by the table of selectors; on the wire side frame by frame, as the decoder splits what
the encoder joined. -/
theorem decodeUndoesEncode : Obligations.DecodeUndoesEncode := by
  intro i hi
  cases i with
  | wireWrite addr p crc =>
    have hmore := fun more => decode_encode_wireWrite addr crc more hi
    exact ⟨decode_encode_of_more rfl hmore, fun more _ _ => hmore more⟩
  | wireRead addr n crc =>
    have hmore := fun more => decode_encode_wireRead addr crc more hi
    exact ⟨decode_encode_of_more rfl hmore, fun more _ _ => hmore more⟩
  | wireReply status p crc =>
    have hmore := fun more => decode_encode_wireReply status crc more hi
    exact ⟨decode_encode_of_more rfl hmore, fun more _ _ => hmore more⟩
  | wirePersist rest => exact ⟨rfl, fun more _ hp => absurd rfl (hp rest)⟩
  | _ => exact ⟨decode_encode_host rfl, fun more hw _ => nomatch hw⟩

/-! ### Encoding undoes decoding -/

/-- The bytes are the encoding of a well-formed wire frame, and then `more`. -/
def WireEncoding (bytes : List Byte) (i : Instr) (more : List Byte) : Prop :=
  i.port = .wire ∧ i.wellFormed = true ∧ bytes = encode i ++ more

section
variable {tail more : List Byte} {i : Instr}

/-- On the host side only a selector decodes, and it leaves nothing (30_encoding.md R95). -/
theorem decode_host_ok {bytes : List Byte} (h : decode .host bytes = .ok (i, more)) :
    ∃ op, bytes = [op] ∧ decodeHost op = .ok i ∧ more = [] := by
  match bytes with
  | [] => cases h
  | _ :: _ :: _ => cases h
  | [op] =>
    rw [decode] at h
    cases hop : decodeHost op with
    | ok j => rw [hop] at h; cases h; exact ⟨op, rfl, hop, rfl⟩
    | error e => rw [hop] at h; cases h

theorem decodeWriteFrame_ok (h : decodeWriteFrame tail = .ok (i, more)) :
    WireEncoding (Config.start :: Config.rsvd :: Config.ftWrite :: tail) i more := by
  unfold decodeWriteFrame at h
  split at h
  case h_1 len ah al tail =>
    split at h
    case h_1 payload crc rest hsplit =>
      cases h
      obtain ⟨hlen, rfl⟩ := splitChecked_ok hsplit
      exact ⟨rfl, by simp [Instr.wellFormed, hlen], by simp [encode, hlen]⟩
    case h_2 => cases h
  case h_2 => cases h

theorem decodeReadFrame_ok (h : decodeReadFrame tail = .ok (i, more)) :
    WireEncoding (Config.start :: Config.rsvd :: Config.ftRead :: tail) i more := by
  unfold decodeReadFrame at h
  split at h
  case h_1 len ah al rl ch cl rest =>
    split at h
    case isTrue hlen =>
      cases h
      exact ⟨rfl, by simp [Instr.wellFormed], by simp [encode, hlen]⟩
    case isFalse => cases h
  case h_2 => cases h

theorem decodeReplyFrame_ok (h : decodeReplyFrame tail = .ok (i, more)) :
    WireEncoding (Config.replyHdr :: Config.rsvd :: tail) i more := by
  unfold decodeReplyFrame at h
  split at h
  case h_1 status len tail =>
    split at h
    case h_1 payload crc rest hsplit =>
      cases h
      obtain ⟨hlen, rfl⟩ := splitChecked_ok hsplit
      exact ⟨rfl, by simp [Instr.wellFormed, hlen], by simp [encode, hlen]⟩
    case h_2 => cases h
  case h_2 => cases h

theorem decodeCommandFrame_ok (h : decodeCommandFrame tail = .ok (i, more)) :
    WireEncoding (Config.start :: Config.rsvd :: tail) i more := by
  unfold decodeCommandFrame at h
  split at h
  case h_1 ft tail =>
    split_ifs at h with hwrite hread hpersist
    · exact hwrite ▸ decodeWriteFrame_ok h
    · exact hread ▸ decodeReadFrame_ok h
    · cases h
      exact ⟨rfl, rfl, by simp [encode, hpersist]⟩
  case h_2 => cases h

theorem decodeWire_ok {bytes : List Byte} (h : decodeWire bytes = .ok (i, more)) : WireEncoding bytes i more := by
  unfold decodeWire at h
  split at h
  case h_1 b0 b1 tail =>
    split_ifs at h with hcommand hreply
    · obtain ⟨rfl, rfl⟩ := hcommand
      exact decodeCommandFrame_ok h
    · obtain ⟨rfl, rfl⟩ := hreply
      exact decodeReplyFrame_ok h
  case h_2 => cases h

end

/-- Settles O59: a selector that decodes stands in the table with its operation; on the wire side each part of the
decoder answers only what the encoder would have written in front of the rest. -/
theorem decodedBytesAreTheEncoding : Obligations.DecodedBytesAreTheEncoding := by
  intro port bytes more i h
  cases port with
  | wire => exact decodeWire_ok h
  | host =>
    obtain ⟨op, rfl, hop, rfl⟩ := decode_host_ok h
    obtain ⟨he, hp, hw⟩ := hostOps_encode _ (decodeHost_mem hop)
    exact ⟨hp, hw, by simp [he]⟩

/-- Settles O60: by evaluation. -/
theorem specWordsDecode : Obligations.SpecWordsDecode := by
  unfold Obligations.SpecWordsDecode
  decide

namespace Machine

/-! ### What a step runs -/

theorem decodeHost_of_decode {op : Byte} {i : Instr} (h : decode .host [op] = .ok (i, [])) : decodeHost op = .ok i := by
  obtain ⟨_, hbytes, hop, -⟩ := decode_host_ok h
  cases hbytes
  exact hop

/-- Where no operation runs any may start; a reply may always (42_transport.md R150). -/
theorem mayStart_of {i : Instr} {s : State} (h : s.phase = .idle ∨ ∃ status p crc, i = .wireReply status p crc) :
    mayStart i s = true := by
  obtain h | ⟨status, p, crc, rfl⟩ := h
  · cases i <;> simp [mayStart, h]
  · rfl

section
variable {s : State} {o : Operands} {rest : List Request} {i : Instr}

theorem step_operation (h : s.phase = .idle) (hr : s.requests = .operation o :: rest) (hd : decodeHost o.op = .ok i) :
    step s = exec i { s with requests := rest, host := o } := by
  have hf : fetch s = .run i { s with requests := rest, host := o } := by
    unfold fetch; simp only [hr, h, if_true, hd]
  rw [step, hf]

theorem step_phased (h : s.phase = .idle) (hr : s.requests = .phased o :: rest) (hd : decodeHost o.op = .ok i) :
    step s = startPhased i { s with requests := rest, host := o } := by
  have hf : fetch s = .start i { s with requests := rest, host := o } := by
    unfold fetch; simp only [hr, h, if_true, hd]
  rw [step, hf]

theorem step_wire {bytes more : List Byte} (hm : mayStart i s = true) (hr : s.requests = .wire bytes :: rest)
    (hd : decodeWire bytes = .ok (i, more)) : step s = exec i { s with requests := leftover more ++ rest } := by
  have hf : fetch s = .run i { s with requests := leftover more ++ rest } := by
    unfold fetch; simp only [hr, hd, hm, if_true]
  rw [step, hf]

theorem step_no_request (hr : s.requests = []) : step s = advance s := by
  have hf : fetch s = .nothing s := by unfold fetch; simp only [hr]
  rw [step, hf]

theorem step_pause (hr : s.requests = .pause :: rest) : step s = advance { s with requests := rest } := by
  have hf : fetch s = .nothing { s with requests := rest } := by unfold fetch; simp only [hr]
  rw [step, hf]

end

/-- Settles O57: one request at a time, by what the fetch finds in it. -/
theorem stepRunsDecodedInstruction : Obligations.StepRunsDecodedInstruction := by
  refine ⟨fun s o rest i h hr hd => ?_, fun s o rest i h hr hd => ?_, fun s bytes more rest i hm hr hd => ?_,
    fun s hr => step_no_request hr, fun s rest hr => step_pause hr⟩
  · exact step_operation h hr (decodeHost_of_decode hd)
  · exact step_phased h hr (decodeHost_of_decode hd)
  · exact step_wire (mayStart_of hm) hr hd

end Machine

end Sys2Proof
end

section
/-! SUPPORT. The invariant (10_state.md section 3): what a running operation is in each phase, that a phase keeps it, and
that an operation which a step runs whole stops only where it waits. -/

namespace Sys2Proof.Machine

/-! ### A running operation -/

/-- The phase fits the running operation, which has the bytes it has by then: `phaseWork`, whatever the pace. -/
def phaseFits (s : State) : Prop :=
  match s.phase with
  | .idle => s.work = Work.clear
  | .build => s.work.acc = [] ∧ (s.work.job = .frameBuild ∨ isCommand s.work.job = true)
  | .tx => s.work.acc = [] ∧ (s.work.job = .send ∨ isCommand s.work.job = true)
  | .rxWait =>
    (∃ n tmo, s.work.job = .readDeadline n tmo) ∨
    (isCommand s.work.job = true ∨ ∃ n, s.work.job = .readExact n) ∧ s.work.acc.length ≤ jobBytes s.work.job
  | .parse =>
    (∃ cap check, s.work.job = .frameParse cap check) ∨
    isCommand s.work.job = true ∧ s.work.acc.length = jobBytes s.work.job
  | .scanFirst => s.work.job = .scanLines
  | .scanLines => s.work.job = .scanLines ∧ s.work.classCode ≠ Config.noResultCode

/-- An operation that has ended, or stands where it waits for the link (42_transport.md R143, 44_scan_decoder.md
R181). -/
def Waits (s : State) : Prop :=
  match s.phase with
  | .idle | .scanLines => True
  | .rxWait =>
    (isCommand s.work.job = true ∨ ∃ n, s.work.job = .readExact n) ∧ s.work.acc.length < jobBytes s.work.job
  | .build | .tx | .parse | .scanFirst => False

/-- Emitted lines are not empty and hold no terminator; nor does the line being accumulated. -/
def LinesClean (w : Work) : Prop :=
  (∀ line ∈ w.lines, line ≠ [] ∧ line.all dataByte = true) ∧ w.cur.all dataByte = true

/-- What holds of a state in the middle of a step as well: `Inv` but for what it says of the pace. -/
structure Running (s : State) : Prop where
  fits : phaseFits s
  startedBefore : s.work.tStart ≤ s.chan.now
  timeoutLegal : s.session = .opened → legalTimeout s.scanTimeout = true
  jobSession : jobSession s s.work.job
  queueFits : ∀ d, s.chan.rxDepth = some d → s.chan.rxFifo.length ≤ d
  linesClean : LinesClean s.work

theorem linesClean_clear : LinesClean Work.clear := ⟨nofun, rfl⟩

/-- Only the session of a state matters to what its job needs of it. -/
theorem jobSession_congr {s t : State} (h : t.session = s.session) {job : Job} (hj : jobSession s job) :
    jobSession t job := by
  unfold jobSession at hj ⊢
  rwa [h]

section
variable {s t : State}

theorem phaseWork_fits (h : phaseWork s) : phaseFits s := by
  unfold phaseWork at h
  unfold phaseFits
  split <;> rename_i hp <;> rw [hp] at h
  · exact h
  · exact h.2
  · exact h.2
  · exact h.imp And.right fun ⟨hjob, hle, _⟩ => ⟨hjob.symm, hle⟩
  · exact h.2
  · exact h.2
  · exact h

theorem Inv.running (h : Inv s) : Running s :=
  ⟨phaseWork_fits h.phaseWork, h.startedBefore, h.timeoutLegal, h.jobSession, h.queueFits, h.linesClean⟩

/-- An operation that runs whole stands between two steps only where it waits (log 5). -/
theorem Inv.waits (h : Inv s) (hw : s.work.pace = .whole) : Waits s := by
  have hb : s.work.pace ≠ .byPhase := by rw [hw]; nofun
  have hpw := h.phaseWork
  unfold Machine.phaseWork at hpw
  unfold Waits
  split <;> rename_i hp <;> rw [hp] at hpw
  · trivial
  · trivial
  · obtain ⟨hby, -⟩ | ⟨hjob, -, hlt⟩ := hpw
    · exact absurd hby hb
    · exact ⟨hjob.symm, hlt hw⟩
  all_goals exact hb hpw.1

/-- An operation that runs one phase a step may stand in any of its phases, one that runs whole only where it
waits. -/
theorem Running.inv (h : Running s) (hw : s.work.pace = .byPhase ∨ Waits s) : Inv s := by
  refine ⟨?_, h.startedBefore, h.timeoutLegal, h.jobSession, h.queueFits, h.linesClean⟩
  have hf := h.fits
  have hby : ¬ Waits s → s.work.pace = .byPhase := hw.resolve_right
  unfold phaseFits at hf
  unfold Waits at hw hby
  unfold Machine.phaseWork
  split <;> rename_i hp <;> rw [hp] at hf hw hby
  · exact hf
  · exact ⟨hby id, hf⟩
  · exact ⟨hby id, hf⟩
  · obtain ⟨n, tmo, hj⟩ | ⟨hjob, hle⟩ := hf
    · refine .inl ⟨hby fun ⟨hjob, _⟩ => ?_, n, tmo, hj⟩
      rw [hj] at hjob
      exact hjob.elim nofun nofun
    · exact .inr ⟨hjob.symm, hle, fun hwhole => hw.elim (fun hb => nomatch hwhole.symm.trans hb) And.right⟩
  · exact ⟨hby id, hf⟩
  · exact ⟨hby id, hf⟩
  · exact hf

/-- An operation that has ended leaves no more to show than a legal `SCAN_TIMEOUT`. -/
theorem Running.ended (h : Running s) (hm : s.chan.Later t.chan) (hp : t.phase = .idle) (hw : t.work = Work.clear)
    (ht : t.session = .opened → legalTimeout t.scanTimeout = true) : Running t := by
  refine ⟨?_, ?_, ht, ?_, fun d hd => hm.fits d (hm.depth ▸ hd) (h.queueFits d (hm.depth ▸ hd)), ?_⟩
  · unfold phaseFits; rw [hp]; exact hw
  · rw [hw]; exact Nat.zero_le _
  · rw [hw]; trivial
  · rw [hw]; exact linesClean_clear

theorem Running.endsKeeping (h : Running s) (hm : s.chan.Later t.chan) (ht : EndsKeeping s t) : Running t :=
  h.ended hm ht.phase ht.work fun ho => by
    rw [ht.scanTimeout]
    exact h.timeoutLegal (ht.session ▸ ho)

/-- An operation that enters a phase. -/
theorem Running.enters (h : Running s) {p : Phase} {w : Work} {c : Channel} (hm : s.chan.Later c)
    (hf : phaseFits (enter p w { s with chan := c })) (hs : w.tStart ≤ s.chan.now) (hj : Machine.jobSession s w.job)
    (hl : LinesClean w) : Running (enter p w { s with chan := c }) :=
  ⟨hf, hs.trans hm.time, h.timeoutLegal, hj, fun d hd => hm.fits d (hm.depth ▸ hd) (h.queueFits d (hm.depth ▸ hd)), hl⟩

end

/-! ### One phase of it -/

/-- How many phases an operation has left at most, the one it stands in included (10_state.md R24). -/
def phasesLeft : Phase → Nat
  | .idle => 0
  | .build => 4
  | .tx => 3
  | .rxWait => 2
  | .parse => 1
  | .scanFirst => 2
  | .scanLines => 1

/-- The outcomes of errors that a running job can end with, once its phases fit (60_exceptions.md R203, R204). -/
def JobError (job : Job) (e : Error) : Prop :=
  match job with
  | .none | .frameBuild => False
  | .frameParse _ _ => errorOutcome e ∈ [.eShort, .eHeader, .eStatus, .eCrc]
  | .send | .readExact _ => e = .ioFailure
  | .readDeadline _ _ => e = .ioFailure ∨ ∃ k, e = .partialRead k
  | .writeAck _ | .readReply _ => e = .ioFailure ∨ e = .invalidHeader ∨ (∃ code, e = .deviceError code) ∨
      e = .checksumMismatch ∨ e = .shortReply .overCapacity
  | .scanLines => e = .ioFailure ∨ ∃ code, e = .unsupportedType code

/-- The outcomes a running job can end with that are no errors, beside the `OK` of an acknowledgement. -/
def JobResult (job : Job) (o : OutcomeCode) : Prop :=
  match job with
  | .readDeadline _ _ => o = .ok ∨ o = .noData
  | .scanLines => o = .ok ∨ o = .noResult
  | .none | .frameBuild | .frameParse _ _ | .send | .readExact _ | .writeAck _ | .readReply _ => o = .ok

/-- A job that returns bytes in `OBUF` and their number in `OLEN` (30_encoding.md R97). -/
def returnsBytes : Job → Bool
  | .frameBuild | .frameParse _ _ | .readDeadline _ _ | .readExact _ | .readReply _ => true
  | .none | .send | .writeAck _ | .scanLines => false

/-- From `r` to `r'` a job that ends without an error writes, beside `OUTCOME`, only the registers it returns its results
in (30_encoding.md R97; log 7). -/
structure JobWrites (job : Job) (r r' : Results) : Prop where
  info : r'.info = r.info
  crcout : r'.crcout = r.crcout
  scan : job ≠ .scanLines → r'.scan = r.scan
  bytes : returnsBytes job = false → r'.obuf = r.obuf ∧ r'.olen = r.olen

/-- What one phase makes of a running operation: an end its job may have, the phase it waits in, or a later phase. -/
inductive Proceeds (s : State) : State → Prop
  | error (e : Error) (c : Channel) (h : Moves s.chan c) (he : JobError s.work.job e) :
    Proceeds s (raise e { s with chan := c })
  | result (r : Results) (c : Channel) (h : Moves s.chan c) (hr : JobResult s.work.job r.outcome)
    (hk : JobWrites s.work.job s.result r) : Proceeds s (finish r { s with chan := c })
  | acknowledged (next : AfterAck) (c : Channel) (h : Moves s.chan c) (hj : s.work.job = .writeAck next) :
    Proceeds s (afterAck next { s with chan := c })
  | phase (p : Phase) (w : Work) (c : Channel) (h : Moves s.chan c) (hj : w.job = s.work.job)
    (hpace : w.pace = s.work.pace) (hs : w.tStart = s.work.tStart) (hl : LinesClean s.work → LinesClean w)
    (hf : phaseFits (enter p w { s with chan := c })) (hi : p ≠ .idle)
    (hw : p = s.phase ∧ Waits (enter p w { s with chan := c }) ∨ phasesLeft p < phasesLeft s.phase) :
    Proceeds s (enter p w { s with chan := c })

section
variable {s t : State}

theorem Proceeds.goesOn (h : Proceeds s t) (hi : t.phase ≠ .idle) :
    t.work.job = s.work.job ∧ t.work.pace = s.work.pace ∧
      (t.phase = s.phase ∧ Waits t ∨ phasesLeft t.phase < phasesLeft s.phase) := by
  cases h with
  | error e c h he => exact absurd rfl hi
  | result r c h hr hk => exact absurd rfl hi
  | acknowledged next c h hj => exact absurd (by cases next <;> rfl) hi
  | phase p w c h hj hpace hs hl hf hi hw => exact ⟨hj, hpace, hw⟩

/-- Whatever a phase makes of a running operation meets the invariant, but for the pace. -/
theorem Proceeds.running (h : Proceeds s t) (hs : Running s) : Running t := by
  cases h with
  | error e c h he => exact hs.endsKeeping h.later (endsKeeping_raise e _).of_chan
  | result r c h hr hk => exact hs.endsKeeping h.later (endsKeeping_finish r _).of_chan
  | acknowledged next c h hj =>
    have hjs := hs.jobSession
    rw [hj] at hjs
    cases next with
    | done => exact hs.endsKeeping h.later (endsKeeping_finishWith .ok _).of_chan
    | setTimeout tmo => exact hs.ended h.later rfl rfl fun _ => hjs.2
    | openSession => exact hs.ended h.later rfl rfl fun _ => rfl
  | phase p w c h hj hpace hst hl hf hi hw =>
    exact hs.enters h.later hf (hst ▸ hs.startedBefore) (hj ▸ hs.jobSession) (hl hs.linesClean)

/-- A job ends with bytes it returns, … -/
theorem Proceeds.returned {o : OutcomeCode} {obuf : List Byte} {olen : Nat} {c : Channel} (h : Moves s.chan c)
    (hr : JobResult s.work.job o) (hb : returnsBytes s.work.job = true) :
    Proceeds s (finish { s.result with outcome := o, obuf := obuf, olen := olen } { s with chan := c }) :=
  .result _ c h hr ⟨rfl, rfl, fun _ => rfl, fun hn => absurd hb (Bool.eq_false_iff.1 hn)⟩

/-- … or with nothing but its outcome. -/
theorem Proceeds.finished {o : OutcomeCode} {c : Channel} (h : Moves s.chan c) (hr : JobResult s.work.job o) :
    Proceeds s (finishWith o { s with chan := c }) :=
  .result _ c h hr ⟨rfl, rfl, fun _ => rfl, fun _ => ⟨rfl, rfl⟩⟩

/-- What a job does with its bytes, once it has them all. -/
theorem completeJob_proceeds {acc : List Byte} {c : Channel} (hm : Moves s.chan c)
    (hj : (∃ n, s.work.job = .readExact n) ∨ (∃ cap check, s.work.job = .frameParse cap check) ∨
      isCommand s.work.job = true ∧ acc.length = jobBytes s.work.job) :
    Proceeds s (completeJob s.work.job acc { s with chan := c }) := by
  cases hjob : s.work.job with
  | readExact n => exact .returned hm (by rw [hjob]; rfl) (by rw [hjob]; rfl)
  | frameParse cap check =>
    cases hp : parseReply acc cap check with
    | ok r => rw [completeJob_frameParse_ok _ hp]; exact .returned hm (by rw [hjob]; rfl) (by rw [hjob]; rfl)
    | error e =>
      rw [completeJob_frameParse_error _ hp]
      refine .error e c hm ?_
      rw [hjob]
      obtain ⟨rfl, -⟩ | rfl | rfl | rfl | rfl | ⟨rfl, -⟩ := parseReply_error hp <;> simp [JobError, errorOutcome]
  | writeAck next =>
    have hlen : acc.length = 1 + 6 := by simpa [hjob, isCommand, jobBytes, Config.ackReplyLen] using hj
    obtain ⟨h, -⟩ | ⟨e, h, hp⟩ := completeJob_writeAck next acc { s with chan := c } <;> rw [h]
    · exact .acknowledged next c hm hjob
    · exact .error e c hm (by rw [hjob]; exact .inr (parseReply_error_full hlen hp))
  | readReply n =>
    have hlen : acc.length = n + 6 := by simpa [hjob, isCommand, jobBytes, Config.envelope] using hj
    cases hp : parseReply acc n true with
    | ok r => rw [completeJob_readReply_ok _ hp]; exact .returned hm (by rw [hjob]; rfl) (by rw [hjob]; rfl)
    | error e =>
      rw [completeJob_readReply_error _ hp]
      exact .error e c hm (by rw [hjob]; exact .inr (parseReply_error_full hlen hp))
  | none | frameBuild | send | readDeadline _ _ | scanLines => simp [hjob, isCommand] at hj

/-- An error of the link ends every job that uses it. -/
theorem jobError_ioFailure {job : Job} (h : job = .send ∨ isCommand job = true ∨ (∃ n, job = .readExact n) ∨
    (∃ n tmo, job = .readDeadline n tmo) ∨ job = .scanLines) : JobError job .ioFailure := by
  cases job with
  | none | frameBuild | frameParse _ _ => simp [isCommand] at h
  | send | readExact _ => rfl
  | readDeadline _ _ | writeAck _ | readReply _ | scanLines => exact .inl rfl

/-- A job that ends in BUILD, TX or RX_WAIT with all it has to do done reports `OK`. -/
theorem jobResult_ok (job : Job) : JobResult job .ok := by
  cases job with
  | readDeadline _ _ | scanLines => exact .inl rfl
  | none | frameBuild | frameParse _ _ | send | readExact _ | writeAck _ | readReply _ => rfl

theorem buildPhase_proceeds (hp : s.phase = .build) (hf : phaseFits s) : Proceeds s (buildPhase s) := by
  unfold phaseFits at hf
  rw [hp] at hf
  unfold buildPhase
  split
  case isTrue hj =>
    exact .phase .tx _ s.chan (.refl _) rfl rfl rfl id ⟨hf.1, .inr hj⟩ nofun (.inr (by rw [hp]; decide))
  case isFalse hj => exact .returned (.refl _) (jobResult_ok _) (by rw [hf.2.resolve_right hj]; rfl)

theorem txPhase_proceeds (hp : s.phase = .tx) (hf : phaseFits s) : Proceeds s (txPhase s) := by
  unfold phaseFits at hf
  rw [hp] at hf
  obtain ⟨hacc, hj⟩ := hf
  have hm := moves_transmit s.work.frame s.chan
  unfold txPhase
  split <;> rename_i c hr <;> rw [hr] at hm
  · exact .error _ c hm (jobError_ioFailure (hj.imp_right .inl))
  · split
    case isTrue hcmd =>
      exact .phase .rxWait _ c hm rfl rfl rfl id (.inr ⟨.inl hcmd, by simp [hacc]⟩) nofun (.inr (by rw [hp]; decide))
    case isFalse => exact .finished hm (jobResult_ok _)

theorem receive_proceeds (hp : s.phase = .rxWait) (hj : isCommand s.work.job = true ∨ ∃ n, s.work.job = .readExact n)
    (hle : s.work.acc.length ≤ jobBytes s.work.job) : Proceeds s (receive s) := by
  have hm := moves_readMore (jobBytes s.work.job - s.work.acc.length) s.work.acc s.chan
  obtain ⟨acc, c, hr, h⟩ | ⟨c, hr, h⟩ | ⟨acc, c, hr, h⟩ := receive_cases s <;> rw [hr] at hm <;> rw [h]
  · have hlen : acc.length = jobBytes s.work.job := by have := readMore_done_length hr; omega
    split
    case isTrue hcmd =>
      exact .phase .parse _ c hm rfl rfl rfl id (.inr ⟨hcmd, hlen⟩) nofun (.inr (by rw [hp]; decide))
    case isFalse hcmd => exact completeJob_proceeds hm (.inl (hj.resolve_left hcmd))
  · exact .error _ c hm (jobError_ioFailure (.inr (hj.imp_right .inl)))
  · have hlt : acc.length < jobBytes s.work.job := by have := readMore_waiting_length hr; omega
    exact .phase .rxWait _ c hm rfl rfl rfl id (.inr ⟨hj, hlt.le⟩) nofun (.inl ⟨hp.symm, hj, hlt⟩)

theorem receiveUntil_proceeds {n tmo : Nat} (hj : s.work.job = .readDeadline n tmo) :
    Proceeds s (receiveUntil n tmo s) := by
  have hm := moves_readFrom s.work.tStart n tmo s.chan
  unfold receiveUntil
  split <;> rename_i hr <;> rw [hr] at hm
  · exact .returned hm (jobResult_ok _) (by rw [hj]; rfl)
  · exact .returned hm (by rw [hj]; exact .inr rfl) (by rw [hj]; rfl)
  · exact .error _ _ hm (by rw [hj]; exact .inr ⟨_, rfl⟩)
  · exact .error _ _ hm (by rw [hj]; exact .inl rfl)

theorem rxPhase_proceeds (hp : s.phase = .rxWait) (hf : phaseFits s) : Proceeds s (rxPhase s) := by
  unfold phaseFits at hf
  rw [hp] at hf
  obtain ⟨n, tmo, hj⟩ | ⟨hj, hle⟩ := hf
  · have hrx : rxPhase s = receiveUntil n tmo s := by rw [rxPhase, hj]
    rw [hrx]
    exact receiveUntil_proceeds hj
  · have hrx := phaseStep_receive hp hj
    rw [phaseStep, hp] at hrx
    rw [Host.Outcome.next.inj hrx]
    exact receive_proceeds hp hj hle

theorem firstPhase_proceeds (hp : s.phase = .scanFirst) (hf : phaseFits s) : Proceeds s (firstPhase s) := by
  unfold phaseFits at hf
  rw [hp] at hf
  have hm := moves_readFrom s.work.tStart 1 s.scanTimeout s.chan
  unfold firstPhase
  split <;> rename_i hr <;> rw [hr] at hm
  · exact .error _ _ hm (by rw [hf]; exact .inl rfl)
  · exact .finished hm (by rw [hf]; exact .inr rfl)
  · split
    case isTrue => exact .finished hm (by rw [hf]; exact .inr rfl)
    case isFalse hcode =>
      exact .phase .scanLines _ _ hm rfl rfl rfl id ⟨hf, hcode⟩ nofun (.inr (by rw [hp]; decide))

theorem classify_proceeds {code : Byte} {lines : List (List Byte)} {c : Channel} (hm : Moves s.chan c)
    (hj : s.work.job = .scanLines) : Proceeds s (classify code lines { s with chan := c }) := by
  obtain h | h | ⟨scan, h⟩ := classify_cases code lines { s with chan := c } <;> rw [h]
  · exact .finished hm (by rw [hj]; exact .inr rfl)
  · exact .error _ c hm (by rw [hj]; exact .inr ⟨_, rfl⟩)
  · exact .result _ c hm (jobResult_ok _) ⟨rfl, rfl, fun hn => absurd hj hn, fun _ => ⟨rfl, rfl⟩⟩

theorem linesPhase_proceeds (hp : s.phase = .scanLines) (hf : phaseFits s) (h : linesPhase s = .next t) :
    Proceeds s t := by
  unfold phaseFits at hf
  rw [hp] at hf
  obtain ⟨c, hm, -, ⟨lines, rfl⟩ | rfl | ⟨cur, lines, hloop, rfl⟩⟩ := linesPhase_next h
  · exact classify_proceeds hm hf.1
  · exact .error _ c hm (by rw [hf.1]; exact .inl rfl)
  · exact .phase .scanLines _ c hm rfl rfl rfl (fun hl => scanLoop_clean hl hloop) hf nofun (.inl ⟨hp.symm, trivial⟩)

/-- One phase of an operation that runs in a phase of its own. -/
theorem phaseStep_proceeds (hi : s.phase ≠ .idle) (hf : phaseFits s) (h : phaseStep s = .next t) : Proceeds s t := by
  unfold phaseStep at h
  split at h
  case h_1 hp => exact absurd hp hi
  case h_2 hp => cases h; exact buildPhase_proceeds hp hf
  case h_3 hp => cases h; exact txPhase_proceeds hp hf
  case h_4 hp => cases h; exact rxPhase_proceeds hp hf
  case h_5 hp =>
    cases h
    unfold phaseFits at hf
    rw [hp] at hf
    exact completeJob_proceeds (.refl _) (.inr hf)
  case h_6 hp => cases h; exact firstPhase_proceeds hp hf
  case h_7 hp => exact linesPhase_proceeds hp hf h

end

/-! ### The phases of one step -/

/-- How an operation with this job has ended: with an error its job may have, or with an outcome that is none. -/
def JobEnds (job : Job) (r : Results) : Prop :=
  (∃ e k, JobError job e ∧ r.outcome = errorOutcome e ∧ r.info = errorInfo e k) ∨ JobResult job r.outcome

/-- The running operation leaves the session alone unless it opens one, and `SCAN_TIMEOUT` unless it sets it
(10_state.md R30). -/
structure KeepsRegisters (s t : State) : Prop where
  session : s.work.job ≠ .writeAck .openSession → t.session = s.session
  scanTimeout : s.work.job ≠ .writeAck .openSession → (∀ tmo, s.work.job ≠ .writeAck (.setTimeout tmo)) →
    t.scanTimeout = s.scanTimeout

/-- What a step makes of a running operation that runs whole: an end its job may have, or a wait. -/
structure Settles (s t : State) : Prop where
  fits : phaseFits t
  running : Running s → Running t
  waits : Waits t
  ends : t.phase = .idle → JobEnds s.work.job t.result
  goesOn : t.phase ≠ .idle → t.work.job = s.work.job ∧ t.work.pace = s.work.pace
  registers : KeepsRegisters s t
  writes : t.phase = .idle → isError t.result.outcome = false → JobWrites s.work.job s.result t.result

section
variable {s t : State}

theorem phaseFits_idle (hp : s.phase = .idle) (hw : s.work = Work.clear) : phaseFits s := by
  unfold phaseFits
  rw [hp]
  exact hw

theorem waits_idle (hp : s.phase = .idle) : Waits s := by
  unfold Waits
  rw [hp]
  trivial

theorem Proceeds.fits (h : Proceeds s t) : phaseFits t := by
  cases h with
  | error e c h he => exact phaseFits_idle rfl rfl
  | result r c h hr hk => exact phaseFits_idle rfl rfl
  | acknowledged next c h hj => cases next <;> exact phaseFits_idle rfl rfl
  | phase p w c h hj hpace hst hl hf hi hw => exact hf

/-- A phase that ends the operation ends it as its job may. -/
theorem Proceeds.ends (h : Proceeds s t) (hi : t.phase = .idle) : JobEnds s.work.job t.result := by
  cases h with
  | error e c h he => exact .inl ⟨e, s.free, he, rfl, rfl⟩
  | result r c h hr hk => exact .inr hr
  | acknowledged next c h hj => exact .inr (by rw [(afterAck_reports next _).2]; exact jobResult_ok _)
  | phase p w c h hj hpace hst hl hf hi' hw => exact absurd hi hi'

theorem Proceeds.registers (h : Proceeds s t) : KeepsRegisters s t := by
  cases h with
  | error | result | phase => exact ⟨fun _ => rfl, fun _ _ => rfl⟩
  | acknowledged next c h hj =>
    cases next with
    | done => exact ⟨fun _ => rfl, fun _ _ => rfl⟩
    | setTimeout tmo => exact ⟨fun _ => rfl, fun _ hn => absurd hj (hn tmo)⟩
    | openSession => exact ⟨fun hn => absurd hj hn, fun hn => absurd hj hn⟩

/-- A phase that ends the operation without an error writes the registers of its job; one that does not, none. -/
theorem Proceeds.writes (h : Proceeds s t) : (t.phase = .idle → isError t.result.outcome = false →
    JobWrites s.work.job s.result t.result) ∧ (t.phase ≠ .idle → t.result = s.result) := by
  cases h with
  | error e c h he => exact ⟨fun _ ho => absurd (errorOutcome_isError e) (Bool.eq_false_iff.1 ho),
      fun hi => absurd rfl hi⟩
  | result r c h hr hk => exact ⟨fun _ _ => hk, fun hi => absurd rfl hi⟩
  | acknowledged next c h hj =>
    cases next <;> exact ⟨fun _ _ => ⟨rfl, rfl, fun _ => rfl, fun _ => ⟨rfl, rfl⟩⟩, fun hi => absurd rfl hi⟩
  | phase p w c h hj hpace hst hl hf hi hw => exact ⟨fun hp => absurd hp hi, fun _ => rfl⟩

/-- A phase that is the last of its step, … -/
theorem Proceeds.settles (h : Proceeds s t) (hw : Waits t) : Settles s t :=
  ⟨h.fits, h.running, hw, h.ends, fun hi => ⟨(h.goesOn hi).1, (h.goesOn hi).2.1⟩, h.registers, h.writes.1⟩

/-- … and one that is not. -/
theorem Proceeds.trans_settles {u : State} (h : Proceeds s u) (hi : u.phase ≠ .idle) (ht : Settles u t) :
    Settles s t := by
  obtain ⟨hjob, hpace, -⟩ := h.goesOn hi
  refine ⟨ht.fits, fun hs => ht.running (h.running hs), ht.waits, hjob ▸ ht.ends, hjob ▸ hpace ▸ ht.goesOn,
    ⟨fun hn => ?_, fun hn hn' => ?_⟩, hjob ▸ h.writes.2 hi ▸ ht.writes⟩
  · exact (ht.registers.session (hjob.symm ▸ hn)).trans (h.registers.session hn)
  · exact (ht.registers.scanTimeout (hjob.symm ▸ hn) (hjob.symm ▸ hn')).trans (h.registers.scanTimeout hn hn')

/-- A running operation has a phase left. -/
theorem phasesLeft_pos {p : Phase} (h : p ≠ .idle) : 0 < phasesLeft p := by
  cases p with
  | idle => exact absurd rfl h
  | build | tx | rxWait | parse | scanFirst | scanLines => decide

/-- As many phases as an operation has left are enough to bring it to its end or to where it waits. -/
theorem settle_settles {k : Nat} (hi : s.phase ≠ .idle) (hf : phaseFits s) (hk : phasesLeft s.phase ≤ k)
    (h : settle k s = .next t) : Settles s t := by
  induction k generalizing s with
  | zero =>
    exact absurd hk (Nat.not_le.2 (phasesLeft_pos hi))
  | succ k ih =>
    rw [settle] at h
    obtain ⟨u, hu, h⟩ := andThen_eq_next.1 h
    have hp := phaseStep_proceeds hi hf hu
    by_cases hidle : u.phase = .idle
    · rw [if_pos (.inl hidle)] at h
      cases h
      exact hp.settles (waits_idle hidle)
    · obtain ⟨-, -, ⟨hsame, hw⟩ | hleft⟩ := hp.goesOn hidle
      · rw [if_pos (.inr hsame)] at h
        cases h
        exact hp.settles hw
      · have hne : u.phase ≠ s.phase := fun he => by rw [he] at hleft; exact Nat.lt_irrefl _ hleft
        rw [if_neg (not_or.2 ⟨hidle, hne⟩)] at h
        exact hp.trans_settles hidle (ih hidle hp.fits (by omega) h)

/-- Four phases are enough for every operation (43_command_reply.md R160). -/
theorem phasesLeft_le (p : Phase) : phasesLeft p ≤ phaseCount := by cases p <;> decide

end

/-! ### The start of an operation -/

/-- The operation whose job an instruction runs as (log 5): RX.READ_BYTE that of RX.READ_EXACT, a raw command frame that
of TX.WRITE_ALL. -/
def rowOf : Instr → Instr
  | .rxReadByte => .rxReadExact
  | .wireWrite _ _ _ | .wireRead _ _ _ | .wirePersist _ => .txWriteAll
  | i => i

/-- From `r` to `r'` an operation that ends without an error writes, beside `OUTCOME`, only the registers it returns its
results in (30_encoding.md R97; log 7). -/
structure WritesOnly (i : Instr) (r r' : Results) : Prop where
  info : r'.info = r.info
  crcout : i ≠ .crcCompute → r'.crcout = r.crcout
  scan : i ≠ .scanRead → r'.scan = r.scan
  bytes : i ∉ [Instr.frameBuild, .frameParse, .rxReadExact, .rxReadDeadline, .rxReadByte, .cmdRead] →
    r'.obuf = r.obuf ∧ r'.olen = r.olen

theorem writesOnly_outcome (i : Instr) (r : Results) (o : OutcomeCode) : WritesOnly i r { r with outcome := o } :=
  ⟨rfl, fun _ => rfl, fun _ => rfl, fun _ => ⟨rfl, rfl⟩⟩

/-- What the start of an instruction makes of a state: an end its row of the matrix allows, or a first phase. -/
structure Started (i : Instr) (s u : State) : Prop where
  goes : Goes s u
  fits : phaseFits u
  running : Running s → Running u
  ends : u.phase = .idle → mayEndWith i u.result.outcome = true ∧ u.result.outcome ≠ .eShort
  refused : u.phase = .idle → u.result.outcome = .refused → u = raise .refused s
  job : u.phase ≠ .idle → jobInstr u.work.job = some (rowOf i) ∧ u.work.pace = .whole
  registers : i ≠ .sessionClose → u.session = s.session ∧ u.scanTimeout = s.scanTimeout
  writes : u.phase = .idle → isError u.result.outcome = false → WritesOnly i s.result u.result
  result : u.phase ≠ .idle → u.result = s.result

section
variable {i : Instr} {s t u : State} {c : Channel}

/-- An operation that ends at once and keeps what it does not own. -/
theorem Started.ended (hm : Moves s.chan t.chan) (ht : EndsKeeping s t)
    (ho : mayEndWith i t.result.outcome = true ∧ t.result.outcome ≠ .eShort ∧ t.result.outcome ≠ .refused)
    (hk : isError t.result.outcome = false → WritesOnly i s.result t.result) : Started i s t :=
  ⟨⟨hm, ht.host, ht.requests, ht.params⟩, phaseFits_idle ht.phase ht.work, fun hs => hs.endsKeeping hm.later ht,
    fun _ => ⟨ho.1, ho.2.1⟩, fun _ hr => absurd hr ho.2.2, fun hi => absurd ht.phase hi,
    fun _ => ⟨ht.session, ht.scanTimeout⟩, fun _ => hk, fun hi => absurd ht.phase hi⟩

theorem Started.isRefused (ho : mayEndWith i .refused = true) : Started i s (raise .refused s) :=
  ⟨⟨.refl _, rfl, rfl, rfl⟩, phaseFits_idle rfl rfl, fun hs => hs.endsKeeping (.refl _) (endsKeeping_raise _ s),
    fun _ => ⟨ho, nofun⟩, fun _ _ => rfl, fun hi => absurd rfl hi, fun _ => ⟨rfl, rfl⟩, fun _ he => (nomatch he),
    fun hi => absurd rfl hi⟩

theorem Started.enters {p : Phase} {w : Work} (hm : Moves s.chan c) (hi : p ≠ .idle)
    (hf : phaseFits (enter p w { s with chan := c })) (hst : w.tStart ≤ s.chan.now) (hj : jobSession s w.job)
    (hl : LinesClean w) (hrow : jobInstr w.job = some (rowOf i)) (hpace : w.pace = .whole) :
    Started i s (enter p w { s with chan := c }) :=
  ⟨⟨hm, rfl, rfl, rfl⟩, hf, fun hs => hs.enters hm.later hf hst hj hl, fun h => absurd h hi, fun h => absurd h hi,
    fun _ => ⟨hrow, hpace⟩, fun _ => ⟨rfl, rfl⟩, fun h => absurd h hi, fun _ => rfl⟩

/-- Behind the session guard it starts as it does in an open session, or is refused. -/
theorem Started.of_whenOpen (h : whenOpen s (.next u) = .next t) (hr : mayEndWith i .refused = true)
    (hu : s.session = .opened → Started i s u) : Started i s t := by
  obtain ⟨-, ⟨ho, h⟩ | ⟨-, rfl⟩⟩ := whenOpen_next h
  · cases h; exact hu ho
  · exact .isRefused hr

/-- A first phase entered with nothing read and the channel as it is. -/
theorem Started.enter {p : Phase} {w : Work} (hi : p ≠ .idle) (hf : phaseFits (enter p w s))
    (hst : w.tStart ≤ s.chan.now) (hj : jobSession s w.job) (hl : LinesClean w)
    (hrow : jobInstr w.job = some (rowOf i)) (hpace : w.pace = .whole) : Started i s (enter p w s) :=
  .enters (.refl s.chan) hi hf hst hj hl hrow hpace

theorem startSessionOpen_started (h : startSessionOpen s = .next t) : Started .sessionOpen s t := by
  obtain ⟨-, h⟩ := whenIdle_next h
  cases h
  have hm := moves_discard s.chan
  split
  case isTrue hc =>
    split <;> rename_i c hd <;> rw [hd] at hm
    · exact .ended hm (endsKeeping_raise _ _).of_chan ⟨rfl, nofun, nofun⟩ nofun
    · exact .enters hm nofun ⟨rfl, .inr rfl⟩ (Nat.zero_le _) hc linesClean_clear rfl rfl
  case isFalse => exact .isRefused rfl

theorem execRxDiscard_started (h : execRxDiscard s = .next t) : Started .rxDiscard s t := by
  obtain ⟨-, rfl | ⟨c, hm, -, rfl | rfl⟩⟩ := execRxDiscard_next h
  · exact .isRefused rfl
  · exact .ended hm (endsKeeping_finishWith _ _).of_chan ⟨rfl, nofun, nofun⟩ fun _ => writesOnly_outcome _ _ _
  · exact .ended hm (endsKeeping_raise _ _).of_chan ⟨rfl, nofun, nofun⟩ nofun

theorem execSessionClose_started (h : execSessionClose s = .next t) : Started .sessionClose s t := by
  obtain ⟨-, rfl | ⟨-, tmo, rfl⟩⟩ := execSessionClose_next h
  · exact .isRefused rfl
  · exact ⟨⟨.refl _, rfl, rfl, rfl⟩, phaseFits_idle rfl rfl, fun hs => hs.ended (.refl _) rfl rfl nofun,
      fun _ => ⟨rfl, nofun⟩, nofun, fun hi => absurd rfl hi, fun hn => absurd rfl hn, fun _ _ => writesOnly_outcome _ _ _,
      fun hi => absurd rfl hi⟩

theorem startScanSetTimeout_started (h : startScanSetTimeout s = .next t) : Started .scanSetTimeout s t := by
  refine .of_whenOpen h rfl fun ho => ?_
  split_ifs with hz hmax
  · exact .ended (.refl _) (endsKeeping_raise _ s) ⟨rfl, nofun, nofun⟩ nofun
  · exact .ended (.refl _) (endsKeeping_raise _ s) ⟨rfl, nofun, nofun⟩ nofun
  · have hlegal : legalTimeout s.host.tmo = true :=
      legalTimeout_iff.2 ⟨Nat.pos_of_ne_zero hz, Nat.le_of_not_lt hmax⟩
    exact .enter nofun ⟨rfl, .inr rfl⟩ (Nat.zero_le _) ⟨ho, hlegal⟩ linesClean_clear rfl rfl

theorem startFrameBuild_started (h : startFrameBuild s = .next t) : Started .frameBuild s t := by
  obtain ⟨-, h⟩ := whenIdle_next h
  cases h
  split
  · exact .enter nofun ⟨rfl, .inl rfl⟩ (Nat.zero_le _) trivial linesClean_clear rfl rfl
  · exact .isRefused rfl

theorem startFrameParse_started (h : startFrameParse s = .next t) : Started .frameParse s t := by
  obtain ⟨-, h⟩ := whenIdle_next h
  cases h
  exact .enter nofun (.inl ⟨_, _, rfl⟩) (Nat.zero_le _) trivial linesClean_clear rfl rfl

/-- Bytes to be sent as they stand, in an open session. -/
theorem enterSend_started {bytes : List Byte} (ho : s.session = .opened) (hrow : rowOf i = .txWriteAll) :
    Started i s (enterSend bytes s) :=
  .enter nofun ⟨rfl, .inl rfl⟩ (Nat.zero_le _) ho linesClean_clear (by rw [hrow]; rfl) rfl

/-- Bytes to be read, in an open session. -/
theorem enterRead_started {n : Nat} (ho : s.session = .opened) (hrow : rowOf i = .rxReadExact) :
    Started i s (enterRead n s) :=
  .enter nofun (.inr ⟨.inr ⟨n, rfl⟩, Nat.zero_le _⟩) (Nat.zero_le _) ho linesClean_clear (by rw [hrow]; rfl) rfl

theorem start_started (hi : ∀ status p crc, i ≠ .wireReply status p crc) (h : start i s = .next u) :
    Started i s u := by
  cases i with
  | crcCompute =>
    obtain ⟨-, rfl⟩ := execCrcCompute_next h
    exact .ended (.refl _) (endsKeeping_finish _ s) ⟨rfl, nofun, nofun⟩ fun _ =>
      ⟨rfl, fun hn => absurd rfl hn, fun _ => rfl, fun _ => ⟨rfl, rfl⟩⟩
  | crcVerify =>
    obtain ⟨-, rfl | rfl⟩ := execCrcVerify_next h
    · exact .ended (.refl _) (endsKeeping_finishWith _ s) ⟨rfl, nofun, nofun⟩ fun _ => writesOnly_outcome _ _ _
    · exact .ended (.refl _) (endsKeeping_raise _ s) ⟨rfl, nofun, nofun⟩ nofun
  | frameBuild => exact startFrameBuild_started h
  | frameParse => exact startFrameParse_started h
  | txWriteAll | wireWrite _ _ _ | wireRead _ _ _ | wirePersist _ =>
    exact .of_whenOpen h rfl fun ho => enterSend_started ho rfl
  | rxReadExact | rxReadByte => exact .of_whenOpen h rfl fun ho => enterRead_started ho rfl
  | rxReadDeadline =>
    refine .of_whenOpen h rfl fun ho => ?_
    split
    · exact .isRefused rfl
    · exact .enter nofun (.inl ⟨_, _, rfl⟩) (Nat.le_refl _) ho linesClean_clear rfl rfl
  | rxDiscard => exact execRxDiscard_started h
  | cmdWrite | cmdRead =>
    refine .of_whenOpen h rfl fun ho => ?_
    split
    · exact .enter nofun ⟨rfl, .inr rfl⟩ (Nat.zero_le _) ho linesClean_clear rfl rfl
    · exact .isRefused rfl
  | scanRead =>
    exact .of_whenOpen h rfl fun ho => .enter nofun rfl (Nat.le_refl _) ho linesClean_clear rfl rfl
  | scanSetTimeout => exact startScanSetTimeout_started h
  | sessionOpen => exact startSessionOpen_started h
  | sessionClose => exact execSessionClose_started h
  | wireReply status p crc => exact absurd rfl (hi status p crc)

end

/-! ### Whole operations -/

section
variable {i : Instr} {s t : State}

/-- An operation in the step that starts it: it ends at its start, or starts and runs its phases to its end or to where
it is parked. -/
theorem exec_cases (hi : ∀ status p crc, i ≠ .wireReply status p crc) (h : exec i s = .next t) :
    ∃ u, start i s = .next u ∧ Started i s u ∧
      (u.phase = .idle ∧ t = u ∨
        u.phase ≠ .idle ∧ ∃ v, settle phaseCount u = .next v ∧ Settles u v ∧ t = park v) := by
  rw [exec_eq_runOn hi] at h
  obtain ⟨u, hu, h⟩ := andThen_eq_next.1 h
  obtain ⟨v, hv, h⟩ := andThen_eq_next.1 h
  cases h
  have hst := start_started hi hu
  refine ⟨u, hu, hst, ?_⟩
  by_cases hp : u.phase = .idle
  · rw [settle_idle hp] at hv
    cases hv
    exact .inl ⟨hp, park_idle hp⟩
  · exact .inr ⟨hp, v, hv, settle_settles hp hst.fits (phasesLeft_le _) hv, rfl⟩

/-- Parking writes result registers only. -/
theorem park_cases (s : State) :
    s.phase = .idle ∧ park s = s ∨ s.phase ≠ .idle ∧ park s = suspend s.phase s.work s := by
  unfold park
  split
  · exact .inl ⟨‹_›, rfl⟩
  · exact .inr ⟨‹_›, rfl⟩

/-- Unspecified results are none of the invariant's business. -/
theorem Inv.park (h : Inv s) : Inv (park s) := by
  obtain ⟨-, hp⟩ | ⟨-, hp⟩ := park_cases s
  · rw [hp]; exact h
  · rw [hp]; exact ⟨h.phaseWork, h.startedBefore, h.timeoutLegal, h.jobSession, h.queueFits, h.linesClean⟩

/-- A state of which nothing changed but the requests, the operands and what a link that goes on appends. -/
theorem Inv.of_chan (h : Inv s) (hm : s.chan.Later t.chan) (hp : t.phase = s.phase) (hw : t.work = s.work)
    (hs : t.session = s.session) (ht : t.scanTimeout = s.scanTimeout) : Inv t := by
  refine ⟨?_, ?_, ?_, ?_, fun d hd => hm.fits d (hm.depth ▸ hd) (h.queueFits d (hm.depth ▸ hd)), ?_⟩
  · have hpw := h.phaseWork
    unfold Machine.phaseWork at hpw ⊢
    rwa [hp, hw]
  · rw [hw]; exact h.startedBefore.trans hm.time
  · rw [hs, ht]; exact h.timeoutLegal
  · rw [hw]; exact jobSession_congr hs h.jobSession
  · rw [hw]; exact h.linesClean

theorem Inv.raise (h : Inv s) (e : Error) : Inv (raise e s) :=
  Running.inv (h.running.endsKeeping (Channel.Later.refl s.chan) (endsKeeping_raise e s)) (.inr (waits_idle rfl))

/-- A reply that arrives is no operation (log 2). -/
theorem reply_or_operation (i : Instr) :
    (∃ status p crc, i = .wireReply status p crc) ∨ ∀ status p crc, i ≠ .wireReply status p crc := by
  cases i <;> simp

theorem exec_inv (hs : Inv s) (h : exec i s = .next t) : Inv t := by
  obtain ⟨status, p, crc, rfl⟩ | hi := reply_or_operation i
  · cases h
    exact hs.of_chan (Channel.later_pushAll _ _) rfl rfl rfl rfl
  · obtain ⟨u, -, hst, ⟨hp, rfl⟩ | ⟨-, v, -, hv, rfl⟩⟩ := exec_cases hi h
    · exact (hst.running hs.running).inv (.inr (waits_idle hp))
    · exact ((hv.running (hst.running hs.running)).inv (.inr hv.waits)).park

/-- Stopped in its first phase, an operation has started as any other. -/
theorem startPhased_cases (h : startPhased i s = .next t) :
    ∃ u, start i s = .next u ∧
      (u.phase = .idle ∧ t = u ∨ u.phase ≠ .idle ∧ t = suspend u.phase { u.work with pace := .byPhase } u) := by
  obtain ⟨u, hu, h⟩ := andThen_eq_next.1 h
  cases h
  refine ⟨u, hu, ?_⟩
  split
  · exact .inl ⟨‹_›, rfl⟩
  · exact .inr ⟨‹_›, rfl⟩

/-- The pace is the invariant's business only, … -/
theorem Running.paced (h : Running s) (hp : s.phase ≠ .idle) (pace : Pace) :
    Running (suspend s.phase { s.work with pace := pace } s) := by
  refine ⟨?_, h.startedBefore, h.timeoutLegal, h.jobSession, h.queueFits, h.linesClean⟩
  have hf := h.fits
  unfold phaseFits at hf ⊢
  split <;> rename_i hq <;> rw [show s.phase = _ from hq] at hf hp
  · exact absurd rfl hp
  all_goals exact hf

theorem startPhased_inv (hs : Inv s) (h : startPhased i s = .next t) : Inv t := by
  obtain ⟨u, hu, ht⟩ := startPhased_cases h
  obtain ⟨status, p, crc, rfl⟩ | hi := reply_or_operation i
  · have hinv : Inv u := exec_inv hs (i := .wireReply status p crc) hu
    obtain ⟨-, rfl⟩ | ⟨hp, rfl⟩ := ht
    · exact hinv
    · exact (hinv.running.paced hp .byPhase).inv (.inl rfl)
  · have hr := (start_started hi hu).running hs.running
    obtain ⟨hp, rfl⟩ | ⟨hp, rfl⟩ := ht
    · exact hr.inv (.inr (waits_idle hp))
    · exact (hr.paced hp .byPhase).inv (.inl rfl)

/-! ### Going on -/

/-- With no operation running the link may append and time may pass, and nothing else happens. -/
theorem idleMove_moves (s : State) : ∃ c, idleMove s = { s with chan := c } ∧ Moves s.chan c := by
  have hpush (b : Byte) (l : List LinkEvent) (hl : arrivals s.chan.link = b :: arrivals l) :
      Moves s.chan { pushRx b s.chan with link := l } := by
    refine ⟨(Channel.later_push b s.chan).trans (.of_taken _ _ rfl (Nat.le_refl _) rfl (Nat.le_refl _)), fun hd => ?_⟩
    rw [pendingRx, pendingRx, hl, pushRx_unbounded b s.chan hd, List.append_assoc]
    exact List.suffix_rfl
  unfold idleMove
  split
  case h_1 b l hl => exact ⟨_, rfl, hpush b l (by rw [hl]; rfl)⟩
  case h_2 b l hl => exact ⟨_, rfl, hpush b l (by rw [hl]; rfl)⟩
  case h_3 k l hl =>
    refine ⟨_, rfl, .of_taken _ _ rfl (Nat.le_add_right _ _) rfl (Nat.le_refl _), fun _ => ?_⟩
    rw [pendingRx, pendingRx, hl]
    exact List.suffix_rfl
  case h_4 => exact ⟨s.chan, rfl, .refl _⟩

/-- What goes on in a step that starts nothing: the link, all phases of the running operation, or one of them. -/
theorem advance_cases (h : advance s = .next t) :
    s.phase = .idle ∧ t = idleMove s ∨
    s.phase ≠ .idle ∧ s.work.pace = .whole ∧ settle phaseCount s = .next t ∨
    s.phase ≠ .idle ∧ s.work.pace = .byPhase ∧ phaseStep s = .next t := by
  unfold advance at h
  split at h
  case isTrue hp => cases h; exact .inl ⟨hp, rfl⟩
  case isFalse hp =>
    split at h
    case h_1 hw => exact .inr (.inl ⟨hp, hw, h⟩)
    case h_2 hw => exact .inr (.inr ⟨hp, hw, h⟩)

theorem advance_inv (hs : Inv s) (h : advance s = .next t) : Inv t := by
  obtain ⟨hp, rfl⟩ | ⟨hp, -, h⟩ | ⟨hp, hw, h⟩ := advance_cases h
  · obtain ⟨c, hc, hm⟩ := idleMove_moves s
    rw [hc]
    exact hs.of_chan hm.later rfl rfl rfl rfl
  · have hv := settle_settles hp hs.running.fits (phasesLeft_le _) h
    exact (hv.running hs.running).inv (.inr hv.waits)
  · have hv := phaseStep_proceeds hp hs.running.fits h
    by_cases hi : t.phase = .idle
    · exact (hv.running hs.running).inv (.inr (waits_idle hi))
    · exact (hv.running hs.running).inv (.inl ((hv.goesOn hi).2.1.trans hw))

/-- What a step may find: the state it works in differs from the one before in requests and operands alone. -/
inductive Finds (s : State) : Fetched → Prop
  | run (i : Instr) (o : Operands) (rs : List Request) : Finds s (.run i { s with host := o, requests := rs })
  | start (i : Instr) (o : Operands) (rs : List Request) : Finds s (.start i { s with host := o, requests := rs })
  | reserved (o : Operands) (rs : List Request) : Finds s (.reserved { s with host := o, requests := rs })
  | malformed : Finds s .malformed
  | nothing (rs : List Request) : Finds s (.nothing { s with requests := rs })

theorem fetch_finds (s : State) : Finds s (fetch s) := by
  unfold fetch
  split
  case h_1 => exact .nothing s.requests
  case h_2 rest _ => exact .nothing rest
  case h_3 o rest _ =>
    split
    case isTrue => split <;> constructor
    case isFalse => exact .nothing s.requests
  case h_4 o rest _ =>
    split
    case isTrue => split <;> constructor
    case isFalse => exact .nothing s.requests
  case h_5 bytes rest _ =>
    split
    case h_1 i more _ =>
      split
      case isTrue => exact .run i s.host _
      case isFalse => exact .nothing s.requests
    case h_2 => exact .malformed

/-- What a step does once its request is taken up. -/
theorem step_cases (h : step s = .next t) :
    ∃ o rs, (∃ i, exec i { s with host := o, requests := rs } = .next t) ∨
      (∃ i, startPhased i { s with host := o, requests := rs } = .next t) ∨
      t = raise .refused { s with host := o, requests := rs } ∨
      advance { s with host := o, requests := rs } = .next t := by
  have hf := fetch_finds s
  unfold step at h
  cases hs : fetch s <;> rw [hs] at h hf
  case run => cases hf with | run _ o rs => exact ⟨o, rs, .inl ⟨_, h⟩⟩
  case start => cases hf with | start _ o rs => exact ⟨o, rs, .inr (.inl ⟨_, h⟩)⟩
  case reserved =>
    cases hf with
    | reserved o rs => cases h; exact ⟨o, rs, .inr (.inr (.inl rfl))⟩
  case malformed => cases h
  case nothing => cases hf with | nothing rs => exact ⟨s.host, rs, .inr (.inr (.inr h))⟩

end

/-- Settles O54: after reset no operation runs, the session is closed and the queue unbounded. -/
theorem resetMeetsInvariant : Obligations.ResetMeetsInvariant :=
  ⟨rfl, Nat.le_refl _, nofun, trivial, nofun, nofun, rfl⟩

/-- Settles O55: the invariant is kept by the start of an operation, by each of its phases, which lead from one that
fits to one that fits, by an operation that runs through as many of them as it has left, and by what link and time do
when none runs; a step is one of these. -/
theorem stepKeepsInvariant : Obligations.StepKeepsInvariant := by
  intro s t hs h
  obtain ⟨o, rs, h⟩ := step_cases h
  have hs' : Inv { s with host := o, requests := rs } := hs.of_chan (.refl _) rfl rfl rfl rfl
  obtain ⟨i, h⟩ | ⟨i, h⟩ | rfl | h := h
  · exact exec_inv hs' h
  · exact startPhased_inv hs' h
  · exact hs'.raise .refused
  · exact advance_inv hs' h

end Sys2Proof.Machine
end

section
/-! SUPPORT. The whole machine: one operation at a time, what a step may do to the channel and the registers, and how an
operation may end (10_state.md section 6, 60_exceptions.md sections 1 and 5). -/

namespace Sys2Proof.Machine

/-! ### One operation at a time -/

section
variable {i : Instr} {s t : State}

/-- While an operation runs nothing but a reply gets a step (60_exceptions.md R215). -/
theorem exec_busy (hi : ∀ status p crc, i ≠ .wireReply status p crc) (hp : s.phase ≠ .idle) :
    exec i s = .refused .engineBusy := by
  have hs : start i s = .refused .engineBusy := by
    cases i with
    | wireReply status p crc => exact absurd rfl (hi status p crc)
    | _ => exact whenIdle_busy hp
  rw [exec_eq_runOn hi, hs]
  rfl

theorem exec_idle (hi : ∀ status p crc, i ≠ .wireReply status p crc) (h : exec i s = .next t) : s.phase = .idle := by
  by_contra hp
  rw [exec_busy hi hp] at h
  cases h

/-- A request for an operation waits for the end of the running one. -/
theorem step_busy {o : Operands} {rest : List Request} (hp : s.phase ≠ .idle)
    (hr : s.requests = .operation o :: rest ∨ s.requests = .phased o :: rest) : step s = advance s := by
  have hf : fetch s = .nothing s := by
    unfold fetch
    obtain hr | hr := hr <;> rw [hr] <;> exact if_neg hp
  rw [step, hf]

end

/-- Settles O46: every meaning but WIRE.REPLY's starts behind the guard of R215, and a request for an operation is not
looked at while one runs. -/
theorem runningOperationIsAlone : Obligations.RunningOperationIsAlone := by
  refine fun s hp => ⟨fun i hi => exec_busy hi hp, fun o rest t hr h => ?_⟩
  rw [step_busy hp hr] at h
  have hg := (advance_ends hp h).goes
  exact ⟨hg.requests, hg.host⟩

/-! ### What a step leaves alone -/

section
variable {i : Instr} {s t : State}

/-- Parking writes result registers only. -/
theorem park_goes (s : State) : Goes s (park s) := by
  obtain ⟨-, h⟩ | ⟨-, h⟩ := park_cases s <;> rw [h]
  · exact .refl s
  · exact ⟨.refl _, rfl, rfl, rfl⟩

theorem exec_goes (hi : ∀ status p crc, i ≠ .wireReply status p crc) (h : exec i s = .next t) : Goes s t := by
  obtain ⟨u, -, hst, ⟨-, rfl⟩ | ⟨-, v, hv, -, rfl⟩⟩ := exec_cases hi h
  · exact hst.goes
  · exact (hst.goes.trans (settle_ends hv).goes).trans (park_goes v)

theorem advance_goes (h : advance s = .next t) : Goes s t := by
  by_cases hp : s.phase = .idle
  · obtain ⟨-, rfl⟩ | ⟨hn, -⟩ | ⟨hn, -⟩ := advance_cases h
    · obtain ⟨c, hc, hm⟩ := idleMove_moves s
      rw [hc]
      exact ⟨hm, rfl, rfl, rfl⟩
    · exact absurd hp hn
    · exact absurd hp hn
  · exact (advance_ends hp h).goes

/-- `t` has the parameters of `s`, and a later channel. -/
def Follows (s t : State) : Prop := t.params = s.params ∧ s.chan.Later t.chan

theorem Goes.follows (h : Goes s t) : Follows s t := ⟨h.params, h.moves.later⟩

/-- Neither is written by taking up a request. -/
theorem Follows.of_request {o : Operands} {rs : List Request} (h : Follows { s with host := o, requests := rs } t) :
    Follows s t := h

theorem wireReply_follows {status : Byte} {p : List Byte} {crc : Word} (h : exec (.wireReply status p crc) s = .next t) :
    Follows s t := by
  cases h
  exact ⟨rfl, Channel.later_pushAll _ _⟩

theorem exec_follows (h : exec i s = .next t) : Follows s t := by
  obtain ⟨status, p, crc, rfl⟩ | hi := reply_or_operation i
  · exact wireReply_follows h
  · exact (exec_goes hi h).follows

theorem startPhased_follows (h : startPhased i s = .next t) : Follows s t := by
  obtain ⟨u, hu, ht⟩ := startPhased_cases h
  have hf : Follows s u := by
    obtain ⟨status, p, crc, rfl⟩ | hi := reply_or_operation i
    · exact wireReply_follows hu
    · exact (start_started hi hu).goes.follows
  obtain ⟨-, rfl⟩ | ⟨-, rfl⟩ := ht
  · exact hf
  · exact hf

end

/-- Settles O52: an operation, at its start and in each of its phases, takes bytes from the front of what is still to be
read; so does the link that goes on alone. -/
theorem bytesLeaveTheQueueOldestFirst : Obligations.BytesLeaveTheQueueOldestFirst := by
  rintro s t (⟨i, hi, h⟩ | h) hd
  · exact (exec_goes hi h).moves.oldest hd
  · exact (advance_goes h).moves.oldest hd

/-- Settles O53: whatever a step does, it does by the channel's transfers, and they keep all this. -/
theorem stepKeepsConfigurationSentBytesAndClock : Obligations.StepKeepsConfigurationSentBytesAndClock := by
  intro s t h
  have hf : Follows s t := by
    obtain ⟨o, rs, ⟨i, h⟩ | ⟨i, h⟩ | rfl | h⟩ := step_cases h
    · exact .of_request (exec_follows h)
    · exact .of_request (startPhased_follows h)
    · exact ⟨rfl, .refl _⟩
    · exact .of_request (advance_goes h).follows
  obtain ⟨hparams, hlater⟩ := hf
  exact ⟨hparams, hlater.depth, hlater.tick, hlater.sent, hlater.time⟩

/-- Settles O56: an instruction that needs an open session is refused, and the four that do not are pure. -/
theorem onlySessionOpenReachesTheLinkAfterReset : Obligations.OnlySessionOpenReachesTheLinkAfterReset := by
  refine ⟨rfl, rfl, fun i s t hc ho hi h => ?_⟩
  have hn : needsOpen i = true → t.chan = s.chan ∧ t.session = .closed := by
    intro hn
    rw [exec_of_not_opened hn (exec_idle hi h) (by rw [hc]; nofun)] at h
    cases h
    exact ⟨rfl, hc⟩
  cases i with
  | crcCompute => obtain ⟨-, rfl⟩ := execCrcCompute_next h; exact ⟨rfl, hc⟩
  | crcVerify => obtain ⟨-, rfl | rfl⟩ := execCrcVerify_next h <;> exact ⟨rfl, hc⟩
  | frameBuild => obtain ⟨-, ⟨obuf, olen, rfl⟩ | rfl⟩ := execFrameBuild_next h <;> exact ⟨rfl, hc⟩
  | frameParse => obtain ⟨-, ⟨obuf, olen, rfl⟩ | ⟨e, -, rfl⟩⟩ := execFrameParse_next h <;> exact ⟨rfl, hc⟩
  | sessionOpen => exact absurd rfl ho
  | wireReply status p crc => exact absurd rfl (hi status p crc)
  | _ => exact hn rfl

/-! ### Taking an error -/

/-- INFO counts the bytes of a partial read modulo 256 (60_exceptions.md R204). -/
theorem partialRead_info (k : Nat) (s : State) :
    (raise (.partialRead k) s).result.info = BitVec.ofNat 8 (k % 256) :=
  BitVec.eq_of_toNat_eq (by simp [raise, errorInfo])

/-- Settles O47: `raise` writes the two registers from the error, and its other fields are those of the state. -/
theorem raiseDoesExactlyThis : Obligations.RaiseDoesExactlyThis := by
  exact ⟨fun e s => ⟨endsKeeping_raise e s, rfl, rfl⟩,
    fun s => ⟨rfl, fun _ => rfl, rfl, fun _ => ⟨rfl, rfl⟩, rfl, fun _ => ⟨rfl, rfl⟩, fun _ => rfl,
      fun k => ⟨rfl, partialRead_info k s⟩, rfl, rfl, rfl, rfl, rfl, rfl⟩⟩

/-! ### How an operation ends -/

section
variable {job : Job} {i : Instr} {r : Results}

/-- No phase refuses: an operation is refused at its start (60_exceptions.md R201). -/
theorem JobEnds.ne_refused (h : JobEnds job r) : r.outcome ≠ .refused := by
  obtain ⟨e, k, he, ho, -⟩ | hr := h
  · rw [ho]
    cases e with
    | refused => cases job <;> simp [JobError, errorOutcome] at he
    | _ => nofun
  · intro ho
    rw [ho] at hr
    cases job <;> simp [JobResult] at hr

/-- A job ends with an outcome its row of the matrix has (60_exceptions.md R203). -/
theorem JobEnds.mayEndWith (h : JobEnds job r) (hj : jobInstr job = some i) : mayEndWith i r.outcome = true := by
  obtain ⟨e, k, he, ho, -⟩ | hr := h
  · rw [ho]
    cases job with
    | none | frameBuild => cases he
    | frameParse cap check =>
      cases hj
      simp only [JobError, List.mem_cons, List.not_mem_nil, or_false] at he
      obtain h | h | h | h := he <;> rw [h] <;> rfl
    | send | readExact n => cases hj; cases he; rfl
    | readDeadline n tmo => cases hj; obtain rfl | ⟨k, rfl⟩ := he <;> rfl
    | writeAck next =>
      cases next <;> cases hj <;> obtain rfl | rfl | ⟨code, rfl⟩ | rfl | rfl := he <;> rfl
    | readReply n => cases hj; obtain rfl | rfl | ⟨code, rfl⟩ | rfl | rfl := he <;> rfl
    | scanLines => cases hj; obtain rfl | ⟨code, rfl⟩ := he <;> rfl
  · cases job with
    | none => cases hj
    | readDeadline n tmo | scanLines => cases hj; obtain hr | hr := hr <;> rw [hr] <;> rfl
    | writeAck next => rw [show r.outcome = .ok from hr]; cases next <;> cases hj <;> rfl
    | _ => rw [show r.outcome = .ok from hr]; cases hj; rfl

/-- The short reply of a command is one whose payload outgrows the capacity (60_exceptions.md R203). -/
theorem JobEnds.short (h : JobEnds job r) (hj : isCommand job = true) (ho : r.outcome = .eShort) : r.info = 1 := by
  obtain ⟨e, k, he, hoe, hinfo⟩ | hr := h
  · rw [hinfo]
    rw [ho] at hoe
    have hcases : e = .ioFailure ∨ e = .invalidHeader ∨ (∃ code, e = .deviceError code) ∨ e = .checksumMismatch ∨
        e = .shortReply .overCapacity := by
      cases job with
      | writeAck next => exact he
      | readReply n => exact he
      | _ => cases hj
    obtain rfl | rfl | ⟨code, rfl⟩ | rfl | rfl := hcases
    · cases hoe
    · cases hoe
    · cases hoe
    · cases hoe
    · rfl
  · rw [ho] at hr
    cases job <;> simp [JobResult] at hr hj

/-- RX.READ_BYTE and the raw command frames have the row of the operation they run as. -/
theorem mayEndWith_rowOf (i : Instr) (o : OutcomeCode) : Machine.mayEndWith (rowOf i) o = Machine.mayEndWith i o := by
  cases i <;> rfl

/-- The four operations that send a command frame and wait for its reply run as command jobs. -/
theorem isCommand_of_row (hi : i ∈ [Instr.cmdWrite, .cmdRead, .scanSetTimeout, .sessionOpen])
    (hj : jobInstr job = some (rowOf i)) : isCommand job = true := by
  simp only [List.mem_cons, List.not_mem_nil, or_false] at hi
  cases job with
  | writeAck _ | readReply _ => rfl
  | _ => obtain rfl | rfl | rfl | rfl := hi <;> cases hj

/-- How a job ends, in the words of the matrix. -/
theorem JobEnds.inMatrix (h : JobEnds job r) (hj : jobInstr job = some (rowOf i)) :
    Machine.mayEndWith i r.outcome = true ∧
      (i ∈ [Instr.cmdWrite, .cmdRead, .scanSetTimeout, .sessionOpen] → r.outcome = .eShort → r.info = 1) :=
  ⟨mayEndWith_rowOf i _ ▸ h.mayEndWith hj, fun hi => h.short (isCommand_of_row hi hj)⟩

end

section
variable {i : Instr} {s t : State}

theorem jobInstr_mayHang {job : Job} (hjob : isCommand job = true ∨ (∃ n, job = .readExact n) ∨ job = .scanLines)
    (hj : jobInstr job = some i) :
    i ∈ [Instr.rxReadExact, .cmdWrite, .cmdRead, .scanRead, .scanSetTimeout, .sessionOpen] := by
  cases job with
  | writeAck next => cases next <;> cases hj <;> simp
  | readReply n | readExact n | scanLines => cases hj; simp
  | _ => simp [isCommand] at hjob

/-- The jobs that wait are those of the operations that may hang (60_exceptions.md R203). -/
theorem Waits.mayHang (hw : Waits s) (hf : phaseFits s) (hp : s.phase ≠ .idle)
    (hj : jobInstr s.work.job = some (rowOf i)) :
    i ∈ [Instr.rxReadExact, .rxReadByte, .cmdWrite, .cmdRead, .scanRead, .scanSetTimeout, .sessionOpen] := by
  have hjob : isCommand s.work.job = true ∨ (∃ n, s.work.job = .readExact n) ∨ s.work.job = .scanLines := by
    unfold Waits at hw
    unfold phaseFits at hf
    split at hw <;> rename_i hq <;> rw [hq] at hf hp
    · exact absurd rfl hp
    · exact .inr (.inr hf.1)
    · exact hw.1.imp_right .inl
    all_goals exact hw.elim
  have hrow := jobInstr_mayHang hjob hj
  cases i <;> simp [rowOf] at hrow ⊢

/-- But for RX.READ_BYTE, an operation that may hang has a row of its own. -/
theorem rowOf_of_mayHang
    (hi : i ∈ [Instr.rxReadExact, .rxReadByte, .cmdWrite, .cmdRead, .scanRead, .scanSetTimeout, .sessionOpen])
    (hn : i ≠ .rxReadByte) : rowOf i = i := by
  simp only [List.mem_cons, List.not_mem_nil, or_false] at hi
  obtain rfl | rfl | rfl | rfl | rfl | rfl | rfl := hi
  · rfl
  · exact absurd rfl hn
  all_goals rfl

/-- An operation of whom a job runs is that job's, and no other's. -/
theorem rowOf_of_jobInstr {job : Job} (h : jobInstr job = some i) : rowOf i = i := by
  cases job with
  | writeAck next => cases next <;> cases h <;> rfl
  | none => cases h
  | _ => cases h; rfl

end

/-- Settles O48: an operation ends at its start, with an outcome of its row, or with its job, which ends only as its row
allows; where it does not end it waits, and only the jobs that may hang wait. A later step carries the same job on. -/
theorem outcomesStayInTheMatrix : Obligations.OutcomesStayInTheMatrix := by
  refine ⟨fun i s t hi h => ?starts, fun i s t hs hp hj h => ?goesOn⟩
  case starts =>
    obtain ⟨u, -, hst, ⟨hp, rfl⟩ | ⟨hp, v, -, hv, rfl⟩⟩ := exec_cases hi h
    · exact ⟨fun _ => ⟨(hst.ends hp).1, fun _ ho => absurd ho (hst.ends hp).2⟩, fun hn => absurd hp hn⟩
    · have hj := (hst.job hp).1
      obtain ⟨hq, hpark⟩ | ⟨hq, hpark⟩ := park_cases v <;> rw [hpark]
      · exact ⟨fun hq => (hv.ends hq).inMatrix hj, fun hn => absurd hq hn⟩
      · have hjv : jobInstr v.work.job = some (rowOf i) := by rw [(hv.goesOn hq).1]; exact hj
        have hhang := hv.waits.mayHang hv.fits hq hjv
        exact ⟨fun hq' => absurd hq' hq, fun _ => ⟨hhang, fun hn => rowOf_of_mayHang hhang hn ▸ hjv⟩⟩
  case goesOn =>
    have hrow : jobInstr s.work.job = some (rowOf i) := by rw [rowOf_of_jobInstr hj]; exact hj
    obtain ⟨hq, -⟩ | ⟨-, -, h⟩ | ⟨-, -, h⟩ := advance_cases h
    · exact absurd hq hp
    · have hv := settle_settles hp hs.running.fits (phasesLeft_le _) h
      exact ⟨fun hq => (hv.ends hq).inMatrix hrow, fun hq => (hv.goesOn hq).1 ▸ hj⟩
    · have hv := phaseStep_proceeds hp hs.running.fits h
      exact ⟨fun hq => (hv.ends hq).inMatrix hrow, fun hq => (hv.goesOn hq).1 ▸ hj⟩

/-- Settles O49: an operation is refused at its start, before it touches anything, and none of its phases refuses. -/
theorem refusedTouchesNothing : Obligations.RefusedTouchesNothing := by
  intro i s t hi h ht ho
  obtain ⟨u, -, hst, ⟨hp, rfl⟩ | ⟨hp, v, -, hv, rfl⟩⟩ := exec_cases hi h
  · rw [hst.refused hp ho]
    exact ⟨endsKeeping_raise _ s, rfl⟩
  · obtain ⟨-, hpark⟩ | ⟨hq, hpark⟩ := park_cases v <;> rw [hpark] at ht ho
    · exact absurd ho (hv.ends ht).ne_refused
    · exact absurd ht hq

/-! ### Who writes what -/

section
variable {i : Instr} {s t : State}

/-- The pure operations and SESSION.CLOSE do not use the link. -/
theorem exec_pure_chan (hi : i ∈ [Instr.crcCompute, .crcVerify, .frameBuild, .frameParse, .sessionClose])
    (h : exec i s = .next t) : t.chan = s.chan := by
  simp only [List.mem_cons, List.not_mem_nil, or_false] at hi
  obtain rfl | rfl | rfl | rfl | rfl := hi
  · obtain ⟨-, rfl⟩ := execCrcCompute_next h; rfl
  · obtain ⟨-, rfl | rfl⟩ := execCrcVerify_next h <;> rfl
  · obtain ⟨-, ⟨obuf, olen, rfl⟩ | rfl⟩ := execFrameBuild_next h <;> rfl
  · obtain ⟨-, ⟨obuf, olen, rfl⟩ | ⟨e, -, rfl⟩⟩ := execFrameParse_next h <;> rfl
  · obtain ⟨-, rfl | ⟨-, tmo, rfl⟩⟩ := execSessionClose_next h <;> rfl

/-- A raw transmission takes no time and leaves what is to be read. -/
theorem exec_send_chan (hi : i = .txWriteAll ∨ i.port = .wire ∧ ∀ status p crc, i ≠ .wireReply status p crc)
    (h : exec i s = .next t) : t.chan.now = s.chan.now ∧
      (s.chan.rxDepth = none → s.chan.rxFifo <+: t.chan.rxFifo ∧ pendingRx t.chan = pendingRx s.chan) := by
  have hsend : ∃ bytes, runOn (whenOpen s (.next (enterSend bytes s))) = .next t := by
    obtain rfl | ⟨hp, hr⟩ := hi
    · exact ⟨_, h⟩
    · cases i with
      | wireWrite _ _ _ | wireRead _ _ _ | wirePersist _ => exact ⟨_, h⟩
      | wireReply status p crc => exact absurd rfl (hr status p crc)
      | _ => cases hp
  obtain ⟨bytes, hsend⟩ := hsend
  obtain ⟨-, rfl | ⟨c, -, hn, hq, rfl | rfl⟩⟩ := send_next hsend
  · exact ⟨rfl, fun _ => ⟨List.prefix_rfl, rfl⟩⟩
  · exact ⟨hn, hq⟩
  · exact ⟨hn, hq⟩

theorem read_tx {n : Nat} (h : runOn (whenOpen s (.next (enterRead n s))) = .next t) : t.chan.tx = s.chan.tx := by
  obtain ⟨-, rfl | ⟨-, h⟩⟩ := read_next h
  · rfl
  · obtain ⟨c, -, htx, ⟨acc, rfl⟩ | rfl | ⟨acc, -, rfl⟩⟩ := runRead_next h <;> exact htx

theorem execScanRead_tx (h : execScanRead s = .next t) : t.chan.tx = s.chan.tx := by
  obtain ⟨-, rfl | ⟨-, c, -, htx, rfl | rfl | ⟨code, -, h⟩⟩⟩ := execScanRead_next h
  · rfl
  · exact htx
  · exact htx
  · obtain ⟨c', -, htx', ⟨lines, rfl⟩ | rfl | ⟨cur, lines, -, rfl⟩⟩ := runLines_next h
    · have hc : (classify code lines { s with chan := c' }).chan = c' := by
        obtain h | h | ⟨scan, h⟩ := classify_cases code lines { s with chan := c' } <;> rw [h] <;> rfl
      exact (congrArg Channel.tx hc).trans (htx'.trans htx)
    · exact htx'.trans htx
    · exact htx'.trans htx

/-- A read sends nothing. -/
theorem exec_read_tx (hi : i ∈ [Instr.rxReadExact, .rxReadByte, .rxReadDeadline, .rxDiscard, .scanRead])
    (h : exec i s = .next t) : t.chan.tx = s.chan.tx := by
  simp only [List.mem_cons, List.not_mem_nil, or_false] at hi
  obtain rfl | rfl | rfl | rfl | rfl := hi
  · exact read_tx h
  · exact read_tx h
  · obtain ⟨-, rfl | ⟨c, -, htx, ⟨acc, rfl⟩ | rfl | ⟨k, rfl⟩ | rfl⟩⟩ := execRxReadDeadline_next h
    · rfl
    all_goals exact htx
  · obtain ⟨-, rfl | ⟨c, -, htx, rfl | rfl⟩⟩ := execRxDiscard_next h
    · rfl
    all_goals exact htx
  · exact execScanRead_tx h

/-- Only SESSION.OPEN and SESSION.CLOSE write the session, and only they and SCAN.SET_TIMEOUT write `SCAN_TIMEOUT`
(10_state.md R30). -/
theorem exec_registers (hi : ∀ status p crc, i ≠ .wireReply status p crc) (h : exec i s = .next t) :
    (i ≠ .sessionOpen → i ≠ .sessionClose → t.session = s.session) ∧
    (i ≠ .sessionOpen → i ≠ .sessionClose → i ≠ .scanSetTimeout → t.scanTimeout = s.scanTimeout) := by
  obtain ⟨u, -, hst, ⟨-, rfl⟩ | ⟨hp, v, -, hv, rfl⟩⟩ := exec_cases hi h
  · exact ⟨fun _ hc => (hst.registers hc).1, fun _ hc _ => (hst.registers hc).2⟩
  · have hopen : i ≠ .sessionOpen → u.work.job ≠ .writeAck .openSession := by
      intro ho hjob
      have hj := (hst.job hp).1
      rw [hjob] at hj
      cases i <;> cases hj
      exact ho rfl
    have hset : i ≠ .scanSetTimeout → ∀ tmo, u.work.job ≠ .writeAck (.setTimeout tmo) := by
      intro ho tmo hjob
      have hj := (hst.job hp).1
      rw [hjob] at hj
      cases i <;> cases hj
      exact ho rfl
    have hpark : (park v).session = v.session ∧ (park v).scanTimeout = v.scanTimeout := by
      obtain ⟨-, hpark⟩ | ⟨-, hpark⟩ := park_cases v <;> rw [hpark] <;> exact ⟨rfl, rfl⟩
    exact ⟨fun ho hc => hpark.1.trans ((hv.registers.session (hopen ho)).trans (hst.registers hc).1),
      fun ho hc hs => hpark.2.trans ((hv.registers.scanTimeout (hopen ho) (hset hs)).trans (hst.registers hc).2)⟩

/-- What a job writes is what its instruction may write. -/
theorem JobWrites.writesOnly {job : Job} {r r' : Results} (h : JobWrites job r r') (hj : jobInstr job = some (rowOf i)) :
    WritesOnly i r r' := by
  refine ⟨h.info, fun _ => h.crcout, fun hn => h.scan ?_, fun hn => h.bytes ?_⟩
  · rintro rfl
    cases i <;> cases hj
    exact hn rfl
  · by_contra hb
    have hrow : rowOf i ∈ [Instr.frameBuild, .frameParse, .rxReadExact, .rxReadDeadline, .cmdRead] := by
      cases job with
      | frameBuild | frameParse _ _ | readDeadline _ _ | readExact _ | readReply _ =>
        rw [← Option.some.inj hj]
        simp
      | _ => exact absurd rfl hb
    cases i <;> simp [rowOf] at hn hrow

/-- An operation that ends without an error writes the registers of its results (log 7). -/
theorem exec_writes (hi : ∀ status p crc, i ≠ .wireReply status p crc) (h : exec i s = .next t) (ht : t.phase = .idle)
    (ho : isError t.result.outcome = false) : WritesOnly i s.result t.result := by
  obtain ⟨u, -, hst, ⟨hp, rfl⟩ | ⟨hp, v, -, hv, rfl⟩⟩ := exec_cases hi h
  · exact hst.writes hp ho
  · obtain ⟨hq, hpark⟩ | ⟨hq, hpark⟩ := park_cases v <;> rw [hpark] at ht ho ⊢
    · rw [← hst.result hp]
      exact (hv.writes hq ho).writesOnly (hst.job hp).1
    · exact absurd ht hq

end

/-- Settles O51: clause by clause, for the operations; a reply that arrives only pushes its bytes. -/
theorem accessTableIsTheFrame : Obligations.AccessTableIsTheFrame := by
  intro i s t h
  obtain ⟨status, p, crc, rfl⟩ | hi := reply_or_operation i
  case inl =>
    cases h
    exact ⟨rfl, rfl, rfl, by simp, by simp [Instr.port], by simp, fun _ _ => rfl, fun _ _ _ => rfl,
      fun _ _ hn => absurd rfl (hn status p crc), fun _ => ⟨rfl, rfl, rfl, pushAll_tx _ _, pushAll_now _ _⟩⟩
  case inr =>
    have hg := exec_goes hi h
    obtain ⟨hsession, htimeout⟩ := exec_registers hi h
    refine ⟨hg.host, hg.params, hg.requests, fun hp => exec_pure_chan hp h, fun hp => exec_send_chan hp h,
      fun hp => exec_read_tx hp h, hsession, htimeout, fun ht ho _ => ?_,
      fun ⟨status, p, crc, hr⟩ => absurd hr (hi status p crc)⟩
    have hw := exec_writes hi h ht ho
    exact ⟨hw.info, hw.crcout, hw.scan, hw.bytes⟩

end Sys2Proof.Machine
end

section
/-! SUPPORT. The laws of the checksum (40_checksum.md R114): linearity, a span with its own checksum, and that no change
of one bit goes unseen, by the checksum or by the parser. -/

namespace Sys2Proof.Machine

/-! ### Linearity -/

theorem crcFrom_xor {a b : List Byte} (h : a.length = b.length) (c d : Word) :
    crcFrom (List.zipWith (· ^^^ ·) a b) (c ^^^ d) = crcFrom a c ^^^ crcFrom b d := by
  induction a generalizing b c d with
  | nil =>
    obtain rfl : b = [] := List.length_eq_zero_iff.1 h.symm
    rfl
  | cons x a ih =>
    cases b with
    | nil => cases h
    | cons y b => simp only [List.zipWith_cons_cons, crcFrom_cons, crcByte_xor, ih (Nat.succ.inj h)]

/-- Settles O5: by induction over the two spans, a byte's step being linear in the register and the byte. -/
theorem crcIsLinear : Obligations.CrcIsLinear :=
  fun _ _ h => crcFrom_xor h Config.crcInit Config.crcInit

/-! ### One step back -/

/-- A step of the register forgets nothing: linear, and zero on zero alone. -/
theorem crcBit_injective : Function.Injective crcBit := by
  intro x y h
  have hz : crcBit (x ^^^ y) = 0#16 := by rw [crcBit_xor, h, BitVec.xor_self]
  rw [crcBit_eq_zero] at hz
  exact BitVec.xor_eq_zero_iff.1 hz

/-- So two bytes' steps agree only where what enters the register does. -/
theorem crcByte_inj {c d : Word} {a b : Byte} :
    crcByte c a = crcByte d b ↔ c ^^^ (a.setWidth 16 <<< 8) = d ^^^ (b.setWidth 16 <<< 8) := by
  rw [crcByte_eq_iterate, crcByte_eq_iterate]
  exact (crcBit_injective.iterate 8).eq_iff

theorem crcFrom_injective (s : List Byte) : Function.Injective (crcFrom s) := by
  induction s with
  | nil => exact fun _ _ h => h
  | cons b s ih =>
    intro c d h
    rw [crcFrom_cons, crcFrom_cons] at h
    exact (BitVec.xor_left_inj _).1 (crcByte_inj.1 (ih h))

/-- Another byte leaves another register. -/
theorem crcByte_right_injective (c : Word) : Function.Injective (crcByte c) := by
  intro a b h
  have hs : a.setWidth 16 <<< 8 = b.setWidth 16 <<< 8 := (BitVec.xor_right_inj _).1 (crcByte_inj.1 h)
  apply BitVec.eq_of_getLsbD_eq
  intro i hi
  have hbit := congrArg (·.getLsbD (i + 8)) hs
  simpa [show i + 8 < 16 by omega, show i < 16 by omega] using hbit

/-- A byte altered in one bit is another byte. -/
theorem xor_bit_ne_byte (b : Byte) {k : Nat} (hk : k < 8) : b ^^^ (1#8 <<< k) ≠ b := by
  intro h
  have hbit := congrArg (·.getLsbD k) h
  simp [hk] at hbit

/-- Settles O6: up to the altered byte the registers agree, its step tells them apart, and no later step brings them
together. -/
theorem crcDetectsEverySingleBitFlip : Obligations.CrcDetectsEverySingleBitFlip := by
  intro before after b k hk h
  rw [crc16, crc16, crcFrom_append, crcFrom_append, crcFrom_cons, crcFrom_cons] at h
  exact xor_bit_ne_byte b hk (crcByte_right_injective _ (crcFrom_injective after h))

/-! ### A span and its checksum -/

/-- A byte at the low end of the register is shifted to the high end before any bit of it is shifted out. -/
theorem crcBit_iterate_byte (x : Byte) {k : Nat} (hk : k ≤ 8) : crcBit^[k] (x.setWidth 16) = x.setWidth 16 <<< k := by
  induction k with
  | zero => simp
  | succ k ih =>
    have hmsb : (x.setWidth 16 <<< k).msb = false := by
      rw [BitVec.msb_eq_getLsbD_last, BitVec.getLsbD_shiftLeft, BitVec.getLsbD_setWidth]
      simp [BitVec.getLsbD_of_ge x (15 - k) (by omega)]
    rw [Function.iterate_succ_apply', ih (by omega), crcBit_of_msb_false hmsb, ← BitVec.shiftLeft_add]

/-- Taking its high byte out of a word leaves the low one. -/
theorem xor_hi (c : Word) : c ^^^ ((hi c).setWidth 16 <<< 8) = (lo c).setWidth 16 := by
  apply BitVec.eq_of_getLsbD_eq
  intro i hi'
  by_cases h8 : i < 8
  · simp [hi, lo, h8, hi']
  · have h1 : 8 + (i - 8) = i := by omega
    simp [hi, lo, h8, hi', h1, show i - 8 < 8 by omega]

/-- The two bytes of the register, fed to it, cancel it (40_checksum.md R114 law 5). -/
theorem crcFrom_self (c : Word) : crcFrom [hi c, lo c] c = 0x0000 := by
  have hhi : crcByte c (hi c) = (lo c).setWidth 16 <<< 8 := by
    rw [crcByte_eq_iterate, xor_hi, crcBit_iterate_byte _ (Nat.le_refl 8)]
  rw [crcFrom_cons, crcFrom_cons, crcFrom_nil, hhi, crcByte_eq_iterate, BitVec.xor_self]
  exact Function.iterate_fixed crcBit_zero 8

/-- Settles O4: after the span the register holds its checksum, which its own two bytes cancel. -/
theorem crcOfCheckedSpanIsZero : Obligations.CrcOfCheckedSpanIsZero := by
  intro bytes
  rw [crc16, crcFrom_append]
  exact crcFrom_self (crc16 bytes)

/-! ### What the parser sees of it -/

/-- Without `CHECK` no error of the parser is a mismatch. -/
theorem parseReply_unchecked {buf : List Byte} {cap : Nat} {e : Error} (h : parseReply buf cap false = .error e) :
    errorOutcome e ≠ .eCrc := by
  have hcrc : ¬ crcAccepts (replySpan buf) (if false then replyTrailer buf else Config.crcSkip) = false := by
    rw [crcTest_fails_iff]
    nofun
  unfold parseReply at h
  rw [if_neg hcrc] at h
  split_ifs at h <;> cases h <;> nofun

/-- Settles O9: test (d) is the one that asks for `CHECK`, and a trailer that is not tested passes. -/
theorem suppressedParseIgnoresTrailer : Obligations.SuppressedParseIgnoresTrailer := by
  refine fun s h hcheck => ⟨?never, fun p x y h1 h256 hcap hbuf => ?passes⟩
  case never =>
    refine ⟨_, exec_frameParse h, ?_⟩
    rw [hcheck]
    cases hp : parseReply s.host.ibuf s.host.cap false with
    | ok r => nofun
    | error e => exact parseReply_unchecked hp
  case passes =>
    refine exec_frameParse_payload (v := be x y) h h1 h256 hcap ?_ fun hc => nomatch hcheck.symm.trans hc
    rw [hbuf, hi_be, lo_be]

/-- Settles O12: the flipped bit changes the checksum of the span, so that the trailer fails test (d). -/
theorem payloadBitFlipIsMismatch : Obligations.PayloadBitFlipIsMismatch := by
  intro s before after b k c h hcheck hk hc hskip hbuf
  have hne : crc16 (0x00 :: encLen (before ++ b :: after).length :: (before ++ (b ^^^ (1#8 <<< k)) :: after)) ≠ c := by
    rw [hc]
    exact crcDetectsEverySingleBitFlip (0x00 :: encLen (before ++ b :: after).length :: before) after b k hk
  have hp : parseReply s.host.ibuf s.host.cap s.host.check = .error .checksumMismatch := by
    rw [hbuf, hcheck]
    exact parseReply_mismatch hskip hne
  exact ⟨_, exec_frameParse_error h hp, endsKeeping_raise _ s, rfl, rfl⟩

end Sys2Proof.Machine
end

section
/-! SUPPORT. Transmitting in the model's form of the link (42_transport.md R141, R145, R150; logs 4, 20, 21): answers
belong to bytes one by one, bytes cut in, a failure ends the operation that sends; and the operations that are one
transfer or none. -/

namespace Sys2Proof.Machine

/-! ### The events of a transfer -/

/-- Where a byte is pushed depends on the queue alone, not on what was sent and what the link will do, … -/
theorem pushRx_with (b : Byte) (c : Channel) (tx : List Byte) (l : List LinkEvent) :
    pushRx b { c with tx := tx, link := l } = { pushRx b c with tx := tx, link := l } := by
  unfold pushRx
  dsimp only
  cases c.rxDepth with
  | none => rfl
  | some d =>
    dsimp only
    split_ifs
    · rfl
    · cases Config.overflowFate c.lost <;> rfl

theorem pushRx_withTx (b : Byte) (c : Channel) (tx : List Byte) :
    pushRx b { c with tx := tx } = { pushRx b c with tx := tx } :=
  (pushRx_with b c tx c.link).trans (congrArg (fun l => { pushRx b c with tx := tx, link := l }) (pushRx_link b c).symm)

theorem pushRx_withLink (b : Byte) (c : Channel) (l : List LinkEvent) :
    pushRx b { c with link := l } = { pushRx b c with link := l } :=
  (pushRx_with b c c.tx l).trans (congrArg (fun tx => { pushRx b c with tx := tx, link := l }) (pushRx_tx b c).symm)

/-- … so that a transfer may be given its events apart from the channel: bytes that land, … -/
theorem land_link (l l' : List LinkEvent) (c : Channel) : land l { c with link := l' } = land l c := by
  induction l generalizing c with
  | nil => rfl
  | cons e l ih =>
    cases e with
    | cutIn b => rw [land, land, pushRx_withLink, ih]
    | _ => rfl

/-- … and a transmission. -/
theorem transmit_link (l l' : List LinkEvent) (bs : List Byte) (c : Channel) :
    transmit l bs { c with link := l' } = transmit l bs c := by
  cases bs with
  | nil => rw [transmit_nothing, transmit_nothing]
  | cons b bs =>
    induction l generalizing c with
    | nil => rw [transmit_nil, transmit_nil]
    | cons e l ih =>
      cases e with
      | cutIn x => rw [transmit, transmit, pushRx_withLink, ih]
      | _ => rfl

section
variable {k : Nat} {bs : List Byte} {l : List LinkEvent} {c : Channel}

/-- After `k` answers the failure is the answer to byte `k` (42_transport.md R141; log 21). -/
theorem transmit_fail_at (sent : Bool) (hk : k < bs.length) :
    transmit (List.replicate k .ok ++ .fail sent :: l) bs c =
      .ioFail { c with tx := c.tx ++ bs.take (if sent then k + 1 else k), link := l } := by
  induction k generalizing bs c with
  | zero =>
    obtain ⟨b, bs, rfl⟩ := List.exists_cons_of_length_pos hk
    cases sent with
    | true => rfl
    | false => rw [List.replicate_zero, List.nil_append, transmit]; simp
  | succ k ih =>
    obtain ⟨b, bs, rfl⟩ := List.exists_cons_of_length_pos (Nat.zero_lt_of_lt hk)
    rw [List.replicate_succ, List.cons_append, transmit, ih (Nat.lt_of_succ_lt_succ hk)]
    cases sent <;> simp

/-- After as many answers as bytes, or with no answer left, the rest is accepted (log 4). -/
theorem transmit_accepts (hk : k ≤ bs.length)
    (hl : k = bs.length ∨ ∀ e ∈ l.head?, isAnswer e = false ∧ isCutIn e = false) :
    transmit (List.replicate k .ok ++ l) bs c = .sent { c with tx := c.tx ++ bs, link := l } := by
  induction k generalizing bs c with
  | zero =>
    cases bs with
    | nil => simpa using transmit_nothing l c
    | cons b bs =>
      have hl := hl.resolve_left nofun
      cases l with
      | nil => simp
      | cons e l =>
        obtain ⟨ha, hc⟩ := hl e rfl
        cases e with
        | arrive _ | elapse _ | latePoll => rfl
        | ok | fail _ => cases ha
        | cutIn _ => cases hc
  | succ k ih =>
    obtain ⟨b, bs, rfl⟩ := List.exists_cons_of_length_pos (Nat.zero_lt_of_lt hk)
    rw [List.replicate_succ, List.cons_append, transmit, ih (Nat.le_of_succ_le_succ hk) (hl.imp_left Nat.succ.inj)]
    simp

/-- A byte that cuts in after `k` answers is pushed, and the transmission goes on (42_transport.md R150). -/
theorem transmit_cutIn_at (b : Byte) (hk : k < bs.length) :
    transmit (List.replicate k .ok ++ .cutIn b :: l) bs c = transmit (List.replicate k .ok ++ l) bs (pushRx b c) := by
  induction k generalizing bs c with
  | zero =>
    obtain ⟨x, bs, rfl⟩ := List.exists_cons_of_length_pos hk
    rfl
  | succ k ih =>
    obtain ⟨x, bs, rfl⟩ := List.exists_cons_of_length_pos (Nat.zero_lt_of_lt hk)
    have hon (l' : List LinkEvent) (c : Channel) : transmit (List.replicate (k + 1) .ok ++ l') (x :: bs) c =
        transmit (List.replicate k .ok ++ l') bs { c with tx := c.tx ++ [x] } :=
      transmit_link (List.replicate k .ok ++ l') _ bs { c with tx := c.tx ++ [x] }
    rw [hon, hon, ih (Nat.lt_of_succ_lt_succ hk), pushRx_tx, pushRx_withTx]

/-- So the byte may as well have joined the queue before (log 18). -/
theorem transmit_cutIn_channel {b : Byte} (hk : k < bs.length) (h : c.link = List.replicate k .ok ++ .cutIn b :: l) :
    transmit c.link bs c = transmit (pushRx b { c with link := List.replicate k .ok ++ l }).link bs
      (pushRx b { c with link := List.replicate k .ok ++ l }) := by
  rw [h, transmit_cutIn_at b hk, pushRx_withLink b c (List.replicate k LinkEvent.ok ++ l)]
  exact (transmit_link _ _ _ _).symm

end

/-! ### Operations that are one transfer -/

section
variable {s : State}

/-- How a raw transmission ends, given what its transfer answers. -/
def endSend (answer : TxAnswer) (s : State) : State :=
  match answer with
  | .sent c => finishWith .ok { s with chan := c }
  | .ioFail c => raise .ioFailure { s with chan := c }

theorem runSend_eq (bytes : List Byte) (s : State) :
    runOn (.next (enterSend bytes s)) = .next (endSend (transmit s.chan.link bytes s.chan) s) := by
  cases h : transmit s.chan.link bytes s.chan with
  | sent c => exact runSend_sent h
  | ioFail c => exact runSend_ioFail h

/-- A raw transmission that is answered the same on two channels ends the same. -/
theorem runSend_congr {bytes : List Byte} {c : Channel}
    (h : transmit s.chan.link bytes s.chan = transmit c.link bytes c) :
    runOn (.next (enterSend bytes s)) = runOn (.next (enterSend bytes { s with chan := c })) := by
  rw [runSend_eq, runSend_eq, h]
  cases transmit c.link bytes c <;> rfl

/-- An exact read that is answered the same on two channels ends the same, or waits the same. -/
theorem runRead_congr {n : Nat} {c : Channel} (h : readMore n [] s.chan = readMore n [] c) :
    runOn (.next (enterRead n s)) = runOn (.next (enterRead n { s with chan := c })) := by
  cases hc : readMore n [] c with
  | done acc c' => rw [runRead_done (h.trans hc), runRead_done hc]
  | ioFail c' => rw [runRead_ioFail (h.trans hc), runRead_ioFail hc]
  | waiting acc c' => rw [runRead_waiting (h.trans hc), runRead_waiting hc]

/-- Bytes to be sent on a link that fails at byte `k`. -/
theorem runSend_fail_at {bytes : List Byte} {k : Nat} {l : List LinkEvent} (sent : Bool) (hk : k < bytes.length)
    (hl : s.chan.link = List.replicate k .ok ++ .fail sent :: l) :
    ∃ t, runOn (.next (enterSend bytes s)) = .next t ∧ EndsKeeping s t ∧ t.result.outcome = .eIo ∧
      t.chan = { s.chan with tx := s.chan.tx ++ bytes.take (if sent then k + 1 else k), link := l } := by
  have ht := transmit_fail_at (l := l) (c := s.chan) sent hk
  rw [← hl] at ht
  exact ⟨_, runSend_ioFail ht, (endsKeeping_raise _ _).of_chan, rfl, rfl⟩

/-- A byte that cuts in before a read has joined the queue when its first byte is taken. -/
theorem rxByte_cutIn {b : Byte} {l : List LinkEvent} {c : Channel} (h : c.link = .cutIn b :: l) :
    rxByte c = rxByte (pushRx b { c with link := l }) := by
  rw [rxByte, rxByte, h, land, pushRx_withLink b c l]
  exact congrArg takeByte (land_link l l (pushRx b c)).symm

theorem readMore_cutIn {n : Nat} {acc : List Byte} {b : Byte} {l : List LinkEvent} {c : Channel} (hn : 1 ≤ n)
    (h : c.link = .cutIn b :: l) : readMore n acc c = readMore n acc (pushRx b { c with link := l }) := by
  obtain ⟨n, rfl⟩ := Nat.exists_eq_add_of_le' hn
  rw [readMore, readMore, rxByte_cutIn h]

end

/-- Settles O14: the transfer uses up its answers byte by byte to the failure, to its last byte or to an event that is
none; a byte that cuts in is pushed on the way. -/
theorem transmissionFollowsLinkAnswers : Obligations.TransmissionFollowsLinkAnswers := by
  intro s k l h ho
  have hsend (c : Channel) : exec .txWriteAll { s with chan := c } =
      runOn (.next (enterSend s.host.ibuf { s with chan := c })) := execTxWriteAll_opened h ho
  have hread (c : Channel) : exec .rxReadExact { s with chan := c } =
      runOn (.next (enterRead s.host.n { s with chan := c })) := execRxReadExact_opened h ho
  refine ⟨fun sent hk hl => ?fails, fun hk hl hlast => ?accepts, fun b hk hl => ?cutInSend, fun b hl hn => ?cutInRead⟩
  case fails =>
    obtain ⟨t, hrun, hreports⟩ := runSend_fail_at sent hk hl
    exact ⟨t, (hsend s.chan).trans hrun, hreports⟩
  case accepts =>
    have ht := transmit_accepts (c := s.chan) hk hlast
    rw [← hl] at ht
    exact ⟨_, (hsend s.chan).trans (runSend_sent ht), (endsKeeping_finishWith _ _).of_chan, rfl, rfl⟩
  case cutInSend =>
    exact (hsend s.chan).trans ((runSend_congr (transmit_cutIn_channel hk hl)).trans (hsend _).symm)
  case cutInRead => exact (hread s.chan).trans ((runRead_congr (readMore_cutIn hn hl)).trans (hread _).symm)

/-- Settles O17: in an open session the operation is the discard and its end. -/
theorem discardDropsQueuedBytes : Obligations.DiscardDropsQueuedBytes := by
  refine ⟨rfl, fun s h => ⟨refuses_of_not_opened rfl h, fun ho => ⟨fun hf => ?drops, fun sent rest hl => ?fails⟩⟩⟩
  all_goals
    have hrun : exec .rxDiscard s = match discardRx s.chan with
        | .sent c => .next (finishWith .ok { s with chan := c })
        | .ioFail c => .next (raise .ioFailure { s with chan := c }) := whenOpen_opened h ho
  case drops =>
    obtain ⟨c, hd⟩ := discardRx_calm hf
    obtain ⟨hq, htx, hnow, harr⟩ := discardRx_sent hd
    rw [hd] at hrun
    exact ⟨_, hrun, (endsKeeping_finishWith _ _).of_chan, htx, hnow, rfl, hq,
      by rw [finishWith_chan, pendingRx, hq, harr, List.nil_append]⟩
  case fails =>
    have hd : discardRx s.chan = .ioFail { s.chan with link := rest } := by rw [discardRx, hl]
    rw [hd] at hrun
    exact ⟨_, hrun, (endsKeeping_raise _ _).of_chan, rfl, rfl, rfl⟩

/-- Settles O43: written out, the bytes are the encoding, and the frame is sent as TX.WRITE_ALL sends its own. -/
theorem wireCommandFramesAreSentRaw : Obligations.WireCommandFramesAreSentRaw := by
  intro s h i bytes hi
  obtain ⟨hneeds, hrun⟩ : needsOpen i = true ∧
      (s.session = .opened → exec i s = runOn (.next (enterSend bytes s))) := by
    obtain ⟨addr, p, crc, rfl, rfl⟩ | ⟨addr, n, crc, rfl, rfl⟩ | ⟨rest, rfl, rfl⟩ := hi
    all_goals exact ⟨rfl, fun ho => runOn_whenOpen.trans (whenOpen_opened h ho)⟩
  refine ⟨refuses_of_not_opened hneeds h, fun ho hn => ?sent, fun ho k sent l hk hl => ?fails⟩
  case sent =>
    obtain ⟨c, ht⟩ := transmit_calm hn bytes s.chan
    have hnow := (transmit_later s.chan.link bytes s.chan).2
    have hqueue := fun hd => transmit_unbounded (c := s.chan) hd s.chan.link bytes
    rw [ht] at hnow hqueue
    exact ⟨_, (hrun ho).trans (runSend_sent ht), (endsKeeping_finishWith _ _).of_chan, rfl, (transmit_sent ht).1, hnow,
      hqueue⟩
  case fails =>
    obtain ⟨t, ht, hreports⟩ := runSend_fail_at sent hk hl
    exact ⟨t, (hrun ho).trans ht, hreports⟩

/-- Settles O25: each of the three is a command with this frame, and the transfer fails at byte `k`. -/
theorem failedTransmitReadsNothing : Obligations.FailedTransmitReadsNothing := by
  intro s k sent l frame h hk hl i hi
  obtain ⟨f, job, hj, hf, hrun⟩ : ∃ f job, isCommand job = true ∧ frame = buildFrame f ∧
      exec i s = runOn (.next (enterCommand f job s)) := by
    obtain ⟨rfl, ho, h1, h256, hf⟩ | ⟨rfl, ho, h1, h256, hf⟩ | ⟨rfl, ho, h1, hmax, hf⟩ := hi
    · exact ⟨writeFields s.host.addr s.host.ibuf, _, rfl, hf,
        execCmdWrite_opened h ho (encodableLength_iff.2 ⟨h1, h256⟩)⟩
    · exact ⟨readFields s.host.addr s.host.n, _, rfl, hf, execCmdRead_opened h ho (readDomain_iff.2 ⟨h1, h256⟩)⟩
    · exact ⟨writeFields s.params.addrScanTimeout [timeoutByte s.host.tmo], _, rfl, hf,
        execScanSetTimeout_opened h ho (legalTimeout_iff.2 ⟨h1, hmax⟩)⟩
  have ht := transmit_fail_at (l := l) (c := s.chan) sent hk
  rw [← hl, hf] at ht
  rw [hf]
  exact ⟨_, hrun.trans (runCommand_ioFail hj ht), (endsKeeping_raise _ _).of_chan, rfl, rfl⟩

/-! ### Operations without one -/

/-- Settles O41: the operation ends at once, and the session it leaves closed refuses CMD.READ. -/
theorem sessionCloseOnlyReleases : Obligations.SessionCloseOnlyReleases := by
  refine ⟨rfl, fun s h => ⟨refuses_of_not_opened rfl h, fun ho => ?_⟩⟩
  exact ⟨_, whenOpen_opened h ho, rfl, rfl, rfl, ⟨rfl, rfl, rfl, rfl, rfl, rfl, rfl⟩,
    refuses_of_not_opened rfl rfl nofun⟩

/-- Settles O44: an unbounded queue takes the bytes of the encoding whole. -/
theorem wireReplyArrivesInQueue : Obligations.WireReplyArrivesInQueue := by
  intro s status p crc hd
  show Host.Outcome.next { s with chan := pushAll (encode (.wireReply status p crc)) s.chan } = _
  rw [pushAll_unbounded _ _ hd]
  rfl

end Sys2Proof.Machine
end

section
/-! SUPPORT. Reading under a deadline (42_transport.md R146 to R149): when the read fails, what it takes at once, what a
silent link leaves it with, and a byte that arrives in time. -/

namespace Sys2Proof.Machine

/-! ### A read fails only when the link does -/

/-- A poll of an empty queue on a link that does not fail ends without a failure, and the link still has none. -/
theorem pollArrival_noFail {w : Nat} {l : List LinkEvent} {c : Channel} (h : noFail l = true) :
    noFail (pollArrival w l c).chan.link = true ∧ ∀ c', pollArrival w l c ≠ .ioFail c' := by
  fun_induction pollArrival w l c with
  | case1 => exact ⟨rfl, nofun⟩
  | case2 | case4 => exact ⟨(noFail_cons.1 h).2, nofun⟩
  | case3 w b l c hq ih | case5 w b l c hq ih | case6 w k l c hlt ih | case9 w l c ih => exact ih (noFail_cons.1 h).2
  | case7 w k l c hge =>
    refine ⟨?_, nofun⟩
    dsimp only [PollAnswer.chan]
    split
    · exact (noFail_cons.1 h).2
    · exact noFail_cons.2 ⟨rfl, (noFail_cons.1 h).2⟩
  | case8 => exact ⟨(noFail_cons.1 h).2, nofun⟩
  | case10 => cases (noFail_cons.1 h).1

theorem pollByte_noFail {w : Nat} {c : Channel} (h : noFail c.link = true) :
    noFail (pollByte w c).chan.link = true ∧ ∀ c', pollByte w c ≠ .ioFail c' := by
  unfold pollByte
  split
  · exact pollArrival_noFail h
  · split
    · next l hl => rw [hl] at h; cases (noFail_cons.1 h).1
    · next l hl => exact ⟨(noFail_cons.1 (hl ▸ h)).2, nofun⟩
    · exact ⟨h, nofun⟩

theorem poll_noFail {w : Nat} {c : Channel} (h : noFail c.link = true) :
    noFail (poll w c).chan.link = true ∧ ∀ c', poll w c ≠ .ioFail c' :=
  pollByte_noFail (noFail_suffix (land_frame c.link c).2.2.1 h)

theorem nextPoll_noFail {tmo elapsed : Nat} {c : Channel} {r : PollAnswer} (h : noFail c.link = true)
    (hr : nextPoll tmo elapsed c = some r) : noFail r.chan.link = true ∧ ∀ c', r ≠ .ioFail c' := by
  unfold nextPoll at hr
  split at hr
  · cases hr; exact poll_noFail h
  · split at hr
    · next l hl =>
      split at hr
      · cases hr; exact poll_noFail (noFail_cons.1 (hl ▸ h)).2
      · cases hr
    · cases hr

theorem deadlineLoop_noFail {fuel n tmo tStart : Nat} {acc : List Byte} {c c' : Channel} (h : noFail c.link = true) :
    deadlineLoop fuel n tmo tStart acc c ≠ .ioFail c' := by
  induction fuel generalizing acc c with
  | zero => exact nofun
  | succ fuel ih =>
    unfold deadlineLoop
    split
    · exact nofun
    · split
      · exact nofun
      · next hr => exact absurd rfl ((nextPoll_noFail h hr).2 _)
      · next hr => exact ih (nextPoll_noFail h hr).1
      · next hr => exact ih (nextPoll_noFail h hr).1

/-- A deadline read that fails has met a failure of the link (60_exceptions.md R208). -/
theorem fails_of_readDeadline_ioFail {n tmo : Nat} {c c' : Channel} (h : readDeadline n tmo c = .ioFail c') :
    noFail c.link = false :=
  Bool.eq_false_iff.2 fun hn => deadlineLoop_noFail hn h

/-! ### Queued bytes -/

/-- The bytes a deadline read has when it ends are the oldest of the stream (42_transport.md R146). -/
theorem readDeadline_taken {n tmo : Nat} {acc : List Byte} {c c' : Channel} (hd : c.rxDepth = none)
    (h : readDeadline n tmo c = .done acc c' ∨ readDeadline n tmo c = .expired acc c') :
    acc ++ pendingRx c' = pendingRx c := by
  have htaken := deadlineLoop_taken (fuel := deadlineFuel n tmo c.now c) (n := n) (tmo := tmo) (tStart := c.now)
    (acc := []) hd
  obtain h | h := h
  all_goals
    change deadlineLoop _ _ _ _ _ _ = _ at h
    rw [h] at htaken
    exact htaken.resolve_right nofun

/-- Bytes that are queued before the deadline are taken at once, oldest first, while the link does not fail
(42_transport.md R147). -/
theorem deadlineLoop_calm {fuel n tmo tStart : Nat} {acc : List Byte} {c : Channel} (hc : calm c = true)
    (hq : n ≤ acc.length + c.rxFifo.length) (ha : acc.length ≤ n) (hf : n - acc.length < fuel)
    (ht : c.now - tStart < tmo) :
    ∃ c', deadlineLoop fuel n tmo tStart acc c = .done (acc ++ c.rxFifo.take (n - acc.length)) c' ∧
      c.rxFifo.drop (n - acc.length) <+: c'.rxFifo ∧ pendingRx c' = (pendingRx c).drop (n - acc.length) ∧
      c'.tx = c.tx ∧ c'.now = c.now := by
  induction fuel generalizing acc c with
  | zero => omega
  | succ fuel ih =>
    unfold deadlineLoop
    split
    · next hn => exact ⟨c, by simp [hn], by simp [hn], by simp [hn], rfl, rfl⟩
    · next hn =>
      obtain ⟨k, hk⟩ : ∃ k, n - acc.length = k + 1 := ⟨n - acc.length - 1, by omega⟩
      cases hx : c.rxFifo with
      | nil => rw [hx, List.length_nil] at hq; omega
      | cons b q =>
        rw [hx, List.length_cons] at hq
        obtain ⟨c₁, hp, hcalm, ⟨r, hr⟩, hpend, htx, hnow⟩ :=
          poll_queued hc hx (pollTicks tmo (c.now - tStart) c)
        have hkq : k ≤ q.length := by omega
        have hleft : n - (acc ++ [b]).length = k := by rw [List.length_append, List.length_singleton]; omega
        rw [nextPoll, if_pos ht, hp]
        obtain ⟨c', hloop, hpre, hrest, htx', hnow'⟩ := ih (acc := acc ++ [b]) hcalm
          (by rw [← hr, List.length_append, List.length_append, List.length_singleton]; omega)
          (by rw [List.length_append, List.length_singleton]; omega) (by omega) (by rw [hnow]; exact ht)
        rw [hleft, ← hr] at hloop hpre
        rw [hleft] at hrest
        rw [List.take_append_of_le_length hkq] at hloop
        rw [List.drop_append_of_le_length hkq] at hpre
        refine ⟨c', ?_, ?_, ?_, htx'.trans htx, hnow'.trans hnow⟩
        · rw [hk, List.take_succ_cons]
          simpa using hloop
        · rw [hk, List.drop_succ_cons]
          exact (List.prefix_append _ _).trans hpre
        · rw [hk, hrest, hpend, pendingRx, hx, List.cons_append, List.drop_succ_cons]

/-- On a silent link fewer queued bytes than wanted are all taken, and the read goes on with an empty queue. -/
theorem deadlineLoop_takes_queue {fuel n tmo tStart : Nat} {q acc : List Byte} {c : Channel} (hl : c.link = [])
    (hq : acc.length + q.length < n) (ht : c.now - tStart < tmo) :
    deadlineLoop (fuel + q.length) n tmo tStart acc { c with rxFifo := q } =
      deadlineLoop fuel n tmo tStart (acc ++ q) { c with rxFifo := [] } := by
  induction q generalizing acc with
  | nil => rw [List.append_nil]; rfl
  | cons b q ih =>
    rw [List.length_cons] at hq
    have hp : nextPoll tmo (c.now - tStart) { c with rxFifo := b :: q } = some (.byte b { c with rxFifo := q }) := by
      simp [nextPoll, ht, poll, pollByte, land, hl]
    rw [List.length_cons, ← Nat.add_assoc, deadlineLoop, if_neg (by omega), hp]
    dsimp only
    rw [ih (by rw [List.length_append, List.length_singleton]; omega)]
    simp

/-- With too few bytes queued and a silent link the read ends with just these, not before the deadline. -/
theorem readDeadline_silent {n tmo : Nat} {c : Channel} (hl : c.link = []) (hq : c.rxFifo.length < n) (ht : 1 ≤ tmo) :
    ∃ now, readDeadline n tmo c = .expired c.rxFifo { c with rxFifo := [], now := now } ∧ c.now + tmo ≤ now := by
  have hfuel : deadlineFuel n tmo c.now c = n - c.rxFifo.length + tmo + 1 + c.rxFifo.length := by
    rw [deadlineFuel, hl, List.length_nil]; omega
  have htake := deadlineLoop_takes_queue (fuel := n - c.rxFifo.length + tmo + 1) (n := n) (tStart := c.now)
    (acc := []) (q := c.rxFifo) hl (by simpa using hq) (tmo := tmo) (by omega)
  obtain ⟨now, hloop, -, hnow⟩ := deadlineLoop_silent (c := { c with rxFifo := [] }) (acc := c.rxFifo)
    (fuel := n - c.rxFifo.length + tmo + 1) hl rfl hq.ne (Nat.le_refl c.now) (tmo := tmo) (by dsimp only; omega)
  refine ⟨now, ?_, hnow⟩
  rw [readDeadline, readFrom, hfuel]
  exact htake.trans hloop

/-! ### A byte that arrives in time -/

/-- The events of a link that lets ticks pass and then delivers a byte. -/
def arrivesAfter (waits : List Nat) (b : Byte) (l : List LinkEvent) : List LinkEvent :=
  waits.map .elapse ++ .arrive b :: l

theorem land_arrivesAfter (waits : List Nat) (b : Byte) (l : List LinkEvent) (c : Channel) :
    land (arrivesAfter waits b l) c = { c with link := arrivesAfter waits b l } := by
  cases waits <;> rfl

section
variable {b : Byte} {l : List LinkEvent} {c : Channel}

/-- A poll of an empty queue takes the byte when it arrives, or is over some ticks before. -/
theorem pollArrival_arrivesAfter {w : Nat} {waits : List Nat} (hw : 0 < w) (hd : c.rxDepth = none)
    (hq : c.rxFifo = []) :
    pollArrival w (arrivesAfter waits b l) c = .byte b { c with now := c.now + waits.sum * tickMs c, link := l } ∨
    ∃ k waits', 0 < k ∧ k + waits'.sum = waits.sum ∧ pollArrival w (arrivesAfter waits b l) c =
      .empty { c with now := c.now + k * tickMs c, link := arrivesAfter waits' b l } := by
  induction waits generalizing w c with
  | nil =>
    refine .inl ?_
    rw [arrivesAfter, List.map_nil, List.nil_append, pollArrival, pushRx_unbounded b c hd, hq]
    simp
  | cons k waits ih =>
    rw [arrivesAfter, List.map_cons, List.cons_append, pollArrival]
    split
    · next hlt =>
      obtain h | ⟨k', waits', hk, hsum, h⟩ :=
        ih (w := w - k) (c := { c with now := c.now + k * tickMs c }) (by omega) hd hq
      · refine .inl (h.trans ?_)
        rw [List.sum_cons, Nat.add_mul, ← Nat.add_assoc]
        rfl
      · refine .inr ⟨k + k', waits', by omega, by rw [List.sum_cons]; omega, h.trans ?_⟩
        rw [Nat.add_mul, ← Nat.add_assoc]
        rfl
    · next hge =>
      by_cases hk : k = w
      · exact .inr ⟨w, waits, hw, by rw [List.sum_cons, hk], by rw [if_pos hk]; rfl⟩
      · exact .inr ⟨w, (k - w) :: waits, hw, by rw [List.sum_cons, List.sum_cons]; omega, by rw [if_neg hk]; rfl⟩

/-- A read of one byte takes it at the moment it arrives, if that is before the deadline. -/
theorem deadlineLoop_arrivesAfter {fuel tmo tStart : Nat} {waits : List Nat} (hf : waits.sum + 1 < fuel)
    (hd : c.rxDepth = none) (hq : c.rxFifo = []) (hl : c.link = arrivesAfter waits b l)
    (ht : c.now - tStart + waits.sum * tickMs c < tmo) :
    deadlineLoop fuel 1 tmo tStart [] c = .done [b] { c with now := c.now + waits.sum * tickMs c, link := l } := by
  induction fuel generalizing waits c with
  | zero => omega
  | succ fuel ih =>
    have hlt : c.now - tStart < tmo := Nat.lt_of_le_of_lt (Nat.le_add_right _ _) ht
    have hpoll : nextPoll tmo (c.now - tStart) c =
        some (pollArrival (pollTicks tmo (c.now - tStart) c) (arrivesAfter waits b l) c) := by
      have hland : land c.link c = c := by rw [hl, land_arrivesAfter, ← hl]
      rw [nextPoll, if_pos hlt, poll, hland, pollByte, hq, hl]
    rw [deadlineLoop, if_neg nofun, hpoll]
    obtain h | ⟨k, waits', hk, hsum, h⟩ :=
      pollArrival_arrivesAfter (waits := waits) (b := b) (l := l) (pollTicks_pos (c := c) hlt) hd hq
    · obtain ⟨fuel, rfl⟩ : ∃ f, fuel = f + 1 := ⟨fuel - 1, by omega⟩
      rw [h]
      rfl
    · have htime : c.now + k * tickMs c + waits'.sum * tickMs c = c.now + waits.sum * tickMs c := by
        rw [Nat.add_assoc, ← Nat.add_mul, hsum]
      rw [h]
      refine (ih (waits := waits') (c := { c with now := c.now + k * tickMs c, link := arrivesAfter waits' b l })
        (by omega) hd hq rfl ?_).trans ?_
      · show c.now + k * tickMs c - tStart + waits'.sum * tickMs c < tmo
        have := Nat.mul_pos hk (tickMs_pos c)
        omega
      · show DeadlineAnswer.done [b] { c with now := c.now + k * tickMs c + waits'.sum * tickMs c, link := l } = _
        rw [htime]

theorem readDeadline_arrivesAfter {tmo : Nat} {waits : List Nat} (hd : c.rxDepth = none) (hq : c.rxFifo = [])
    (hl : c.link = arrivesAfter waits b l) (ht : waits.sum * tickMs c < tmo) :
    readDeadline 1 tmo c = .done [b] { c with now := c.now + waits.sum * tickMs c, link := l } := by
  have hsum := Nat.le_mul_of_pos_right waits.sum (tickMs_pos c)
  exact deadlineLoop_arrivesAfter (by rw [deadlineFuel]; omega) hd hq hl (by omega)

end

/-! ### The operation -/

/-- A read of no bytes is refused (42_transport.md R146). -/
theorem execRxReadDeadline_noBytes {s : State} (h : s.phase = .idle) (ho : s.session = .opened) (hn : s.host.n = 0) :
    execRxReadDeadline s = .next (raise .refused s) := by
  rw [execRxReadDeadline, startRxReadDeadline, runOn_whenOpen, whenOpen_opened h ho, if_pos hn]
  exact runOn_idle rfl

/-- Settles O18: the loop's window, the bytes it takes and the failures it meets, read off its answer. -/
theorem deadlineReadEndsInItsWindow : Obligations.DeadlineReadEndsInItsWindow := by
  intro s h
  refine ⟨fun hg => ?guard, fun ho hn => ?window, fun waits b l ho hn hd hq hl ht => ?inTime⟩
  case guard =>
    by_cases ho : s.session = .opened
    · exact ⟨_, execRxReadDeadline_noBytes h ho (hg.resolve_left (not_not_intro ho)), endsKeeping_raise _ _, rfl, rfl⟩
    · exact refuses_of_not_opened rfl h ho
  case window =>
    have hn0 : s.host.n ≠ 0 := by omega
    obtain ⟨hlater, htx, hend, hdone, hexpired⟩ := readDeadline_window s.host.n s.host.tmo s.chan
    have htime := hlater.time
    cases hr : readDeadline s.host.n s.host.tmo s.chan with
    | done acc c =>
      rw [hr] at htx htime hend
      exact ⟨_, execRxReadDeadline_done h ho hn0 hr, (endsKeeping_finish _ _).of_chan, htx, htime, hend,
        .inl ⟨rfl, rfl, hdone acc c hr, fun hd => readDeadline_taken hd (.inl hr)⟩⟩
    | ioFail c =>
      rw [hr] at htx htime hend
      exact ⟨_, execRxReadDeadline_ioFail h ho hn0 hr, (endsKeeping_raise _ _).of_chan, htx, htime, hend,
        .inr (.inr (.inr ⟨rfl, fails_of_readDeadline_ioFail hr⟩))⟩
    | expired acc c =>
      obtain ⟨hshort, hpast⟩ := hexpired acc c hr
      rw [hr] at htx htime hend
      have hpend (hd : s.chan.rxDepth = none) : acc ++ pendingRx c = pendingRx s.chan := readDeadline_taken hd (.inr hr)
      by_cases ha : acc = []
      · subst ha
        exact ⟨_, execRxReadDeadline_noData h ho hn0 hr, (endsKeeping_finish _ _).of_chan, htx, htime, hend,
          .inr (.inl ⟨rfl, rfl, hpast, hpend⟩)⟩
      · exact ⟨_, execRxReadDeadline_partial h ho hn0 ha hr, (endsKeeping_raise _ _).of_chan, htx, htime, hend,
          .inr (.inr (.inl ⟨rfl, hpast, acc, List.length_pos_of_ne_nil ha, hshort, partialRead_info _ _, hpend⟩))⟩
  case inTime =>
    have hr := readDeadline_arrivesAfter hd hq hl ht
    rw [← hn] at hr
    exact ⟨_, execRxReadDeadline_done h ho (by omega) hr, (endsKeeping_finish _ _).of_chan, rfl, rfl, hn, rfl⟩

/-- Settles O19: each of the first `N` polls takes a queued byte. -/
theorem deadlineReadTakesQueuedBytesAtOnce : Obligations.DeadlineReadTakesQueuedBytesAtOnce := by
  intro s h ho hc hn htmo hq
  obtain ⟨c, hr, hpre, hpend, htx, hnow⟩ := deadlineLoop_calm (acc := []) hc
    (fuel := deadlineFuel s.host.n s.host.tmo s.chan.now s.chan) (n := s.host.n) (tmo := s.host.tmo)
    (tStart := s.chan.now) (by simpa using hq) (Nat.zero_le _) (by rw [deadlineFuel, List.length_nil]; omega) (by omega)
  exact ⟨_, execRxReadDeadline_done h ho (by omega) hr, (endsKeeping_finish _ _).of_chan, htx, hnow, rfl, rfl, rfl,
    hpre, hpend⟩

/-- Settles O20: the read takes what is queued and then polls an empty queue to its deadline. -/
theorem silentDeadlineReadReportsWhatItHas : Obligations.SilentDeadlineReadReportsWhatItHas := by
  intro s h ho hl htmo hq
  obtain ⟨now, hr, hpast⟩ := readDeadline_silent hl hq htmo
  obtain ⟨-, -, hend, -⟩ := readDeadline_window s.host.n s.host.tmo s.chan
  rw [hr] at hend
  by_cases hfifo : s.chan.rxFifo = []
  · rw [hfifo] at hr
    exact ⟨_, execRxReadDeadline_noData h ho (by omega) hr, (endsKeeping_finish _ _).of_chan, rfl, rfl, hpast, hend,
      fun _ => ⟨rfl, rfl⟩, absurd hfifo⟩
  · exact ⟨_, execRxReadDeadline_partial h ho (by omega) hfifo hr, (endsKeeping_raise _ _).of_chan, rfl, rfl, hpast,
      hend, fun he => absurd he hfifo, fun _ => ⟨rfl, partialRead_info _ _⟩⟩

/-- Settles O21: the deadline has passed at once, and only the event `latePoll` calls for a poll. -/
theorem zeroDeadlineAdmitsBothOrders : Obligations.ZeroDeadlineAdmitsBothOrders := by
  intro s b q h ho hn htmo hq
  refine ⟨fun hl => ?silent, fun hl => ?late⟩
  case silent =>
    have hr : readDeadline s.host.n s.host.tmo s.chan = .expired [] s.chan := by
      rw [hn, htmo, readDeadline, readFrom, deadlineFuel, deadlineLoop, if_neg nofun, nextPoll, hl]
      simp
    exact ⟨_, execRxReadDeadline_noData h ho (by omega) hr, (endsKeeping_finish _ _).of_chan, rfl, rfl, rfl⟩
  case late =>
    have hr : readDeadline s.host.n s.host.tmo s.chan = .done [b] { s.chan with rxFifo := q, link := [] } := by
      have hfuel : deadlineFuel 1 0 s.chan.now s.chan = 3 := by rw [deadlineFuel, hl]; simp
      have hpoll (w : Nat) : poll w { s.chan with link := [] } = .byte b { s.chan with rxFifo := q, link := [] } := by
        simp [poll, land, pollByte, hq]
      rw [hn, htmo, readDeadline, readFrom, hfuel, deadlineLoop, if_neg nofun, nextPoll, if_neg (by omega), hl]
      dsimp only
      rw [if_pos (by omega), hpoll]
      rfl
    exact ⟨_, execRxReadDeadline_done h ho (by omega) hr, (endsKeeping_finish _ _).of_chan, rfl, rfl, rfl, hn⟩

end Sys2Proof.Machine
end

section
/-! SUPPORT. Commands against what they are made of (43_command_reply.md R160, R168 to R170; 70_reset_and_hazards.md
R237): their four steps run by hand, the pseudo-operations, and a reply that does not come. -/

namespace Sys2Proof.Machine

/-! ### The four steps by hand -/

/-- FRAME.BUILD of fields in its domain leaves the frame in OBUF (41_frame_codec.md R120). -/
theorem execFrameBuild_built {s t : State} (hrun : exec .frameBuild s = .next t) (h : s.phase = .idle)
    (hd : buildDomain s.host = true) :
    EndsKeeping s t ∧ t.chan = s.chan ∧ t.result.obuf = buildFrame (buildFields s.host) := by
  have hbuilt := (execFrameBuild_eq h).symm.trans hrun
  rw [if_pos hd] at hbuilt
  obtain rfl := Host.Outcome.next.inj hbuilt
  exact ⟨endsKeeping_finish _ s, rfl, rfl⟩

/-- TX.WRITE_ALL and then RX.READ_EXACT, both to their ends, are the transmission and the read of a command. -/
theorem transfers_byHand {s u v : State} {bytes : List Byte} {k : Nat} (h : s.phase = .idle)
    (ho : s.session = .opened) (hc : calm s.chan = true)
    (hsend : exec .txWriteAll { s with host := { s.host with ibuf := bytes } } = .next u)
    (hread : exec .rxReadExact { u with host := { u.host with n := k } } = .next v) (hv : v.phase = .idle) :
    ∃ c, transmit s.chan.link bytes s.chan = .sent c ∧ readMore k [] c = .done v.result.obuf v.chan := by
  obtain ⟨c, htx⟩ := transmit_calm (calm_iff.1 hc).2 bytes s.chan
  have hrun : exec .txWriteAll { s with host := { s.host with ibuf := bytes } } =
      runOn (.next (enterSend bytes { s with host := { s.host with ibuf := bytes } })) := execTxWriteAll_opened h ho
  obtain rfl := Host.Outcome.next.inj (hsend.symm.trans (hrun.trans (runSend_sent htx)))
  have hrun := hread.symm.trans (execRxReadExact_opened rfl ho)
  refine ⟨c, htx, ?_⟩
  obtain hlt | hle := Nat.lt_or_ge (pendingRx c).length k
  · obtain ⟨c', hr, -⟩ := readMore_short [] (transmit_calm_later hc htx) hlt
    obtain rfl := Host.Outcome.next.inj (hrun.trans (runRead_waiting hr))
    cases hv
  · obtain ⟨c', hr, -⟩ := readMore_calm [] (transmit_calm_later hc htx) hle
    obtain rfl := Host.Outcome.next.inj (hrun.trans (runRead_done hr))
    exact hr

/-- CMD.READ hands its reply to the parser as FRAME.PARSE does. -/
theorem completeJob_readReply (n : Nat) (acc : List Byte) (s : State) :
    completeJob (.readReply n) acc s = endParse (parseReply acc n true) s := by
  cases h : parseReply acc n true with
  | ok r => exact completeJob_readReply_ok s h
  | error e => exact completeJob_readReply_error s h

/-- What an error puts into INFO is no free value, where the specification gives it one (60_exceptions.md R204). -/
theorem errorInfo_specified {e : Error}
    (h : errorOutcome e ∈ [.eShort, .eStatus, .eUnsupported, .eRange, .ePartial]) (k j : Nat) :
    errorInfo e k = errorInfo e j := by
  cases e with
  | deviceError _ | unsupportedType _ | partialRead _ => rfl
  | shortReply cause | outOfRange cause => cases cause <;> rfl
  | ioFailure | invalidHeader | checksumMismatch | refused => exact absurd h (by simp [errorOutcome])

/-- So it is with the errors of a reply. -/
theorem raise_info_reply {e : Error} (h : errorOutcome e = .eStatus ∨ errorOutcome e = .eShort) (s u : State) :
    (raise e s).result.info = (raise e u).result.info :=
  errorInfo_specified (by obtain h | h := h <;> simp [h]) _ _

/-- How the parser's answer ends an operation depends on that answer only. -/
theorem endParse_result (answer : Except Error (List Byte × Nat)) (s u : State) :
    (endParse answer s).result.outcome = (endParse answer u).result.outcome ∧
    ((endParse answer s).result.outcome = .ok → (endParse answer s).result.obuf = (endParse answer u).result.obuf ∧
      (endParse answer s).result.olen = (endParse answer u).result.olen) ∧
    ((endParse answer s).result.outcome = .eStatus ∨ (endParse answer s).result.outcome = .eShort →
      (endParse answer s).result.info = (endParse answer u).result.info) := by
  cases answer with
  | ok r => exact ⟨rfl, fun _ => ⟨rfl, rfl⟩, fun h => h.elim nofun nofun⟩
  | error e => exact ⟨rfl, fun h => absurd h (raise_outcome_ne_ok e s), fun h => raise_info_reply h _ _⟩

/-- Settles O26: the frame, the transmission, the read and the parser's answer are those of the command. -/
theorem cmdReadIsItsFourSteps : Obligations.CmdReadIsItsFourSteps := by
  intro s u₁ u₂ u₃ u₄ h ho hc h1 h256 hbuild hsend hread hend hparse
  have hdomain : encodableLength s.host.n = true := encodableLength_iff.2 ⟨h1, h256⟩
  obtain ⟨hbuilt, hchan, hframe⟩ := execFrameBuild_built hbuild h hdomain
  obtain ⟨c, htx, hr⟩ := transfers_byHand hbuilt.phase (hbuilt.session.trans ho) (hchan ▸ hc) hsend hread hend
  rw [hframe, hchan] at htx
  have hcmd : exec .cmdRead s = _ := (execCmdRead_opened h ho hdomain).trans (runCommand_done rfl htx hr)
  obtain rfl := Host.Outcome.next.inj (hparse.symm.trans (exec_frameParse hend))
  rw [completeJob_readReply] at hcmd
  exact ⟨_, hcmd, (endsKeeping_endParse _ _).of_chan, by rw [endParse_chan, endParse_chan], endParse_result _ _ _⟩

/-- Settles O27: likewise, with an acknowledgement whose payload is not looked at. -/
theorem cmdWriteIsItsFourSteps : Obligations.CmdWriteIsItsFourSteps := by
  intro s u₁ u₂ u₃ u₄ h ho hc hne h256 hbuild hsend hread hend hparse
  obtain ⟨hbuilt, hchan, hframe⟩ := execFrameBuild_built hbuild h rfl
  obtain ⟨c, htx, hr⟩ := transfers_byHand hbuilt.phase (hbuilt.session.trans ho) (hchan ▸ hc) hsend hread hend
  rw [hframe, hchan] at htx
  have hcmd : exec .cmdWrite s = _ := (execCmdWrite_opened h ho (writeDomain_iff.2 ⟨hne, h256⟩)).trans
    (runCommand_done (job := .writeAck .done) rfl htx hr)
  obtain rfl := Host.Outcome.next.inj (hparse.symm.trans (exec_frameParse hend))
  refine ⟨_, hcmd, ?_⟩
  obtain ⟨hack, ⟨r, hr⟩⟩ | ⟨e, hack, hr⟩ := completeJob_writeAck .done u₃.result.obuf { s with chan := u₃.chan }
  all_goals
    dsimp only
    rw [hack, hr]
  · exact ⟨(endsKeeping_finishWith _ _).of_chan, rfl, rfl, fun h => h.elim nofun nofun⟩
  · exact ⟨(endsKeeping_raise _ _).of_chan, rfl, rfl, fun h => raise_info_reply h _ _⟩

/-! ### Whole replies -/

/-- Settles O24: the reply has the length CMD.READ waits for, and the parser gives its payload back. -/
theorem cmdReadReturnsWholePayload : Obligations.CmdReadReturnsWholePayload := by
  intro s p rest h ho hc h1 h256 hn hp
  have hl : (replyBytes 0x00 p).length = jobBytes (.readReply s.host.n) := by rw [replyBytes_length, hn]; rfl
  have hdomain : encodableLength p.length = true := encodableLength_iff.2 ⟨h1, h256⟩
  obtain ⟨c, hcmd, htx, hrest⟩ := runCommand_calm (job := .readReply s.host.n)
    (f := readFields s.host.addr s.host.n) rfl hc hl hp
  have hparse : parseReply (replyBytes 0x00 p) s.host.n true = .ok (p, p.length) :=
    parseReply_payload hdomain hn.ge fun _ => .inr rfl
  rw [completeJob_readReply_ok _ hparse] at hcmd
  exact ⟨_, (execCmdRead_opened h ho (readDomain_iff.2 (by omega))).trans hcmd, (endsKeeping_finish _ _).of_chan, htx,
    hrest, rfl, rfl, rfl⟩

/-! ### Pseudo-operations -/

/-- A write command, whatever it writes, is sent, keeps the session, and ends exactly if its acknowledgement is there. -/
theorem cmdWrite_ends_iff {s : State} (h : s.phase = .idle) (ho : s.session = .opened) (hc : calm s.chan = true)
    (hd : writeDomain s.host = true) :
    ∃ t, exec .cmdWrite s = .next t ∧ t.chan.tx = s.chan.tx ++ writeFrame s.host.addr s.host.ibuf ∧
      t.scanTimeout = s.scanTimeout ∧ t.session = .opened ∧ (t.phase = .idle ↔ 7 ≤ (pendingRx s.chan).length) := by
  have hrun : exec .cmdWrite s = _ := execCmdWrite_opened h ho hd
  obtain hlt | hle := Nat.lt_or_ge (pendingRx s.chan).length 7
  · obtain ⟨t, hcmd, hwaits, htx, -⟩ := runCommand_short (job := .writeAck .done)
      (f := writeFields s.host.addr s.host.ibuf) rfl hc hlt
    exact ⟨t, hrun.trans hcmd, htx, hwaits.scanTimeout, hwaits.session.trans ho,
      iff_of_false hwaits.busy (Nat.not_le.2 hlt)⟩
  · have hl : ((pendingRx s.chan).take 7).length = 7 := by rw [List.length_take, Nat.min_eq_left hle]
    obtain ⟨c, hcmd, htx, -⟩ := runCommand_calm (job := .writeAck .done) (f := writeFields s.host.addr s.host.ibuf) rfl
      hc hl (List.take_append_drop 7 _).symm
    obtain ⟨hends, hchan, -⟩ := completeJob_writeAck_done_reports (s := { s with chan := c }) hl rfl
    exact ⟨_, hrun.trans hcmd, (congrArg _ hchan).trans htx, hends.scanTimeout, hends.session.trans ho,
      iff_of_true hends.phase hle⟩

/-- Settles O28: each is a request whose selector is that of a command, with these operands. -/
theorem pseudoOperationsAreTheirCommands : Obligations.PseudoOperationsAreTheirCommands := by
  intro s o rest h
  have hwrite (a : Word) (v : Byte) (hr : s.requests = write1 o a v :: rest) :
      step s = exec .cmdWrite { s with requests := rest, host := { o with op := 0x19, addr := a, ibuf := [v] } } :=
    step_operation h hr rfl
  refine ⟨hwrite, fun a n hr => step_operation h hr rfl, fun ho hc r frame hr hreq => ?_⟩
  obtain ⟨a, v, rfl, rfl⟩ : ∃ a v, r = write1 o a v ∧ frame = writeFrame a [v] := by
    obtain ⟨rfl, rfl⟩ | ⟨rfl, rfl⟩ | ⟨rfl, rfl⟩ := hreq
    · exact ⟨_, _, rfl, rfl⟩
    · exact ⟨_, _, rfl, rfl⟩
    · exact ⟨_, _, rfl, by decide +kernel⟩
  rw [hwrite a v hr]
  exact cmdWrite_ends_iff h ho hc rfl

/-! ### A reply that does not come -/

/-- A job that waits for bytes waits in RX_WAIT for a number fixed when it started. -/
theorem job_receives {job : Job} (h : 0 < jobBytes job) : isCommand job = true ∨ ∃ n, job = .readExact n := by
  cases job with
  | readExact n => exact .inr ⟨n, rfl⟩
  | writeAck _ | readReply _ => exact .inl rfl
  | none | frameBuild | frameParse _ _ | send | readDeadline _ _ | scanLines => cases h

section
variable {s : State} {acc : List Byte} {c : Channel} (hp : s.phase = .rxWait)
  (hj : isCommand s.work.job = true ∨ ∃ n, s.work.job = .readExact n)
include hp hj

/-- At either pace an operation that still lacks bytes waits on, … -/
theorem advance_waiting
    (h : readMore (jobBytes s.work.job - s.work.acc.length) s.work.acc s.chan = .waiting acc c) :
    advance s = .next (enter .rxWait { s.work with acc := acc } { s with chan := c }) := by
  rw [advance, if_neg (by rw [hp]; nofun)]
  cases s.work.pace with
  | whole => exact settle_rx_waiting hp hj h
  | byPhase => exact (phaseStep_receive hp hj).trans (congrArg _ (receive_waiting h))

/-- … and one whose link fails ends. -/
theorem advance_ioFail (h : readMore (jobBytes s.work.job - s.work.acc.length) s.work.acc s.chan = .ioFail c) :
    advance s = .next (raise .ioFailure { s with chan := c }) := by
  rw [advance, if_neg (by rw [hp]; nofun)]
  cases s.work.pace with
  | whole => exact settle_rx_ioFail hp hj h
  | byPhase => exact (phaseStep_receive hp hj).trans (congrArg _ (receive_ioFail h))

end

/-- A link that does nothing leaves an operation on an empty queue waiting, and everything as it is, … -/
theorem rxByte_silent {c : Channel} (hq : c.rxFifo = []) (hl : c.link = []) : rxByte c = .waiting c := by
  have hland : land c.link c = c := by rw [hl, land_quiet (by simp), ← hl]
  have hwait : waitArrival [] c = .waiting c := by rw [waitArrival, ← hl]
  rw [rxByte, hland, takeByte, hq, hl]
  exact hwait

/-- … so that a read gets nowhere. -/
theorem readMore_silent {k : Nat} {acc : List Byte} {c : Channel} (hk : 0 < k) (hq : c.rxFifo = []) (hl : c.link = []) :
    readMore k acc c = .waiting acc c := by
  obtain ⟨k, rfl⟩ := Nat.exists_eq_add_of_lt hk
  rw [Nat.zero_add, readMore, rxByte_silent hq hl]

/-- Settles O29: a step on nothing presented carries the read on, with too few bytes before the end of the events or
before the failure. -/
theorem shortReplyHangs : Obligations.ShortReplyHangs := by
  intro s hp _ _ hreq
  rw [step_no_request hreq]
  refine ⟨fun hc hn => ⟨?waits, fun hq hl => ?silent⟩, fun l sent rest hd hlink hl hn => ?fails⟩
  case waits =>
    obtain ⟨c, hr, -, hq, hlink, htx⟩ := readMore_short (k := jobBytes s.work.job - s.work.acc.length) s.work.acc hc
      (by omega)
    exact ⟨_, advance_waiting hp (job_receives (by omega)) hr,
      (waitsKeeping_enter _ (nofun : Phase.rxWait ≠ .idle) _).of_chan, rfl, htx,
      by rw [enter_chan, pendingRx, hq, hlink]; rfl, rfl⟩
  case silent =>
    have hk : 0 < jobBytes s.work.job - s.work.acc.length := by omega
    have hsame : enter .rxWait s.work s = s := by rw [enter, ← hp]
    rw [advance_waiting hp (job_receives (by omega)) (readMore_silent hk hq hl)]
    exact congrArg _ hsame
  case fails =>
    obtain ⟨c, hr, hrest⟩ := readMore_failing (acc := s.work.acc)
      (k := jobBytes s.work.job - s.work.acc.length) ⟨hd, l, sent, hlink, hl, rfl⟩ (by omega)
    have htx := readMore_tx (jobBytes s.work.job - s.work.acc.length) s.work.acc s.chan
    rw [hr] at htx
    exact ⟨_, advance_ioFail hp (job_receives (by omega)) hr, (endsKeeping_raise _ _).of_chan, htx, hrest, rfl⟩

end Sys2Proof.Machine
end

section
/-! SUPPORT. SCAN.READ (44_scan_decoder.md R181 to R184): what the line loop makes of bytes, whatever way they come, and
what the operation does from its first byte or from where it waited. -/

namespace Sys2Proof.Machine

/-! ### Lines, byte by byte -/

/-- What one byte makes of the lines. -/
inductive LineStep where
  | on (cur : List Byte) (lines : List (List Byte))
  | done (lines : List (List Byte))
  | overflow (f : Fault)

/-- One byte of the line loop (R181): a line feed ends a line, a carriage return ends the scan, any other byte is data. -/
def lineStep (p : Params) (b : Byte) (cur : List Byte) (lines : List (List Byte)) : LineStep :=
  if b = Config.lf then
    match emitLine p cur lines with
    | .ok lines' => .on [] lines'
    | .error f => .overflow f
  else if b = Config.cr then
    match emitLine p cur lines with
    | .ok lines' => .done lines'
    | .error f => .overflow f
  else
    match growLine p cur b with
    | .ok cur' => .on cur' lines
    | .error f => .overflow f

/-- What bytes in a row make of the lines. -/
inductive Collected where
  | more (cur : List Byte) (lines : List (List Byte))
  | done (lines : List (List Byte)) (rest : List Byte)
  | overflow (f : Fault)

/-- The line loop on bytes that are all there. -/
def collectLines (p : Params) : List Byte → List Byte → List (List Byte) → Collected
  | [], cur, lines => .more cur lines
  | b :: bs, cur, lines =>
    match lineStep p b cur lines with
    | .on cur' lines' => collectLines p bs cur' lines'
    | .done lines' => .done lines' bs
    | .overflow f => .overflow f

/-- The line loop's answer is that of the bytes there are: all of them taken if it waits, those after the carriage return
left if it ends. -/
def Collected.Answered (bytes : Collected) (r : ScanAnswer) : Prop :=
  match bytes with
  | .more cur lines => ∃ c, r = .waiting cur lines c ∧ pendingRx c = []
  | .done lines rest => ∃ c, r = .done lines c ∧ pendingRx c = rest
  | .overflow f => r = .overflow f

section
variable {p : Params} {b : Byte} {bs cur : List Byte} {lines : List (List Byte)} {c c' : Channel} {fuel : Nat}

/-- The loop takes one byte and goes on as the byte says. -/
theorem scanLoop_byte (hr : rxByte c = .byte b c') :
    scanLoop (fuel + 1) p cur lines c =
      match lineStep p b cur lines with
      | .on cur' lines' => scanLoop fuel p cur' lines' c'
      | .done lines' => .done lines' c'
      | .overflow f => .overflow f := by
  rw [scanLoop, hr, lineStep]
  dsimp only
  split_ifs
  · cases emitLine p cur lines <;> rfl
  · cases emitLine p cur lines <;> rfl
  · cases growLine p cur b <;> rfl

/-- On a link that does not fail the loop answers what its bytes say. -/
theorem scanLoop_calm (hc : calm c = true) (hf : (pendingRx c).length < fuel) :
    (collectLines p (pendingRx c) cur lines).Answered (scanLoop fuel p cur lines c) := by
  induction fuel generalizing cur lines c with
  | zero => cases hf
  | succ fuel ih =>
    cases hp : pendingRx c with
    | nil =>
      obtain ⟨c', hr, -, hq, hl⟩ := (rxByte_calm hc).2 hp
      exact ⟨c', by rw [scanLoop, hr], by rw [pendingRx, hq, hl]; rfl⟩
    | cons b bs =>
      obtain ⟨c', hr, hc', rfl⟩ := (rxByte_calm hc).1 b bs hp
      rw [hp] at hf
      rw [scanLoop_byte hr, collectLines]
      cases lineStep p b cur lines with
      | on cur' lines' => exact ih hc' (Nat.lt_of_succ_lt_succ hf)
      | done lines' => exact ⟨c', rfl, rfl⟩
      | overflow f => exact rfl

/-- A loop whose bytes do not end it meets the link's failure. -/
theorem scanLoop_failing {rest : List LinkEvent} {cur' : List Byte} {lines' : List (List Byte)}
    (h : FailsAfter bs rest c) (hf : bs.length < fuel) (hbs : collectLines p bs cur lines = .more cur' lines') :
    ∃ c', scanLoop fuel p cur lines c = .ioFail c' ∧ c'.link = rest := by
  induction fuel generalizing bs cur lines c with
  | zero => cases hf
  | succ fuel ih =>
    obtain ⟨c', hr, hlink⟩ | ⟨b, bs, c', rfl, hr, hc'⟩ := rxByte_failing h
    · exact ⟨c', by rw [scanLoop, hr], hlink⟩
    · rw [scanLoop_byte hr]
      rw [collectLines] at hbs
      cases hstep : lineStep p b cur lines with
      | on cur₁ lines₁ =>
        rw [hstep] at hbs
        exact ih hc' (Nat.lt_of_succ_lt_succ hf) hbs
      | done lines₁ => rw [hstep] at hbs; cases hbs
      | overflow f => rw [hstep] at hbs; cases hbs

/-! ### What a grammar's bytes make of the lines -/

theorem fits_iff {capacity : Option Nat} {size : Nat} :
    fits capacity size = true ↔ ∀ k, capacity = some k → size ≤ k := by
  cases capacity <;> simp [fits]

theorem fits_le {capacity : Option Nat} {m n : Nat} (h : fits capacity n = true) (hm : m ≤ n) :
    fits capacity m = true :=
  fits_iff.2 fun k hk => hm.trans (fits_iff.1 h k hk)

/-- A line that fits is emitted, if there is anything in it. -/
theorem emitLine_fits (h : cur ≠ [] → fits p.linesCap (lines.length + 1) = true) :
    emitLine p cur lines = .ok (lines ++ [cur].filter (· ≠ [])) := by
  by_cases hcur : cur = []
  · simp [emitLine, hcur]
  · simp [emitLine, hcur, h hcur]

theorem emitLine_overflow (hcur : cur ≠ []) (h : p.linesCap = some lines.length) :
    emitLine p cur lines = .error .linesOverflow := by
  simp [emitLine, hcur, h, fits]

theorem lineStep_data (hb : dataByte b = true) :
    lineStep p b cur lines =
      if fits p.lineCap (cur.length + 1) then .on (cur ++ [b]) lines else .overflow .lineOverflow := by
  obtain ⟨hlf, hcr⟩ : b ≠ Config.lf ∧ b ≠ Config.cr := by simpa [dataByte] using hb
  rw [lineStep, if_neg hlf, if_neg hcr, growLine]
  split_ifs <;> rfl

/-- Data bytes that fit are appended to the line. -/
theorem collectLines_data {data : List Byte} (hdata : data.all dataByte = true)
    (hfit : fits p.lineCap (cur.length + data.length) = true) :
    collectLines p (data ++ bs) cur lines = collectLines p bs (cur ++ data) lines := by
  induction data generalizing cur with
  | nil => rw [List.nil_append, List.append_nil]
  | cons b data ih =>
    rw [List.all_cons, Bool.and_eq_true] at hdata
    rw [List.length_cons] at hfit
    rw [List.cons_append, collectLines, lineStep_data hdata.1, if_pos (fits_le hfit (by omega))]
    exact (ih hdata.2 (by rwa [List.length_append, List.length_singleton, Nat.add_assoc, Nat.add_comm 1])).trans
      (by rw [List.append_assoc]; rfl)

/-- A line feed emits the line and begins a new one. -/
theorem collectLines_lf (h : cur ≠ [] → fits p.linesCap (lines.length + 1) = true) :
    collectLines p (0x0A :: bs) cur lines = collectLines p bs [] (lines ++ [cur].filter (· ≠ [])) := by
  rw [collectLines, lineStep, if_pos (show (0x0A : Byte) = Config.lf from rfl), emitLine_fits h]

/-- A carriage return emits the line and ends the scan. -/
theorem collectLines_cr (h : cur ≠ [] → fits p.linesCap (lines.length + 1) = true) :
    collectLines p (0x0D :: bs) cur lines = .done (lines ++ [cur].filter (· ≠ [])) bs := by
  rw [collectLines, lineStep, if_neg (show (0x0D : Byte) ≠ Config.lf by decide),
    if_pos (show (0x0D : Byte) = Config.cr from rfl), emitLine_fits h]

/-- Whole lines that fit are emitted, the empty ones dropped. -/
theorem collectLines_items {items : List (List Byte)} (hdata : ∀ line ∈ items, line.all dataByte = true)
    (hline : ∀ line ∈ items, fits p.lineCap line.length = true)
    (hlines : fits p.linesCap (lines.length + (items.filter (· ≠ [])).length) = true) :
    collectLines p ((items.map (· ++ [0x0A])).flatten ++ bs) [] lines =
      collectLines p bs [] (lines ++ items.filter (· ≠ [])) := by
  induction items generalizing lines with
  | nil => rw [List.filter_nil, List.append_nil]; rfl
  | cons line items ih =>
    have hsplit : (line :: items).filter (· ≠ []) = [line].filter (· ≠ []) ++ items.filter (· ≠ []) :=
      List.filter_append (l₁ := [line]) items
    have hbytes : ((line :: items).map (· ++ [0x0A])).flatten ++ bs =
        line ++ 0x0A :: ((items.map (· ++ [0x0A])).flatten ++ bs) := by simp
    rw [hsplit, List.length_append] at hlines
    rw [hbytes, collectLines_data (hdata line List.mem_cons_self)
      (by rw [List.length_nil, Nat.zero_add]; exact hline line List.mem_cons_self), List.nil_append,
      collectLines_lf fun hne => fits_le hlines (by simp [hne]),
      ih (fun l hl => hdata l (List.mem_cons_of_mem _ hl)) (fun l hl => hline l (List.mem_cons_of_mem _ hl))
        (by rwa [List.length_append, Nat.add_assoc]), hsplit, List.append_assoc]

end

section
variable {p : Params} {bs cur : List Byte} {lines : List (List Byte)}

/-- A data byte too many is a fault. -/
theorem collectLines_lineOverflow {data : List Byte} {k : Nat} (hk : p.lineCap = some k) (hcur : cur.length ≤ k)
    (hdata : data.all dataByte = true) (hlong : k < cur.length + data.length) :
    collectLines p (data ++ bs) cur lines = .overflow .lineOverflow := by
  induction data generalizing cur with
  | nil => exact absurd hlong (Nat.not_lt.2 hcur)
  | cons b data ih =>
    rw [List.all_cons, Bool.and_eq_true] at hdata
    rw [List.cons_append, collectLines, lineStep_data hdata.1, hk]
    by_cases hfit : cur.length + 1 ≤ k
    · rw [if_pos (by simpa [fits] using hfit)]
      refine ih (cur := cur ++ [b]) ?_ hdata.2 ?_
      · rwa [List.length_append]
      · rw [List.length_append, List.length_singleton]; rw [List.length_cons] at hlong; omega
    · rw [if_neg (by simpa [fits] using hfit)]

/-- The end of a line too many is a fault. -/
theorem collectLines_linesOverflow {data : List Byte} {x : Byte} (hdata : data.all dataByte = true)
    (hfit : fits p.lineCap (cur.length + data.length) = true) (hne : cur ++ data ≠ [])
    (hlines : p.linesCap = some lines.length) (hx : x = 0x0A ∨ x = 0x0D) :
    collectLines p (data ++ x :: bs) cur lines = .overflow .linesOverflow := by
  rw [collectLines_data hdata hfit, collectLines, lineStep, emitLine_overflow hne hlines]
  obtain rfl | rfl := hx <;> rfl

/-- Bytes without a carriage return do not end the scan, whatever their lines are. -/
theorem collectLines_without_cr (hline : p.lineCap = none) (hlines : p.linesCap = none) (hbs : ∀ b ∈ bs, b ≠ 0x0D) :
    ∃ cur' lines', collectLines p bs cur lines = .more cur' lines' := by
  induction bs generalizing cur lines with
  | nil => exact ⟨cur, lines, rfl⟩
  | cons b bs ih =>
    have hrest := fun cur lines => ih (cur := cur) (lines := lines) fun x hx => hbs x (List.mem_cons_of_mem _ hx)
    rw [collectLines, lineStep, if_neg (show ¬ b = Config.cr from hbs b List.mem_cons_self), emitLine_unbounded hlines,
      growLine_unbounded hline]
    split_ifs <;> exact hrest _ _

/-- A scan body ends the scan with its non-empty lines, the first of them begun before (R181, R182 item 2). -/
theorem collectLines_body {items : List (List Byte)} {last first : List Byte} {others : List (List Byte)}
    (hline : p.lineCap = none) (hlines : p.linesCap = none) (hitems : ∀ line ∈ items, line.all dataByte = true)
    (hlast : last.all dataByte = true) (hfirst : items ++ [last] = first :: others) :
    collectLines p (scanBody items last ++ bs) cur lines =
      .done (lines ++ ((cur ++ first) :: others).filter (· ≠ [])) bs := by
  have hfits (n : Nat) : fits p.lineCap n = true := by rw [hline]; rfl
  have hroom (n : Nat) : fits p.linesCap n = true := by rw [hlines]; rfl
  have hend (ls : List (List Byte)) (c : List Byte) :
      collectLines p (last ++ 0x0D :: bs) c ls = .done (ls ++ [c ++ last].filter (· ≠ [])) bs := by
    rw [collectLines_data hlast (hfits _), collectLines_cr fun _ => hroom _]
  cases items with
  | nil =>
    obtain ⟨rfl, rfl⟩ := List.cons.inj hfirst
    have hbytes : scanBody [] last ++ bs = last ++ 0x0D :: bs := by simp [scanBody]
    rw [hbytes, hend]
  | cons line items =>
    rw [List.cons_append] at hfirst
    obtain ⟨rfl, rfl⟩ := List.cons.inj hfirst
    have hbytes : scanBody (line :: items) last ++ bs =
        line ++ 0x0A :: ((items.map (· ++ [0x0A])).flatten ++ (last ++ 0x0D :: bs)) := by simp [scanBody]
    have hsplit : ((cur ++ line) :: (items ++ [last])).filter (· ≠ []) =
        [cur ++ line].filter (· ≠ []) ++ (items.filter (· ≠ []) ++ [last].filter (· ≠ [])) := by
      rw [← List.filter_append, ← List.filter_append]; rfl
    rw [hbytes, collectLines_data (hitems line List.mem_cons_self) (hfits _), collectLines_lf fun _ => hroom _,
      collectLines_items (fun l hl => hitems l (List.mem_cons_of_mem _ hl)) (fun _ _ => hfits _) (hroom _), hend, hsplit,
      List.nil_append, List.append_assoc, List.append_assoc]

end

section
variable {p : Params} {items : List (List Byte)} {last bs : List Byte}

/-- A whole body ends the scan with its non-empty lines. -/
theorem collectLines_whole (hline : p.lineCap = none) (hlines : p.linesCap = none)
    (hitems : ∀ line ∈ items, line.all dataByte = true) (hlast : last.all dataByte = true) :
    collectLines p (scanBody items last ++ bs) [] [] = .done ((items ++ [last]).filter (· ≠ [])) bs := by
  obtain ⟨first, others, hfirst⟩ := List.exists_cons_of_ne_nil (show items ++ [last] ≠ [] by simp)
  rw [collectLines_body hline hlines hitems hlast hfirst, hfirst]
  rfl

end

/-- The fuel of the line loop outlasts the bytes before a failure. -/
theorem FailsAfter.lt_scanFuel {bs : List Byte} {rest : List LinkEvent} {c : Channel} (h : FailsAfter bs rest c) :
    bs.length < scanFuel c := by
  obtain ⟨-, l, sent, hlink, -, rfl⟩ := h
  have := arrivals_length_le l
  rw [scanFuel, hlink, List.length_append, List.length_append, List.length_cons]
  omega

/-! ### The operation -/

/-- From `s` the running scan answers `r` in the line loop: it ends, waits in SCAN_LINES, or faults, as the bytes say. -/
def Collected.Ends (bytes : Collected) (code : Byte) (s : State) (r : Exec) : Prop :=
  match bytes with
  | .more _ _ => ∃ t, r = .next t ∧ WaitsKeeping s t ∧ t.phase = .scanLines ∧ t.chan.tx = s.chan.tx ∧
      pendingRx t.chan = []
  | .done lines rest => ∃ t, r = .next t ∧ EndsKeeping s t ∧ t.chan.tx = s.chan.tx ∧ pendingRx t.chan = rest ∧
      scanReport s.params code lines t.result
  | .overflow f => r = .fault f

/-- The classification reports what R181 step 4 and R183 say, and ends the operation. -/
theorem classify_reports (code : Byte) (lines : List (List Byte)) (s : State) :
    EndsKeeping s (classify code lines s) ∧ (classify code lines s).chan = s.chan ∧
      scanReport s.params code lines (classify code lines s).result := by
  unfold classify scanReport
  by_cases hlines : lines = []
  · rw [if_pos hlines]
    exact ⟨endsKeeping_finishWith _ s, rfl, fun _ => rfl, absurd hlines⟩
  · rw [if_neg hlines]
    cases classMap s.params code with
    | none => exact ⟨endsKeeping_raise _ s, rfl, fun h => absurd h hlines, fun _ => ⟨rfl, rfl⟩⟩
    | linear tag =>
      exact ⟨endsKeeping_finish _ s, rfl, fun h => absurd h hlines, fun _ => ⟨rfl, _, linearSelect_mem _ hlines, rfl⟩⟩
    | matrix tag => exact ⟨endsKeeping_finish _ s, rfl, fun h => absurd h hlines, fun _ => ⟨rfl, rfl⟩⟩

section
variable {s : State}

/-- The line loop sends nothing. -/
theorem scanLoop_tx {fuel : Nat} {p : Params} {cur : List Byte} {lines : List (List Byte)} {c c' : Channel}
    (h : (scanLoop fuel p cur lines c).chan? = some c') : c'.tx = c.tx :=
  (scanLoop_later fuel p cur lines c c' h).2

/-- At either pace a suspended scan goes on in the line loop. -/
theorem advance_lines (hp : s.phase = .scanLines) : advance s = linesPhase s := by
  rw [advance, if_neg (by rw [hp]; nofun)]
  cases s.work.pace with
  | whole => exact settle_lines hp _
  | byPhase => rw [phaseStep, hp]

/-- A scan that waited and goes on. -/
theorem linesPhase_calm (hc : calm s.chan = true) :
    (collectLines s.params (pendingRx s.chan) s.work.cur s.work.lines).Ends s.work.classCode s (linesPhase s) := by
  have h := scanLoop_calm (p := s.params) (cur := s.work.cur) (lines := s.work.lines) hc (pendingRx_lt_scanFuel s.chan)
  rw [linesPhase]
  cases hbytes : collectLines s.params (pendingRx s.chan) s.work.cur s.work.lines with
  | more cur lines =>
    rw [hbytes] at h
    obtain ⟨c, hr, hp⟩ := h
    rw [hr]
    exact ⟨_, rfl, (waitsKeeping_enter _ (nofun : Phase.scanLines ≠ .idle) _).of_chan, rfl,
      scanLoop_tx (congrArg ScanAnswer.chan? hr), hp⟩
  | done lines rest =>
    rw [hbytes] at h
    obtain ⟨c, hr, hp⟩ := h
    obtain ⟨hends, hchan, hreport⟩ := classify_reports s.work.classCode lines { s with chan := c }
    rw [hr]
    exact ⟨_, rfl, hends.of_chan, (congrArg Channel.tx hchan).trans (scanLoop_tx (congrArg ScanAnswer.chan? hr)),
      (congrArg pendingRx hchan).trans hp, hreport⟩
  | overflow f =>
    rw [hbytes] at h
    rw [h]
    exact rfl

/-- A scan that enters the line loop in this step is left suspended where it would wait. -/
theorem runLines_calm (w : Work) (hc : calm s.chan = true) :
    (collectLines s.params (pendingRx s.chan) w.cur w.lines).Ends w.classCode s
      (runOn (.next (enter .scanLines w s))) := by
  have hrun : runOn (.next (enter .scanLines w s)) =
      andThen (linesPhase (enter .scanLines w s)) fun t => .next (park t) := by
    rw [runOn, phaseCount, andThen_next, settle_lines rfl]
  have h : (collectLines s.params (pendingRx s.chan) w.cur w.lines).Ends w.classCode _ _ :=
    linesPhase_calm (s := enter .scanLines w s) hc
  rw [hrun]
  cases hbytes : collectLines s.params (pendingRx s.chan) w.cur w.lines with
  | more cur lines =>
    rw [hbytes] at h
    obtain ⟨t, ht, hw, hphase, htx, hp⟩ := h
    rw [ht, andThen_next, park, if_neg hw.busy]
    exact ⟨_, rfl, ⟨hw.busy, hw.host, hw.session, hw.scanTimeout, hw.params, hw.requests⟩, hphase, htx, hp⟩
  | done lines rest =>
    rw [hbytes] at h
    obtain ⟨t, ht, hends, hreports⟩ := h
    rw [ht, andThen_next, park_idle hends.phase]
    exact ⟨t, rfl, ⟨hends.phase, hends.work, hends.host, hends.session, hends.scanTimeout, hends.params, hends.requests⟩,
      hreports⟩
  | overflow f =>
    rw [hbytes] at h
    exact congrArg (fun r => andThen r fun t => .next (park t)) h

/-- How the scan ends may be said of the state before its first byte. -/
theorem Collected.Ends.of_chan {bytes : Collected} {code : Byte} {c : Channel} {r : Exec} (htx : c.tx = s.chan.tx)
    (h : bytes.Ends code { s with chan := c } r) : bytes.Ends code s r := by
  cases bytes with
  | more cur lines =>
    obtain ⟨t, ht, hw, hphase, htx', hp⟩ := h
    exact ⟨t, ht, hw.of_chan, hphase, htx'.trans htx, hp⟩
  | done lines rest =>
    obtain ⟨t, ht, hends, htx', hp⟩ := h
    exact ⟨t, ht, hends.of_chan, htx'.trans htx, hp⟩
  | overflow f => exact h

/-- What SCAN.READ holds once it has read its classification code. -/
def scanWork (code : Byte) (s : State) : Work :=
  { Work.clear with tStart := s.chan.now, classCode := code, job := .scanLines }

section
variable (h : s.phase = .idle) (ho : s.session = .opened)
include h ho

/-- With a classification code read in time, SCAN.READ is in the line loop, nothing sent (R181). -/
theorem execScanRead_code {code : Byte} {c : Channel} (hr : readDeadline 1 s.scanTimeout s.chan = .done [code] c)
    (hcode : code ≠ 0x00) : c.tx = s.chan.tx ∧
      exec .scanRead s = runOn (.next (enter .scanLines (scanWork code s) { s with chan := c })) := by
  obtain ⟨-, htx, -⟩ := readDeadline_window 1 s.scanTimeout s.chan
  rw [hr] at htx
  exact ⟨htx, (execScanRead_opened h ho).trans (runScan_code hr hcode)⟩

/-- On a link that does not fail from then on, it does what the bytes after the code say. -/
theorem execScanRead_calm {code : Byte} {c : Channel} (hr : readDeadline 1 s.scanTimeout s.chan = .done [code] c)
    (hcode : code ≠ 0x00) (hc : calm c = true) :
    (collectLines s.params (pendingRx c) [] []).Ends code s (exec .scanRead s) := by
  obtain ⟨htx, hrun⟩ := execScanRead_code h ho hr hcode
  rw [hrun]
  exact (runLines_calm (s := { s with chan := c }) (scanWork code s) hc).of_chan htx

/-- A queued code is read at once. -/
theorem execScanRead_queued {code : Byte} {q bytes : List Byte} (hc : calm s.chan = true) (htmo : 1 ≤ s.scanTimeout)
    (hq : s.chan.rxFifo = code :: q) (hcode : code ≠ 0x00) (hp : pendingRx s.chan = code :: bytes) :
    (collectLines s.params bytes [] []).Ends code s (exec .scanRead s) := by
  obtain ⟨c, hr, hc', hpend, -⟩ := readDeadline_one_queued hc hq htmo
  have hbytes : pendingRx c = bytes := by
    rw [pendingRx, hq, List.cons_append] at hp
    exact hpend.trans (List.cons.inj hp).2
  exact hbytes ▸ execScanRead_calm h ho hr hcode hc'

end

/-- A link that fails before the bytes have ended the scan makes it fail, whether it has just started … -/
theorem runLines_failing {w : Work} {bs cur : List Byte} {lines : List (List Byte)} {rest : List LinkEvent}
    (hf : FailsAfter bs rest s.chan) (hbs : collectLines s.params bs w.cur w.lines = .more cur lines) :
    ∃ c, runOn (.next (enter .scanLines w s)) = .next (raise .ioFailure { s with chan := c }) ∧ c.tx = s.chan.tx ∧
      c.link = rest := by
  obtain ⟨c, hr, hlink⟩ := scanLoop_failing hf hf.lt_scanFuel hbs
  exact ⟨c, by rw [runLines, hr], scanLoop_tx (congrArg ScanAnswer.chan? hr), hlink⟩

/-- … or goes on. -/
theorem linesPhase_failing {bs cur : List Byte} {lines : List (List Byte)} {rest : List LinkEvent}
    (hf : FailsAfter bs rest s.chan) (hbs : collectLines s.params bs s.work.cur s.work.lines = .more cur lines) :
    ∃ c, linesPhase s = .next (raise .ioFailure { s with chan := c }) ∧ c.tx = s.chan.tx ∧ c.link = rest := by
  obtain ⟨c, hr, hlink⟩ := scanLoop_failing hf hf.lt_scanFuel hbs
  exact ⟨c, by rw [linesPhase, hr], scanLoop_tx (congrArg ScanAnswer.chan? hr), hlink⟩

/-- On a link that does nothing a scan on an empty queue stays as it is. -/
theorem linesPhase_silent (hp : s.phase = .scanLines) (hq : s.chan.rxFifo = []) (hl : s.chan.link = []) :
    linesPhase s = .next s := by
  have hsame : enter .scanLines s.work s = s := by rw [enter, ← hp]
  rw [linesPhase, scanFuel, scanLoop, rxByte_silent hq hl]
  exact congrArg _ hsame

end

/-! ### The obligations -/

/-- Settles O36: the code of the dot-matrix class is none of the others, whatever the parameters. -/
theorem classMapKeepsFixedPoints : Obligations.ClassMapKeepsFixedPoints := by
  intro p
  obtain ⟨hzero, hqr, hean, hunknown⟩ := dotMatrixCode_new p.dotMatrixIndex
  refine ⟨rfl, rfl, rfl, dotMatrixCode p.dotMatrixIndex, ?_, ?_⟩
  · simp only [List.mem_cons, List.not_mem_nil, or_false, not_or]
    exact ⟨hzero, hqr, hean, hunknown⟩
  · rw [classMap, if_neg hean, if_neg hqr, if_neg hunknown, if_pos rfl]

/-- Settles O32: the code is read at once, and the bytes after it are a whole body. -/
theorem scanReadParsesGrammar : Obligations.ScanReadParsesGrammar := by
  intro s code q items last rest lines h ho hc hline hlines htmo hq hcode hitems hlast hp hres
  have hends := execScanRead_queued h ho hc htmo hq hcode hp
  rw [collectLines_whole hline hlines hitems hlast] at hends
  exact hres ▸ hends

/-- Settles O33: the line loop goes on with the line begun and the lines emitted. -/
theorem suspendedScanReadGoesOn : Obligations.SuspendedScanReadGoesOn := by
  intro s items last first others rest lines hphase _ hreq hc hline hlines hitems hlast hp hfirst hres
  have hends := linesPhase_calm hc
  rw [hp, collectLines_body hline hlines hitems hlast hfirst, ← hres] at hends
  rw [step_no_request hreq, advance_lines hphase]
  exact hends

/-- How RX.READ_DEADLINE of one byte ends: with the byte, with nothing, or with the link's failure. -/
theorem readDeadline_one_cases {s u : State} {tmo : Nat} (h : s.phase = .idle) (ho : s.session = .opened)
    (hu : exec .rxReadDeadline { s with host := { s.host with n := 1, tmo := tmo } } = .next u) :
    (∃ code, readDeadline 1 tmo s.chan = .done [code] u.chan ∧ u.result.outcome = .ok ∧ u.result.obuf = [code]) ∨
    (readDeadline 1 tmo s.chan = .expired [] u.chan ∧ u.result.outcome = .noData) ∨
    (readDeadline 1 tmo s.chan = .ioFail u.chan ∧ u.result.outcome = .eIo) := by
  have hread := hu.symm.trans (execRxReadDeadline_opened h ho (nofun : (1 : Nat) ≠ 0))
  obtain ⟨-, -, -, hdone, hexpired⟩ := readDeadline_window 1 tmo s.chan
  dsimp only at hread
  cases hr : readDeadline 1 tmo s.chan with
  | done acc c =>
    obtain ⟨code, rfl⟩ := List.length_eq_one_iff.1 (hdone acc c hr)
    rw [hr] at hread
    obtain rfl := Host.Outcome.next.inj hread
    exact .inl ⟨code, rfl, rfl, rfl⟩
  | expired acc c =>
    obtain rfl := List.length_eq_zero_iff.1 (Nat.lt_one_iff.1 (hexpired acc c hr).1)
    rw [hr] at hread
    obtain rfl := Host.Outcome.next.inj hread
    exact .inr (.inl ⟨rfl, rfl⟩)
  | ioFail c =>
    rw [hr] at hread
    obtain rfl := Host.Outcome.next.inj hread
    exact .inr (.inr ⟨rfl, rfl⟩)

/-- Settles O34: both operations make the same read, and how it ends says whether the line loop follows. -/
theorem scanReadFirstByteUnderDeadline : Obligations.ScanReadFirstByteUnderDeadline := by
  intro s h
  refine ⟨refuses_of_not_opened rfl h, fun u ho hu => ?_⟩
  have hscan : exec .scanRead s = runOn (.next (scanStarted s)) := execScanRead_opened h ho
  obtain ⟨x, hr, hout, hobuf⟩ | ⟨hr, hout⟩ | ⟨hr, hout⟩ := readDeadline_one_cases h ho hu <;> rw [hout]
  · rw [hobuf]
    refine ⟨fun hnone => ?noResult, nofun, fun code items last rest _ hcode hne hc hline hlines hitems hlast hp => ?body,
      fun code l sent rest _ hcode hne hd hlink hl hline hlines hbs => ?fails⟩
    case noResult =>
      obtain ⟨-, hzero⟩ := hnone.resolve_left nofun
      have hnoCode : byteAt [x] 0 = Config.noResultCode := (List.cons.inj hzero).1
      exact ⟨_, hscan.trans (runScan_none (.inr ⟨_, hr, hnoCode⟩)), (endsKeeping_finishWith _ _).of_chan, rfl, rfl⟩
    case body =>
      obtain rfl := (List.cons.inj hcode).1
      have hends := execScanRead_calm h ho hr hne hc
      rw [hp, collectLines_whole hline hlines hitems hlast] at hends
      exact hends
    case fails =>
      obtain rfl := (List.cons.inj hcode).1
      obtain ⟨htx, hrun⟩ := execScanRead_code h ho hr hne
      obtain ⟨cur, lines, hbytes⟩ := collectLines_without_cr (cur := []) (lines := []) hline hlines hbs
      obtain ⟨c, hfails, htx', hrest⟩ := runLines_failing (s := { s with chan := u.chan }) (w := scanWork x s)
        ⟨hd, l, sent, hlink, hl, rfl⟩ hbytes
      exact ⟨_, hrun.trans hfails, (endsKeeping_raise _ _).of_chan.of_chan, htx'.trans htx, hrest, rfl⟩
  · refine ⟨fun _ => ?_, nofun, nofun, nofun⟩
    exact ⟨_, hscan.trans (runScan_none (.inl ⟨_, hr⟩)), (endsKeeping_finishWith _ _).of_chan, rfl, rfl⟩
  · refine ⟨fun hnone => absurd hnone (by simp), fun _ => ?_, nofun, nofun⟩
    exact ⟨_, hscan.trans (runScan_ioFail hr), (endsKeeping_raise _ _).of_chan, rfl, rfl⟩

/-- Settles O35: no byte ends the scan. -/
theorem scanWithoutCarriageReturnHangs : Obligations.ScanWithoutCarriageReturnHangs := by
  refine ⟨fun s code q data h ho hc hline hlines htmo hq hcode hp hdata => ?starts,
    fun s hphase _ hreq hc hline hlines hbs => ?goesOn,
    fun s l sent rest hphase _ hreq hd hlink hl hline hlines hbs => ?fails⟩
  case starts =>
    obtain ⟨cur, lines, hbytes⟩ := collectLines_without_cr (cur := []) (lines := []) hline hlines hdata
    have hends := execScanRead_queued h ho hc htmo hq hcode hp
    rw [hbytes] at hends
    exact hends
  case goesOn =>
    obtain ⟨cur, lines, hbytes⟩ := collectLines_without_cr (cur := s.work.cur) (lines := s.work.lines) hline hlines hbs
    have hends := linesPhase_calm hc
    rw [hbytes] at hends
    obtain ⟨t, ht, hw, hin, htx, hp⟩ := hends
    rw [step_no_request hreq, advance_lines hphase]
    exact ⟨t, ht, hw, hin, htx, hp, fun hq hl => Host.Outcome.next.inj (ht.symm.trans (linesPhase_silent hphase hq hl))⟩
  case fails =>
    obtain ⟨cur, lines, hbytes⟩ := collectLines_without_cr (cur := s.work.cur) (lines := s.work.lines) hline hlines hbs
    obtain ⟨c, hrun, htx, hrest⟩ := linesPhase_failing ⟨hd, l, sent, hlink, hl, rfl⟩ hbytes
    rw [step_no_request hreq, advance_lines hphase]
    exact ⟨_, hrun, (endsKeeping_raise _ _).of_chan, htx, hrest, rfl⟩

/-- Settles O37: the lines before fit, and the next byte or terminator is one too many. -/
theorem finiteCapacitiesFaultOnOverflow : Obligations.FiniteCapacitiesFaultOnOverflow := by
  refine ⟨fun s code q items data rest h ho hc htmo hq hcode hitems hdata hline hlines => ?started,
    fun s data rest hphase _ hreq hc hdata =>
      ⟨fun k hk hcur hlong hp => ?lineGoesOn, fun k x hk hfull hne hfit hx hp => ?linesGoesOn⟩⟩
  case started =>
    have hemitted (bs : List Byte) : collectLines s.params ((items.map (· ++ [0x0A])).flatten ++ bs) [] [] =
        collectLines s.params bs [] ([] ++ items.filter (· ≠ [])) :=
      collectLines_items hitems (fun l hl => fits_iff.2 fun k hk => hline k hk l hl)
        (fits_iff.2 fun k hk => (Nat.zero_add _).trans_le (hlines k hk))
    refine ⟨fun k hk hlong hp => ?line, fun k x hk hfull hne hfit hx hp => ?lines⟩
    all_goals
      have hends := execScanRead_queued h ho hc htmo hq hcode hp
      rw [List.append_assoc, hemitted, List.nil_append] at hends
    case line =>
      rw [collectLines_lineOverflow hk (Nat.zero_le _) hdata (by rw [List.length_nil]; omega)] at hends
      exact hends
    case lines =>
      rw [collectLines_linesOverflow (cur := []) hdata (fits_iff.2 fun m hm => (Nat.zero_add _).trans_le (hfit m hm)) hne
        (hk.trans (congrArg some hfull.symm)) hx] at hends
      exact hends
  case lineGoesOn =>
    have hends := linesPhase_calm hc
    rw [hp, collectLines_lineOverflow hk hcur hdata (by omega)] at hends
    rw [step_no_request hreq, advance_lines hphase]
    exact hends
  case linesGoesOn =>
    have hends := linesPhase_calm hc
    rw [hp, collectLines_linesOverflow hdata (fits_iff.2 hfit) hne (hk.trans (congrArg some hfull.symm)) hx] at hends
    rw [step_no_request hreq, advance_lines hphase]
    exact hends

end Sys2Proof.Machine
end

section
/-! SUPPORT. A link whose events come in two parts, the second without answers (42_transport.md R143, R150; log 4): a
transfer that waits at the end of the first and goes on with the second does as on the whole, once the bytes about to cut
in have joined the queue. -/

namespace Sys2Proof.Machine

/-- The channel once the bytes about to cut in have joined the queue. -/
def landed (c : Channel) : Channel := land c.link c

/-- The channel on a link that goes on with more events. -/
def addEvents (more : List LinkEvent) (c : Channel) : Channel := { c with link := c.link ++ more }

/-- No event of these is an answer to a transfer. -/
def Unanswered (l : List LinkEvent) : Prop := ∀ e ∈ l, isAnswer e = false

theorem Unanswered.suffix {l l' : List LinkEvent} (h : Unanswered l) (hl : l' <:+ l) : Unanswered l' :=
  fun e he => h e (hl.subset he)

/-! ### Bytes that cut in -/

section
variable {more : List LinkEvent} {c : Channel}

/-- Once they have landed, no byte is about to. -/
theorem landed_land (l : List LinkEvent) (c : Channel) : landed (land l c) = land l c := by
  rw [landed, land_quiet (land_frame l c).2.2.2]

theorem landed_withLink (l : List LinkEvent) (c : Channel) : landed { c with link := l } = land l c := land_link l l c

/-- Bytes land from the first part, and then from the second if the first held nothing else. -/
theorem land_append (l more : List LinkEvent) (c : Channel) :
    land (l ++ more) c = landed (addEvents more (land l c)) := by
  induction l generalizing c with
  | nil =>
    have hland : land [] c = { c with link := [] } := land_quiet (by simp) c
    rw [hland]
    exact (land_link more more c).symm
  | cons e l ih =>
    cases e with
    | cutIn b => exact ih (pushRx b c)
    | _ => rfl

theorem landed_addEvents (more : List LinkEvent) (c : Channel) :
    landed (addEvents more c) = landed (addEvents more (landed c)) :=
  (land_link _ _ c).trans (land_append c.link more c)

theorem addEvents_nil (h : c.link = []) : addEvents more c = { c with link := more } := by
  rw [addEvents, h, List.nil_append]

/-- With nothing left of the first part, the bytes of the second land. -/
theorem landed_addEvents_nil (h : c.link = []) : landed (addEvents more c) = land more c := by
  rw [addEvents, h]
  exact land_link more more c

/-- With an event left that is no byte cutting in, none lands. -/
theorem landed_addEvents_cons (hne : c.link ≠ []) (h : ∀ e ∈ c.link.head?, isCutIn e = false) :
    landed (addEvents more c) = addEvents more c := by
  obtain ⟨e, l, hl⟩ := List.exists_cons_of_ne_nil hne
  rw [hl] at h
  refine land_quiet (c := addEvents more c) ?_
  rw [addEvents, hl]
  exact h

/-- Bytes land behind those that are queued. -/
theorem land_behind (hd : c.rxDepth = none) (l : List LinkEvent) (q : List Byte) :
    land l { c with rxFifo := q ++ c.rxFifo } = { land l c with rxFifo := q ++ (land l c).rxFifo } := by
  induction l generalizing c with
  | nil => rfl
  | cons e l ih =>
    cases e with
    | cutIn b =>
      have hpush : pushRx b { c with rxFifo := q ++ c.rxFifo } = { c with rxFifo := q ++ (c.rxFifo ++ [b]) } :=
        (pushRx_unbounded b { c with rxFifo := q ++ c.rxFifo } hd).trans (by rw [List.append_assoc])
      rw [land, land, hpush, pushRx_unbounded b c hd]
      exact ih (c := { c with rxFifo := c.rxFifo ++ [b] }) hd
    | _ => rfl

/-- The oldest queued byte is taken before or after bytes land, if no answer is among the events. -/
theorem takeByte_land {l : List LinkEvent} {b : Byte} {q : List Byte} (hd : c.rxDepth = none) (hl : Unanswered l)
    (hq : c.rxFifo = b :: q) : takeByte (land l c) = .byte b (land l { c with rxFifo := q }) := by
  have hland : land l c = { land l { c with rxFifo := q } with
      rxFifo := b :: (land l { c with rxFifo := q }).rxFifo } := by
    have h := land_behind (c := { c with rxFifo := q }) hd l [b]
    rwa [List.singleton_append, ← hq] at h
  have hnone := hl.suffix (land_frame l { c with rxFifo := q }).2.2.1
  rw [hland, takeByte]
  dsimp only
  split
  · next heq => rw [heq] at hnone; cases hnone _ List.mem_cons_self
  · next heq => rw [heq] at hnone; cases hnone _ List.mem_cons_self
  · rfl

end

/-! ### Waiting -/

section
variable {l more : List LinkEvent} {b : Byte} {c c' : Channel}

/-- A wait is given its events apart from the channel. -/
theorem waitArrival_link (l l' : List LinkEvent) (c : Channel) :
    waitArrival l { c with link := l' } = waitArrival l c := by
  induction l generalizing c with
  | nil => rfl
  | cons e l ih =>
    cases e with
    | arrive b | cutIn b => rw [waitArrival, waitArrival, pushRx_withLink, ih]
    | elapse k => exact ih { c with now := c.now + k * tickMs c }
    | ok | latePoll => exact ih c
    | fail _ => rfl

/-- A byte that comes in the first part comes whatever follows, … -/
theorem waitArrival_append_byte (h : waitArrival l c = .byte b c') :
    waitArrival (l ++ more) c = .byte b (addEvents more c') := by
  fun_induction waitArrival l c with
  | case1 => cases h
  | case2 _ _ _ _ _ hq | case4 _ _ _ _ _ hq => cases h; rw [List.cons_append, waitArrival, hq]; rfl
  | case3 _ _ _ hq ih | case5 _ _ _ hq ih => rw [List.cons_append, waitArrival, hq]; exact ih h
  | case6 _ _ _ ih | case7 _ _ ih | case8 _ _ ih => rw [List.cons_append, waitArrival]; exact ih h
  | case9 => cases h

/-- … and a wait that outlasts it goes on with what follows. -/
theorem waitArrival_append_waiting (h : waitArrival l c = .waiting c') :
    waitArrival (l ++ more) c = waitArrival more c' := by
  fun_induction waitArrival l c with
  | case1 => cases h; exact (waitArrival_link more [] _).symm
  | case2 | case4 => cases h
  | case3 _ _ _ hq ih | case5 _ _ _ hq ih => rw [List.cons_append, waitArrival, hq]; exact ih h
  | case6 _ _ _ ih | case7 _ _ ih | case8 _ _ ih => rw [List.cons_append, waitArrival]; exact ih h
  | case9 => cases h

/-- With an empty queue a byte is waited for. -/
theorem takeByte_empty (hq : c.rxFifo = []) : takeByte c = waitArrival c.link c := by
  rw [takeByte, hq]

/-- What waits, waits with an empty queue. -/
theorem takeByte_waiting (h : takeByte c = .waiting c') : c.rxFifo = [] ∧ waitArrival c.link c = .waiting c' := by
  cases hq : c.rxFifo with
  | nil => exact ⟨rfl, (takeByte_empty hq).symm.trans h⟩
  | cons x q =>
    rw [takeByte, hq] at h
    dsimp only at h
    split at h <;> cases h

/-- A byte that is taken while the first part has events left is taken whatever follows. -/
theorem takeByte_addEvents (hne : c.link ≠ []) (h : takeByte c = .byte b c') :
    takeByte (addEvents more c) = .byte b (addEvents more c') := by
  cases hq : c.rxFifo with
  | nil =>
    exact (takeByte_empty (c := addEvents more c) hq).trans
      ((waitArrival_link _ _ c).trans (waitArrival_append_byte ((takeByte_empty hq).symm.trans h)))
  | cons x q =>
    obtain ⟨fifo, tx, now, link, depth, tick, lost⟩ := c
    subst hq
    cases link with
    | nil => exact absurd rfl hne
    | cons e l => cases e <;> cases h <;> rfl

/-- A wait that is not over leaves no event and no byte. -/
theorem waitArrival_waiting (hq : c.rxFifo = []) (h : waitArrival l c = .waiting c') :
    c'.link = [] ∧ c'.rxFifo = [] := by
  fun_induction waitArrival l c with
  | case1 => cases h; exact ⟨rfl, hq⟩
  | case2 | case4 => cases h
  | case3 _ _ _ hp ih | case5 _ _ _ hp ih => exact ih hp h
  | case6 _ _ _ ih | case7 _ _ ih | case8 _ _ ih => exact ih hq h
  | case9 => cases h

end

/-- The answer of a wait once the bytes about to cut in have joined the queue. -/
def RxAnswer.landed : RxAnswer → RxAnswer
  | .byte b c => .byte b (Machine.landed c)
  | .ioFail c => .ioFail (Machine.landed c)
  | .waiting c => .waiting (Machine.landed c)

/-- The answer of a read likewise. -/
def ReadAnswer.landed : ReadAnswer → ReadAnswer
  | .done acc c => .done acc (Machine.landed c)
  | .ioFail c => .ioFail (Machine.landed c)
  | .waiting acc c => .waiting acc (Machine.landed c)

section
variable {more : List LinkEvent} {b : Byte} {c c' : Channel} (hm : Unanswered more) (hd : c.rxDepth = none)
include hm hd

/-- Waiting with an empty queue, a byte may cut in during the wait or before it. -/
theorem waitArrival_landed (hq : c.rxFifo = []) : (waitArrival more c).landed = (takeByte (land more c)).landed := by
  have hquiet (he : ∀ e ∈ more.head?, isCutIn e = false) : waitArrival more c = takeByte (land more c) := by
    rw [land_quiet he]
    exact ((takeByte_empty (c := { c with link := more }) hq).trans (waitArrival_link more more c)).symm
  cases more with
  | nil => exact congrArg _ (hquiet (by simp))
  | cons e l =>
    cases e with
    | cutIn y =>
      have hl : Unanswered l := hm.suffix (List.suffix_cons _ _)
      have hpush : pushRx y c = { c with rxFifo := [y] } := by rw [pushRx_unbounded y c hd, hq]; rfl
      rw [waitArrival, land, hpush, takeByte_land (c := { c with rxFifo := [y] }) hd hl rfl]
      dsimp only [RxAnswer.landed]
      rw [landed_land]
      exact congrArg _ (landed_withLink l { c with rxFifo := [] })
    | _ => exact congrArg _ (hquiet (by simp [isCutIn]))

/-- A byte that is taken in the first part is taken whatever follows, … -/
theorem rxByte_addEvents_byte (h : rxByte c = .byte b c') :
    (rxByte (addEvents more c)).landed = .byte b (landed (addEvents more c')) := by
  have hquiet : ∀ e ∈ (landed c).link.head?, isCutIn e = false := (land_frame c.link c).2.2.2
  have hdl : (landed c).rxDepth = none := (land_rxDepth _ _).trans hd
  change takeByte (landed c) = _ at h
  change (takeByte (landed (addEvents more c))).landed = _
  rw [landed_addEvents]
  generalize landed c = e at h hquiet hdl ⊢
  by_cases hlink : e.link = []
  · rw [landed_addEvents_nil hlink]
    cases hq : e.rxFifo with
    | nil => rw [takeByte_empty hq, hlink] at h; cases h
    | cons x q =>
      rw [takeByte, hq, hlink] at h
      cases h
      rw [takeByte_land hdl hm hq, RxAnswer.landed, landed_land, landed_addEvents_nil rfl]
      exact congrArg _ (land_link more [] { e with rxFifo := q }).symm
  · rw [landed_addEvents_cons hlink hquiet, takeByte_addEvents hlink h]
    rfl

/-- … and a wait that outlasts the first part goes on with what follows. -/
theorem rxByte_addEvents_waiting (h : rxByte c = .waiting c') :
    (rxByte (addEvents more c)).landed = (rxByte (addEvents more c')).landed := by
  have hquiet : ∀ e ∈ (landed c).link.head?, isCutIn e = false := (land_frame c.link c).2.2.2
  have hdl : c'.rxDepth = none := by
    have hdepth := (rxByte_later c).depth
    rw [h] at hdepth
    exact hdepth.trans hd
  change takeByte (landed c) = _ at h
  change (takeByte (landed (addEvents more c))).landed = (takeByte (landed (addEvents more c'))).landed
  rw [landed_addEvents]
  generalize landed c = e at h hquiet ⊢
  obtain ⟨hq, h⟩ := takeByte_waiting h
  obtain ⟨hlink', hq'⟩ := waitArrival_waiting hq h
  rw [landed_addEvents_nil hlink']
  by_cases hlink : e.link = []
  · rw [hlink] at h
    cases h
    exact congrArg (fun x => (takeByte x).landed) ((landed_addEvents_nil hlink).trans (land_link more [] e).symm)
  · rw [landed_addEvents_cons hlink hquiet, ← waitArrival_landed hm hdl hq',
      takeByte_empty (c := addEvents more e) hq]
    exact congrArg _ ((waitArrival_link _ _ e).trans (waitArrival_append_waiting h))

end

/-! ### Reading -/

section
variable {k n : Nat} {acc acc' : List Byte} {more : List LinkEvent} {c c' : Channel}

/-- Bytes that land before a read are no different to it from bytes that cut in, … -/
theorem readMore_landed (h : landed c = landed c') : (readMore k acc c).landed = (readMore k acc c').landed := by
  cases k with
  | zero => exact congrArg (ReadAnswer.done acc) h
  | succ k =>
    have hr : rxByte c = rxByte c' := congrArg takeByte h
    rw [readMore, readMore, hr]

/-- … nor if they do so during its first wait. -/
theorem readMore_succ_landed (h : (rxByte c).landed = (rxByte c').landed) :
    (readMore (k + 1) acc c).landed = (readMore (k + 1) acc c').landed := by
  rw [readMore, readMore]
  cases hr : rxByte c with
  | byte b x =>
    rw [hr] at h
    cases hr' : rxByte c' with
    | byte b' x' =>
      rw [hr'] at h
      obtain ⟨rfl, hx⟩ := RxAnswer.byte.inj h
      exact readMore_landed hx
    | ioFail x' | waiting x' => rw [hr'] at h; cases h
  | ioFail x =>
    rw [hr] at h
    cases hr' : rxByte c' with
    | ioFail x' => rw [hr'] at h; exact congrArg ReadAnswer.ioFail (RxAnswer.ioFail.inj h)
    | byte b' x' | waiting x' => rw [hr'] at h; cases h
  | waiting x =>
    rw [hr] at h
    cases hr' : rxByte c' with
    | waiting x' => rw [hr'] at h; exact congrArg (ReadAnswer.waiting acc) (RxAnswer.waiting.inj h)
    | byte b' x' | ioFail x' => rw [hr'] at h; cases h

/-- A read that waits at the end of the first part and goes on for the bytes it lacks reads as on the whole. -/
theorem readMore_addEvents (hm : Unanswered more) (hd : c.rxDepth = none)
    (h : readMore n acc c = .waiting acc' c') :
    (readMore n acc (addEvents more c)).landed =
      (readMore (n + acc.length - acc'.length) acc' (addEvents more c')).landed := by
  induction n generalizing acc c with
  | zero => cases h
  | succ n ih =>
    rw [readMore] at h
    cases hr : rxByte c with
    | byte b x =>
      rw [hr] at h
      have hdx : x.rxDepth = none := by
        have hdepth := (rxByte_later c).depth
        rw [hr] at hdepth
        exact hdepth.trans hd
      have hn : n + (acc ++ [b]).length = n + 1 + acc.length := by
        rw [List.length_append, List.length_singleton]; omega
      have hbyte := rxByte_addEvents_byte hm hd hr
      rw [← hn, ← ih hdx h, readMore]
      cases hr' : rxByte (addEvents more c) with
      | byte b' x' =>
        rw [hr'] at hbyte
        obtain ⟨rfl, hx⟩ := RxAnswer.byte.inj hbyte
        exact readMore_landed hx
      | ioFail x' | waiting x' => rw [hr'] at hbyte; cases hbyte
    | ioFail x => rw [hr] at h; cases h
    | waiting x =>
      rw [hr] at h
      cases h
      rw [Nat.add_sub_cancel]
      exact readMore_succ_landed (rxByte_addEvents_waiting hm hd hr)

end

/-! ### Transmitting and discarding -/

section
variable {more : List LinkEvent} {bs : List Byte} {c c' : Channel} (hm : Unanswered more)
include hm

/-- With no answer to come the rest is accepted, after the bytes that cut in (log 4). -/
theorem transmit_unanswered (b : Byte) (bs : List Byte) (c : Channel) :
    ∃ d, transmit more (b :: bs) c = .sent d ∧ landed d = land more { c with tx := c.tx ++ b :: bs } := by
  induction more generalizing c with
  | nil => exact ⟨_, transmit_nil _ _, landed_withLink [] { c with tx := c.tx ++ b :: bs }⟩
  | cons e l ih =>
    cases e with
    | ok | fail _ => cases hm _ List.mem_cons_self
    | cutIn x =>
      obtain ⟨d, hd, hland⟩ := ih (hm.suffix (List.suffix_cons _ _)) (pushRx x c)
      rw [pushRx_tx] at hland
      exact ⟨d, hd, hland.trans (congrArg (land l) (pushRx_withTx x c _).symm)⟩
    | arrive _ | elapse _ | latePoll => exact ⟨_, rfl, landed_withLink _ { c with tx := c.tx ++ b :: bs }⟩

/-- A transmission that is over in the first part is over on the whole. -/
theorem transmit_addEvents {l : List LinkEvent} (h : transmit l bs c = .sent c') :
    ∃ d, transmit (l ++ more) bs c = .sent d ∧ landed d = landed (addEvents more c') := by
  induction l generalizing bs c with
  | nil =>
    cases bs with
    | nil => rw [transmit_nil, List.append_nil] at h; cases h; exact ⟨_, transmit_nothing _ _, rfl⟩
    | cons b bs =>
      rw [transmit_nil] at h
      cases h
      obtain ⟨d, hd, hland⟩ := transmit_unanswered hm b bs c
      exact ⟨d, hd, hland.trans (landed_withLink more { c with tx := c.tx ++ b :: bs }).symm⟩
  | cons e l ih =>
    cases bs with
    | nil => rw [transmit_nothing] at h ⊢; cases h; exact ⟨_, rfl, rfl⟩
    | cons b bs =>
      cases e with
      | cutIn x => exact ih h
      | ok =>
        obtain ⟨d, hd, hland⟩ := ih (c := { c with tx := c.tx ++ [b], link := l }) h
        exact ⟨d, (transmit_link _ (l ++ more) bs { c with tx := c.tx ++ [b], link := l }).trans hd, hland⟩
      | fail _ => cases h
      | arrive _ | elapse _ | latePoll => cases h; exact ⟨_, rfl, rfl⟩

theorem discardRx_addEvents (h : discardRx c = .sent c') : discardRx (addEvents more c) = .sent (addEvents more c') := by
  obtain ⟨fifo, tx, now, link, depth, tick, lost⟩ := c
  cases link with
  | nil =>
    cases h
    cases more with
    | nil => rfl
    | cons e l =>
      cases e with
      | ok | fail _ => cases hm _ List.mem_cons_self
      | arrive _ | cutIn _ | elapse _ | latePoll => rfl
  | cons e l => cases e <;> cases h <;> rfl

end

end Sys2Proof.Machine
end

section
/-! SUPPORT. An operation that waits and goes on, against one that has all its bytes at once (42_transport.md R143; logs
4, 5). -/

namespace Sys2Proof.Machine

/-! ### Results that are the same -/

/-- The results `r'` are the results `r` as far as the outcome defines them (10_state.md R22, 60_exceptions.md R204). -/
structure SameResults (i : Instr) (r r' : Results) : Prop where
  outcome : r'.outcome = r.outcome
  info : r.outcome ∈ [.eShort, .eStatus, .eUnsupported, .eRange, .ePartial] → r'.info = r.info
  crcout : i = .crcCompute → r'.crcout = r.crcout
  olen : r.outcome = .ok ∨ r.outcome = .noData →
    i ∈ [.frameBuild, .frameParse, .rxReadExact, .rxReadDeadline, .rxReadByte, .cmdRead] → r'.olen = r.olen
  obuf : r.outcome = .ok →
    i ∈ [.frameBuild, .frameParse, .rxReadExact, .rxReadDeadline, .rxReadByte, .cmdRead] → r'.obuf = r.obuf
  scan : r.outcome = .ok → i = .scanRead → r'.scan = r.scan

section
variable {i : Instr} {job : Job} (hj : jobInstr job = some (rowOf i))
include hj

/-- No job computes a checksum for the host. -/
theorem ne_crcCompute_of_job : i ≠ .crcCompute := by
  rintro rfl
  cases job with
  | writeAck next => cases next <;> cases hj
  | _ => cases hj

/-- Only SCAN.READ runs with the job of reading lines. -/
theorem scanLines_of_job (hi : i = .scanRead) : job = .scanLines := by
  subst hi
  cases job with
  | scanLines => rfl
  | writeAck next => cases next <;> cases hj
  | _ => cases hj

/-- Operations that return bytes run with jobs that do. -/
theorem returnsBytes_of_job
    (hi : i ∈ [Instr.frameBuild, .frameParse, .rxReadExact, .rxReadDeadline, .rxReadByte, .cmdRead]) :
    returnsBytes job = true := by
  have hrow : rowOf i ∈ [Instr.frameBuild, .frameParse, .rxReadExact, .rxReadDeadline, .cmdRead] := by
    simp only [List.mem_cons, List.not_mem_nil, or_false] at hi
    obtain rfl | rfl | rfl | rfl | rfl | rfl := hi <;> simp [rowOf]
  cases job with
  | frameBuild | frameParse _ _ | readDeadline _ _ | readExact _ | readReply _ => rfl
  | none => cases hj
  | send | scanLines => rw [← Option.some.inj hj] at hrow; simp at hrow
  | writeAck next => cases next <;> (rw [← Option.some.inj hj] at hrow; simp at hrow)

/-- Bytes returned with an `OK` are the results. -/
theorem sameResults_bytes (hn : job ≠ .scanLines) (obuf : List Byte) (olen : Nat) (r r' : Results) :
    SameResults i { r with outcome := .ok, obuf := obuf, olen := olen }
      { r' with outcome := .ok, obuf := obuf, olen := olen } :=
  ⟨rfl, fun h => absurd h (by simp), fun h => absurd h (ne_crcCompute_of_job hj), fun _ _ => rfl, fun _ _ => rfl,
    fun _ hi => absurd (scanLines_of_job hj hi) hn⟩

/-- So is their lack (42_transport.md R146). -/
theorem sameResults_noData (hn : job ≠ .scanLines) (r r' : Results) :
    SameResults i { r with outcome := .noData, olen := 0 } { r' with outcome := .noData, olen := 0 } :=
  ⟨rfl, fun h => absurd h (by simp), fun h => absurd h (ne_crcCompute_of_job hj), fun _ _ => rfl, nofun,
    fun _ hi => absurd (scanLines_of_job hj hi) hn⟩

/-- An outcome alone is the result of a job that returns nothing. -/
theorem sameResults_outcome (hb : returnsBytes job = false) {o : OutcomeCode} (he : isError o = false)
    (hs : job = .scanLines → o ≠ .ok) (r r' : Results) :
    SameResults i { r with outcome := o } { r' with outcome := o } :=
  ⟨rfl, fun h => absurd he (by cases o <;> simp [isError] at h ⊢), fun h => absurd h (ne_crcCompute_of_job hj),
    fun _ hi => absurd (returnsBytes_of_job hj hi) (Bool.eq_false_iff.1 hb),
    fun _ hi => absurd (returnsBytes_of_job hj hi) (Bool.eq_false_iff.1 hb),
    fun ho hi => absurd ho (hs (scanLines_of_job hj hi))⟩

/-- An error leaves its outcome, and its INFO where that is specified. -/
theorem sameResults_raise (e : Error) (x y : State) : SameResults i (raise e x).result (raise e y).result := by
  have hne (o : OutcomeCode) (ho : isError o = false) : (raise e x).result.outcome ≠ o := fun h => by
    have herr : isError (raise e x).result.outcome = true := errorOutcome_isError e
    rw [h, ho] at herr
    cases herr
  exact ⟨rfl, fun h => errorInfo_specified h _ _, fun h => absurd h (ne_crcCompute_of_job hj),
    fun h => absurd h (not_or.2 ⟨hne _ rfl, hne _ rfl⟩), fun h => absurd h (hne _ rfl), fun h => absurd h (hne _ rfl)⟩

end

/-! ### Ends that are the same -/

/-- In `t` an operation that ran in `x` has ended: it has nothing left to show but results, and, where it writes them, the
session and `SCAN_TIMEOUT`. -/
structure Ended (x t : State) : Prop where
  phase : t.phase = .idle
  work : t.work = Work.clear
  chan : t.chan = x.chan
  host : t.host = x.host
  requests : t.requests = x.requests
  params : t.params = x.params

/-- An operation of `x` has ended in `t` as the same one of `y` in `v`. -/
structure EndAlike (i : Instr) (x y t v : State) : Prop where
  first : Ended x t
  second : Ended y v
  session : v.session = t.session
  scanTimeout : v.scanTimeout = t.scanTimeout
  results : SameResults i t.result v.result

section
variable {i : Instr} {x y : State} (hs : y.session = x.session) (ht : y.scanTimeout = x.scanTimeout)
include hs ht

theorem endAlike_finish {r r' : Results} (hr : SameResults i r r') : EndAlike i x y (finish r x) (finish r' y) :=
  ⟨⟨rfl, rfl, rfl, rfl, rfl, rfl⟩, ⟨rfl, rfl, rfl, rfl, rfl, rfl⟩, hs, ht, hr⟩

variable {job : Job} (hj : jobInstr job = some (rowOf i))
include hj

theorem endAlike_raise (e : Error) : EndAlike i x y (raise e x) (raise e y) :=
  ⟨⟨rfl, rfl, rfl, rfl, rfl, rfl⟩, ⟨rfl, rfl, rfl, rfl, rfl, rfl⟩, hs, ht, sameResults_raise hj e x y⟩

theorem endAlike_afterAck {next : AfterAck} (hjob : job = .writeAck next) :
    EndAlike i x y (afterAck next x) (afterAck next y) := by
  have hr := sameResults_outcome hj (o := .ok) (by rw [hjob]; rfl) rfl (by rw [hjob]; nofun) x.result y.result
  cases next with
  | done => exact endAlike_finish hs ht hr
  | setTimeout tmo =>
    exact ⟨⟨rfl, rfl, rfl, rfl, rfl, rfl⟩, ⟨rfl, rfl, rfl, rfl, rfl, rfl⟩, hs, rfl, hr⟩
  | openSession => exact ⟨⟨rfl, rfl, rfl, rfl, rfl, rfl⟩, ⟨rfl, rfl, rfl, rfl, rfl, rfl⟩, rfl, rfl, hr⟩

/-- A job that has all its bytes ends the same whatever it ran through before. -/
theorem endAlike_completeJob (acc : List Byte)
    (h : (∃ n, job = .readExact n) ∨ (∃ cap check, job = .frameParse cap check) ∨ isCommand job = true) :
    EndAlike i x y (completeJob job acc x) (completeJob job acc y) := by
  cases job with
  | readExact n => exact endAlike_finish hs ht (sameResults_bytes hj nofun _ _ _ _)
  | writeAck next =>
    cases hp : parseReply acc 1 true with
    | ok r => rw [completeJob_writeAck_ok _ hp, completeJob_writeAck_ok _ hp]; exact endAlike_afterAck hs ht hj rfl
    | error e => rw [completeJob_writeAck_error _ hp, completeJob_writeAck_error _ hp]; exact endAlike_raise hs ht hj e
  | readReply n =>
    cases hp : parseReply acc n true with
    | ok r =>
      rw [completeJob_readReply_ok _ hp, completeJob_readReply_ok _ hp]
      exact endAlike_finish hs ht (sameResults_bytes hj nofun _ _ _ _)
    | error e =>
      rw [completeJob_readReply_error _ hp, completeJob_readReply_error _ hp]
      exact endAlike_raise hs ht hj e
  | frameParse cap check =>
    cases hp : parseReply acc cap check with
    | ok r =>
      rw [completeJob_frameParse_ok _ hp, completeJob_frameParse_ok _ hp]
      exact endAlike_finish hs ht (sameResults_bytes hj nofun _ _ _ _)
    | error e =>
      rw [completeJob_frameParse_error _ hp, completeJob_frameParse_error _ hp]
      exact endAlike_raise hs ht hj e
  | none | frameBuild | send | readDeadline _ _ | scanLines => simp [isCommand] at h

end

end Sys2Proof.Machine
end

section
/-! SUPPORT. An operation whose reply comes in two parts (42_transport.md R143; log 5): it waits at the end of the first
and goes on with the second as if all had come at once. -/

namespace Sys2Proof.Machine

/-! ### How a read ends or waits -/

/-- How an operation that reads in RX_WAIT ends or waits, given what its read answers. -/
def endRead (s : State) (answer : ReadAnswer) : State :=
  match answer with
  | .done acc c => completeJob s.work.job acc { s with chan := c }
  | .ioFail c => raise .ioFailure { s with chan := c }
  | .waiting acc c => enter .rxWait { s.work with acc := acc } { s with chan := c }

theorem settle_endRead {s : State} (hp : s.phase = .rxWait)
    (hj : isCommand s.work.job = true ∨ ∃ n, s.work.job = .readExact n) (k : Nat) :
    settle (k + 2) s = .next (endRead s (readMore (jobBytes s.work.job - s.work.acc.length) s.work.acc s.chan)) := by
  obtain ⟨acc, c, hr, h⟩ | ⟨c, hr, h⟩ | ⟨acc, c, hr, h⟩ := settle_rx_cases (k := k) hp hj <;> rw [hr] <;> exact h

/-- An operation that runs whole goes on likewise. -/
theorem advance_endRead {s : State} (hp : s.phase = .rxWait) (hw : s.work.pace = .whole)
    (hj : isCommand s.work.job = true ∨ ∃ n, s.work.job = .readExact n) :
    advance s = .next (endRead s (readMore (jobBytes s.work.job - s.work.acc.length) s.work.acc s.chan)) := by
  rw [advance, if_neg (by rw [hp]; nofun), hw]
  exact settle_endRead hp hj 2

/-- The read that an operation holding `w` begins in `s` on the channel `d`, to where its step ends. -/
def readOn (w : Work) (d : Channel) (s : State) : Exec :=
  .next (park (endRead (enter .rxWait w { s with chan := d }) (readMore (jobBytes w.job) [] d)))

/-- `first` and `whole` begin the same read, `whole` on a link that goes on with `more`. -/
def CutRead (more : List LinkEvent) (job : Job) (s : State) (first whole : Exec) : Prop :=
  ∃ w d d', w.job = job ∧ w.acc = [] ∧ w.pace = .whole ∧ d.rxDepth = s.chan.rxDepth ∧
    landed d' = landed (addEvents more d) ∧ first = readOn w d s ∧ whole = readOn w d' s

section
variable {more : List LinkEvent} {s u : State}

theorem cutRead_enterRead (n : Nat) :
    CutRead more (.readExact n) s (runOn (.next (enterRead n s)))
      (runOn (.next (enterRead n { s with chan := addEvents more s.chan }))) := by
  have hrun (x : State) : runOn (.next (enterRead n x)) = readOn { Work.clear with job := .readExact n } x.chan x := by
    rw [runOn, phaseCount, andThen_next, settle_endRead rfl (.inr ⟨n, rfl⟩), andThen_next]
    rfl
  exact ⟨_, s.chan, addEvents more s.chan, rfl, rfl, rfl, rfl, rfl, hrun s,
    hrun { s with chan := addEvents more s.chan }⟩

/-- A command that waits has sent its frame within the first part. -/
theorem cutRead_enterCommand {f : FrameFields} {job : Job} (hm : Unanswered more) (hj : isCommand job = true)
    (h : runOn (.next (enterCommand f job s)) = .next u) (hp : u.phase = .rxWait) :
    CutRead more job s (runOn (.next (enterCommand f job s)))
      (runOn (.next (enterCommand f job { s with chan := addEvents more s.chan }))) := by
  have hrun {x : State} {c : Channel} (hsent : transmit x.chan.link (buildFrame f) x.chan = .sent c) :
      runOn (.next (enterCommand f job x)) =
        readOn { Work.clear with crc := crc16 (frameBody f), frame := buildFrame f, job := job } c x := by
    rw [runOn, phaseCount, andThen_next, settle_command hj hsent,
      settle_endRead (s := commandSent f job c x) rfl (.inl hj), andThen_next]
    rfl
  cases hsent : transmit s.chan.link (buildFrame f) s.chan with
  | sent c =>
    obtain ⟨d, hd, hland⟩ := transmit_addEvents hm hsent
    have hdepth := (transmit_later s.chan.link (buildFrame f) s.chan).1.depth
    rw [hsent] at hdepth
    exact ⟨_, c, d, rfl, rfl, rfl, hdepth, hland, hrun hsent,
      hrun (x := { s with chan := addEvents more s.chan }) ((transmit_link _ _ _ _).trans hd)⟩
  | ioFail c =>
    obtain rfl := Host.Outcome.next.inj (h.symm.trans (runCommand_ioFail hj hsent))
    cases hp

end

/-! ### The operations that read -/

section
variable {i : Instr} {more : List LinkEvent} {s u : State}

/-- An operation that waits has found a session. -/
theorem opened_of_waits (hi : needsOpen i = true) (h : s.phase = .idle) (hu : exec i s = .next u)
    (hp : u.phase = .rxWait) : s.session = .opened := by
  by_contra ho
  obtain rfl := Host.Outcome.next.inj (hu.symm.trans (exec_of_not_opened hi h ho))
  cases hp

/-- An operation that waits has found its operands in their domain. -/
theorem inDomain_of_waits {x : State} {inDomain : Bool}
    (hrun : exec i s = runOn (whenOpen s (.next (if inDomain then x else raise .refused s)))) (h : s.phase = .idle)
    (hu : exec i s = .next u) (hp : u.phase = .rxWait) : inDomain = true := by
  by_contra hno
  obtain ⟨t, ht, hends, -⟩ := refuses_of_guard hrun h (.inr (Bool.not_eq_true _ ▸ hno))
  obtain rfl := Host.Outcome.next.inj (hu.symm.trans ht)
  rw [hends.phase] at hp
  cases hp

/-- An operation that is an exact read, whatever the channel. -/
theorem cutRead_of_read {n : Nat}
    (hrun : ∀ c, exec i { s with chan := c } = runOn (.next (enterRead n { s with chan := c }))) :
    CutRead more (.readExact n) s (exec i s) (exec i { s with chan := addEvents more s.chan }) := by
  have hfirst : exec i s = runOn (.next (enterRead n s)) := hrun s.chan
  rw [hfirst, hrun]
  exact cutRead_enterRead n

/-- An operation that is a command, whatever the channel. -/
theorem cutRead_of_command {f : FrameFields} {job : Job}
    (hrun : ∀ c, exec i { s with chan := c } = runOn (.next (enterCommand f job { s with chan := c })))
    (hj : isCommand job = true) (hm : Unanswered more) (hu : exec i s = .next u) (hp : u.phase = .rxWait) :
    CutRead more job s (exec i s) (exec i { s with chan := addEvents more s.chan }) := by
  have hfirst : exec i s = runOn (.next (enterCommand f job s)) := hrun s.chan
  rw [hfirst, hrun]
  exact cutRead_enterCommand hm hj (hfirst.symm.trans hu) hp

/-- SESSION.OPEN is a command after its discard, which leaves the second part of the events alone. -/
theorem cutRead_sessionOpen (hm : Unanswered more) (h : s.phase = .idle) (hu : exec .sessionOpen s = .next u)
    (hp : u.phase = .rxWait) : CutRead more (.writeAck .openSession) s (exec .sessionOpen s)
      (exec .sessionOpen { s with chan := addEvents more s.chan }) := by
  have hc : s.session = .closed := by
    by_contra ho
    obtain ⟨t, ht, hends, -⟩ := refuses_sessionOpen h ho
    obtain rfl := Host.Outcome.next.inj (hu.symm.trans ht)
    rw [hends.phase] at hp
    cases hp
  have hdepth := (discardRx_later s.chan).depth
  cases hd : discardRx s.chan with
  | ioFail c =>
    obtain rfl := Host.Outcome.next.inj (hu.symm.trans (exec_sessionOpen_ioFail h hc hd))
    cases hp
  | sent c =>
    rw [hd] at hdepth
    have hfirst := exec_sessionOpen_sent h hc hd
    have hwhole := exec_sessionOpen_sent (s := { s with chan := addEvents more s.chan }) h hc
      (discardRx_addEvents hm hd)
    obtain ⟨w, d, d', hjob, hacc, hpace, hdw, hland, hr, hr'⟩ :=
      cutRead_enterCommand hm (job := .writeAck .openSession) rfl (hfirst.symm.trans hu) hp
    exact ⟨w, d, d', hjob, hacc, hpace, hdw.trans hdepth, hland, hfirst.trans hr, hwhole.trans hr'⟩

/-- Each of the operations that wait in RX_WAIT begins there a read of a fixed number of bytes. -/
theorem exec_cutRead (hi : i ∈ [Instr.rxReadExact, .rxReadByte, .cmdWrite, .cmdRead, .scanSetTimeout, .sessionOpen])
    (hm : Unanswered more) (h : s.phase = .idle) (hu : exec i s = .next u) (hp : u.phase = .rxWait) :
    ∃ job, jobInstr job = some (rowOf i) ∧ (isCommand job = true ∨ ∃ n, job = .readExact n) ∧
      CutRead more job s (exec i s) (exec i { s with chan := addEvents more s.chan }) := by
  simp only [List.mem_cons, List.not_mem_nil, or_false] at hi
  obtain rfl | rfl | rfl | rfl | rfl | rfl := hi
  · have ho := opened_of_waits rfl h hu hp
    exact ⟨_, rfl, .inr ⟨_, rfl⟩,
      cutRead_of_read (n := s.host.n) fun c => execRxReadExact_opened (s := { s with chan := c }) h ho⟩
  · have ho := opened_of_waits rfl h hu hp
    exact ⟨_, rfl, .inr ⟨_, rfl⟩,
      cutRead_of_read (n := 1) fun c => execRxReadByte_opened (s := { s with chan := c }) h ho⟩
  · have ho := opened_of_waits rfl h hu hp
    have hd := inDomain_of_waits (inDomain := writeDomain s.host) rfl h hu hp
    exact ⟨.writeAck .done, rfl, .inl rfl, cutRead_of_command (f := writeFields s.host.addr s.host.ibuf)
      (fun c => execCmdWrite_opened (s := { s with chan := c }) h ho hd) rfl hm hu hp⟩
  · have ho := opened_of_waits rfl h hu hp
    have hd := inDomain_of_waits (inDomain := readDomain s.host) rfl h hu hp
    exact ⟨.readReply s.host.n, rfl, .inl rfl, cutRead_of_command (f := readFields s.host.addr s.host.n)
      (fun c => execCmdRead_opened (s := { s with chan := c }) h ho hd) rfl hm hu hp⟩
  · have ho := opened_of_waits rfl h hu hp
    have hd : legalTimeout s.host.tmo = true := by
      refine legalTimeout_iff.2 ⟨Nat.pos_of_ne_zero fun hz => ?_, Nat.le_of_not_lt fun hmax => ?_⟩
      · obtain rfl := Host.Outcome.next.inj (hu.symm.trans (execScanSetTimeout_zero h ho hz))
        cases hp
      · obtain rfl := Host.Outcome.next.inj (hu.symm.trans (execScanSetTimeout_tooLarge h ho hmax))
        cases hp
    exact ⟨.writeAck (.setTimeout s.host.tmo), rfl, .inl rfl,
      cutRead_of_command (f := writeFields s.params.addrScanTimeout [timeoutByte s.host.tmo])
      (fun c => execScanSetTimeout_opened (s := { s with chan := c }) h ho hd) rfl hm hu hp⟩
  · exact ⟨_, rfl, .inl rfl, cutRead_sessionOpen hm h hu hp⟩

end

/-! ### Going on -/

/-- A wait for a byte that is not over has used up the events. -/
theorem rxByte_waiting {c c' : Channel} (h : rxByte c = .waiting c') : c'.link = [] := by
  have hempty := takeByte_waiting h
  exact (waitArrival_waiting hempty.1 hempty.2).1

/-- So has a read that waits. -/
theorem readMore_waiting_link {n : Nat} {acc acc' : List Byte} {c c' : Channel}
    (h : readMore n acc c = .waiting acc' c') : c'.link = [] := by
  induction n generalizing acc c with
  | zero => cases h
  | succ n ih =>
    rw [readMore] at h
    cases hr : rxByte c with
    | byte b x => rw [hr] at h; exact ih h
    | ioFail x => rw [hr] at h; cases h
    | waiting x => rw [hr] at h; cases h; exact rxByte_waiting hr

section
variable {i : Instr} {job : Job} (hj : jobInstr job = some (rowOf i))
  (hreads : isCommand job = true ∨ ∃ n, job = .readExact n)
include hj hreads

/-- Reads that are answered alike end alike, or wait alike; the second in a state that may differ in its results, its
operands and what is requested. -/
theorem endRead_landed {x y : State} {answer answer' : ReadAnswer} (h : answer.landed = answer'.landed)
    (hx : x.work.job = job) (hy : ∃ acc, y.work = { x.work with acc := acc }) (hs : y.session = x.session)
    (ht : y.scanTimeout = x.scanTimeout) :
    let t := park (endRead x answer)
    let v := endRead y answer'
    v.phase = t.phase ∧ v.work = t.work ∧ landed v.chan = landed t.chan ∧ v.session = t.session ∧
      v.scanTimeout = t.scanTimeout ∧ (t.phase = .idle → SameResults i t.result v.result) := by
  obtain ⟨acc₀, hy⟩ := hy
  have hyjob : y.work.job = job := by rw [hy]; exact hx
  have hend {c c' : Channel} {t v : State} (hland : landed c = landed c')
      (ha : EndAlike i { x with chan := c } { y with chan := c' } t v) :
      v.phase = (park t).phase ∧ v.work = (park t).work ∧ landed v.chan = landed (park t).chan ∧
        v.session = (park t).session ∧ v.scanTimeout = (park t).scanTimeout ∧
        ((park t).phase = .idle → SameResults i (park t).result v.result) := by
    rw [park_idle ha.first.phase]
    exact ⟨ha.second.phase.trans ha.first.phase.symm, ha.second.work.trans ha.first.work.symm,
      by rw [ha.first.chan, ha.second.chan]; exact hland.symm, ha.session, ha.scanTimeout, fun _ => ha.results⟩
  cases answer with
  | done acc c =>
    cases answer' with
    | done acc' c' =>
      obtain ⟨rfl, hland⟩ := ReadAnswer.done.inj h
      dsimp only [endRead]
      rw [hx, hyjob]
      exact hend hland (endAlike_completeJob (x := { x with chan := c }) (y := { y with chan := c' }) hs ht hj acc
        (hreads.elim (.inr ∘ .inr) .inl))
    | ioFail c' | waiting acc' c' => cases h
  | ioFail c =>
    cases answer' with
    | ioFail c' =>
      exact hend (ReadAnswer.ioFail.inj h)
        (endAlike_raise (x := { x with chan := c }) (y := { y with chan := c' }) hs ht hj .ioFailure)
    | done acc' c' | waiting acc' c' => cases h
  | waiting acc c =>
    cases answer' with
    | waiting acc' c' =>
      obtain ⟨rfl, hland⟩ := ReadAnswer.waiting.inj h
      dsimp only [endRead]
      rw [hy]
      exact ⟨rfl, rfl, hland.symm, hs, ht, nofun⟩
    | done acc' c' | ioFail c' => cases h

/-- An operation that waits at the end of the first part goes on with the second as on the whole. -/
theorem CutRead.goesOn {more : List LinkEvent} {s u : State} {first whole : Exec} (hc : CutRead more job s first whole)
    (hm : Unanswered more) (hd : s.chan.rxDepth = none) (hu : first = .next u) (hp : u.phase = .rxWait) :
    ∃ t v, whole = .next t ∧ step { u with chan := { u.chan with link := more }, requests := [] } = .next v ∧
      v.phase = t.phase ∧ v.work = t.work ∧ landed v.chan = landed t.chan ∧ v.session = t.session ∧
      v.scanTimeout = t.scanTimeout ∧ (t.phase = .idle → SameResults i t.result v.result) := by
  obtain ⟨w, d, d', rfl, hacc, hpace, hdepth, hland, rfl, rfl⟩ := hc
  have hstop (hidle : (endRead (enter .rxWait w { s with chan := d }) (readMore (jobBytes w.job) [] d)).phase = .idle) :
      False := by
    obtain rfl := Host.Outcome.next.inj hu
    rw [park_idle hidle, hidle] at hp
    cases hp
  cases hr : readMore (jobBytes w.job) [] d with
  | done acc c =>
    rw [hr] at hstop
    exact absurd (endAlike_completeJob (x := { enter .rxWait w { s with chan := d } with chan := c }) rfl rfl hj acc
      (hreads.elim (.inr ∘ .inr) .inl)).first.phase hstop
  | ioFail c => rw [hr] at hstop; exact absurd rfl hstop
  | waiting acc c =>
    rw [readOn, hr] at hu
    obtain rfl := Host.Outcome.next.inj hu
    have hlink := readMore_waiting_link hr
    have hsame := (readMore_landed (k := jobBytes w.job) (acc := []) hland).trans
      (readMore_addEvents hm (hdepth.trans hd) hr)
    rw [addEvents_nil hlink, List.length_nil, Nat.add_zero] at hsame
    exact ⟨_, _, rfl, (step_no_request rfl).trans (advance_endRead rfl hpace hreads),
      endRead_landed hj hreads hsame rfl ⟨acc, rfl⟩ rfl rfl⟩

end

end Sys2Proof.Machine
end

section
/-! SUPPORT. An operation that runs one phase a step, against one that runs whole (10_state.md R24; logs 4, 5): phase by
phase the two states differ in their pace, and in what is unspecified. -/

namespace Sys2Proof.Machine

/-! ### States that differ in pace -/

/-- The state with another pace, and other values where they are unspecified while an operation runs. -/
def paced (r : Results) (k : Nat) (p : Pace) (s : State) : State :=
  { s with result := r, free := k, work := { s.work with pace := p } }

section
variable {i : Instr} {s t v : State} {r : Results} {k : Nat} {p : Pace}

theorem SameEnd.refl (i : Instr) (t : State) : SameEnd i t t :=
  ⟨rfl, rfl, rfl, rfl, rfl, rfl, rfl, rfl, fun _ => rfl, fun _ _ => rfl, fun _ _ => rfl, fun _ _ _ => rfl,
    fun _ _ _ => rfl, fun _ _ _ => rfl⟩

theorem SameEnd.eq_paced (h : SameEnd i t v) : v = paced v.result v.free v.work.pace t := by
  obtain ⟨hphase, hwork, hchan, hhost, hrequests, hsession, htimeout, hparams, -⟩ := h
  obtain ⟨⟩ := v
  simp only at hphase hwork hchan hhost hrequests hsession htimeout hparams
  rw [paced, ← hwork, hphase, hchan, hhost, hrequests, hsession, htimeout, hparams]

/-- While the operation runs that is all there is to being the same. -/
theorem sameEnd_paced (h : t.phase ≠ .idle) : SameEnd i t (paced r k p t) :=
  ⟨rfl, rfl, rfl, rfl, rfl, rfl, rfl, rfl, fun hi => absurd hi h, fun hi => absurd hi h, fun hi => absurd hi h,
    fun hi => absurd hi h, fun hi => absurd hi h, fun hi => absurd hi h⟩

/-- Once it has ended its results count. -/
theorem EndAlike.sameEnd (h : EndAlike i s (paced r k p s) t v) : SameEnd i t v := by
  obtain ⟨⟨hphase, hwork, hchan, hhost, hrequests, hparams⟩, hv, hsession, htimeout, hr⟩ := h
  exact ⟨hv.phase.trans hphase.symm, by rw [hv.work, hwork], hv.chan.trans hchan.symm, hv.host.trans hhost.symm,
    hv.requests.trans hrequests.symm, hsession, htimeout, hv.params.trans hparams.symm, fun _ => hr.outcome,
    fun _ => hr.info, fun _ => hr.crcout, fun _ => hr.olen, fun _ => hr.obuf, fun _ => hr.scan⟩

/-- An operation that stops at the end of its step has not ended, or is as it was. -/
theorem SameEnd.park (h : SameEnd i t v) : SameEnd i (park t) v := by
  obtain ⟨-, hpark⟩ | ⟨hp, hpark⟩ := park_cases t <;> rw [hpark]
  · exact h
  · obtain ⟨hphase, hwork, hchan, hhost, hrequests, hsession, htimeout, hparams, -⟩ := h
    exact ⟨hphase, hwork, hchan, hhost, hrequests, hsession, htimeout, hparams, fun hi => absurd hi hp,
      fun hi => absurd hi hp, fun hi => absurd hi hp, fun hi => absurd hi hp, fun hi => absurd hi hp,
      fun hi => absurd hi hp⟩

end

/-! ### Phases in their order -/

/-- The phases an operation passes from the one it stands in (10_state.md R24). -/
def phasesOn (job : Job) : Phase → List Phase
  | .idle => []
  | .build => if isCommand job then [.build, .tx, .rxWait, .parse] else [.build]
  | .tx => if isCommand job then [.tx, .rxWait, .parse] else [.tx]
  | .rxWait => if isCommand job then [.rxWait, .parse] else [.rxWait]
  | .parse => [.parse]
  | .scanFirst => [.scanFirst, .scanLines]
  | .scanLines => [.scanLines]

/-- It passes the one it stands in first. -/
theorem phasesOn_zero {p : Phase} (h : p ≠ .idle) (job : Job) : (phasesOn job p)[0]? = some p := by
  cases p with
  | idle => exact absurd rfl h
  | build | tx | rxWait => unfold phasesOn; dsimp only; split <;> rfl
  | parse | scanFirst | scanLines => rfl

/-- From `s` one phase leads to `t`, and on the state of another pace to `v`: to ends alike, or to the same phase, the
one the operation stands in or the next of its phases. -/
inductive StepsAlike (i : Instr) (r : Results) (k : Nat) (p : Pace) (s : State) : State → State → Prop
  | ended {t v : State} (c : Channel) (h : EndAlike i { s with chan := c } (paced r k p { s with chan := c }) t v) :
    StepsAlike i r k p s t v
  | phase (q : Phase) (w : Work) (c : Channel) (hi : q ≠ .idle) (hjob : w.job = s.work.job)
    (hq : q = s.phase ∨ phasesOn s.work.job s.phase = s.phase :: phasesOn s.work.job q) :
    StepsAlike i r k p s (enter q w { s with chan := c }) (paced r k p (enter q w { s with chan := c }))

section
variable {i : Instr} {s t : State} {r : Results} {k : Nat} {p : Pace}

/-! ### What each phase answers -/

section
variable {n tmo : Nat} {acc : List Byte} {c : Channel}

theorem phaseStep_build_host (hp : s.phase = .build) (hj : ¬ isCommand s.work.job = true) :
    phaseStep s = .next (finish { s.result with
      outcome := .ok, obuf := buildFrame s.work.fields, olen := (frameBody s.work.fields).length + 4 } s) := by
  rw [phaseStep, hp]
  dsimp only
  rw [buildPhase, if_neg hj]

theorem phaseStep_receiveUntil (hp : s.phase = .rxWait) (hj : s.work.job = .readDeadline n tmo) :
    phaseStep s = .next (receiveUntil n tmo s) := by
  rw [phaseStep, hp]
  dsimp only
  rw [rxPhase, hj]

theorem receiveUntil_done (h : readFrom s.work.tStart n tmo s.chan = .done acc c) : receiveUntil n tmo s =
    finish { s.result with outcome := .ok, obuf := acc, olen := n } { s with chan := c } := by
  rw [receiveUntil, h]

theorem receiveUntil_noData (h : readFrom s.work.tStart n tmo s.chan = .expired [] c) : receiveUntil n tmo s =
    finish { s.result with outcome := .noData, olen := 0 } { s with chan := c } := by
  rw [receiveUntil, h]

theorem receiveUntil_partial {b : Byte} (h : readFrom s.work.tStart n tmo s.chan = .expired (b :: acc) c) :
    receiveUntil n tmo s = raise (.partialRead (b :: acc).length) { s with chan := c } := by
  rw [receiveUntil, h]

theorem receiveUntil_ioFail (h : readFrom s.work.tStart n tmo s.chan = .ioFail c) :
    receiveUntil n tmo s = raise .ioFailure { s with chan := c } := by
  rw [receiveUntil, h]

theorem phaseStep_first (hp : s.phase = .scanFirst) : phaseStep s = .next (firstPhase s) := by
  rw [phaseStep, hp]

theorem firstPhase_ioFail (h : readFrom s.work.tStart 1 s.scanTimeout s.chan = .ioFail c) :
    firstPhase s = raise .ioFailure { s with chan := c } := by
  rw [firstPhase, h]

theorem firstPhase_none (h : readFrom s.work.tStart 1 s.scanTimeout s.chan = .expired acc c ∨
      readFrom s.work.tStart 1 s.scanTimeout s.chan = .done acc c ∧ byteAt acc 0 = Config.noResultCode) :
    firstPhase s = finishWith .noResult { s with chan := c } := by
  obtain h | ⟨h, hc⟩ := h <;> rw [firstPhase, h]
  exact if_pos hc

theorem firstPhase_code (h : readFrom s.work.tStart 1 s.scanTimeout s.chan = .done acc c)
    (hc : byteAt acc 0 ≠ Config.noResultCode) :
    firstPhase s = enter .scanLines { s.work with classCode := byteAt acc 0 } { s with chan := c } := by
  rw [firstPhase, h]
  exact if_neg hc

theorem phaseStep_lines (hp : s.phase = .scanLines) : phaseStep s = linesPhase s := by
  rw [phaseStep, hp]

theorem linesPhase_done {lines : List (List Byte)} {c : Channel}
    (h : scanLoop (scanFuel s.chan) s.params s.work.cur s.work.lines s.chan = .done lines c) :
    linesPhase s = .next (classify s.work.classCode lines { s with chan := c }) := by
  rw [linesPhase, h]

theorem linesPhase_ioFail {c : Channel}
    (h : scanLoop (scanFuel s.chan) s.params s.work.cur s.work.lines s.chan = .ioFail c) :
    linesPhase s = .next (raise .ioFailure { s with chan := c }) := by
  rw [linesPhase, h]

theorem linesPhase_waiting {cur : List Byte} {lines : List (List Byte)} {c : Channel}
    (h : scanLoop (scanFuel s.chan) s.params s.work.cur s.work.lines s.chan = .waiting cur lines c) :
    linesPhase s = .next (enter .scanLines { s.work with cur := cur, lines := lines } { s with chan := c }) := by
  rw [linesPhase, h]

end

/-- Ends with results that are the same as far as they are defined. -/
theorem StepsAlike.finished {r₁ r₂ : Results} (c : Channel) (hr : SameResults i r₁ r₂) :
    StepsAlike i r k p s (finish r₁ { s with chan := c }) (finish r₂ { paced r k p s with chan := c }) :=
  .ended c (endAlike_finish (x := { s with chan := c }) (y := paced r k p { s with chan := c }) rfl rfl hr)

variable (hj : jobInstr s.work.job = some (rowOf i))
include hj

/-- The same error. -/
theorem StepsAlike.raised (e : Error) (c : Channel) :
    StepsAlike i r k p s (raise e { s with chan := c }) (raise e { paced r k p s with chan := c }) :=
  .ended c (endAlike_raise (x := { s with chan := c }) (y := paced r k p { s with chan := c }) rfl rfl hj e)

/-- The same bytes, of which the job does the same. -/
theorem StepsAlike.completed (acc : List Byte) (c : Channel) (h : (∃ n, s.work.job = .readExact n) ∨
      (∃ cap check, s.work.job = .frameParse cap check) ∨ isCommand s.work.job = true) :
    StepsAlike i r k p s (completeJob s.work.job acc { s with chan := c })
      (completeJob s.work.job acc { paced r k p s with chan := c }) :=
  .ended c (endAlike_completeJob (x := { s with chan := c }) (y := paced r k p { s with chan := c }) rfl rfl hj acc h)

theorem build_stepsAlike (hp : s.phase = .build) (hf : phaseFits s) (h : phaseStep s = .next t) :
    ∃ v, phaseStep (paced r k p s) = .next v ∧ StepsAlike i r k p s t v := by
  by_cases hcmd : isCommand s.work.job = true
  · obtain rfl := Host.Outcome.next.inj (h.symm.trans (phaseStep_build hp hcmd))
    exact ⟨_, phaseStep_build (s := paced r k p s) hp hcmd,
      .phase .tx _ s.chan nofun rfl (.inr (by rw [hp]; simp [phasesOn, hcmd]))⟩
  · obtain rfl := Host.Outcome.next.inj (h.symm.trans (phaseStep_build_host hp hcmd))
    have hjob : s.work.job = .frameBuild := by
      unfold phaseFits at hf
      rw [hp] at hf
      exact hf.2.resolve_right hcmd
    exact ⟨_, phaseStep_build_host (s := paced r k p s) hp hcmd,
      .finished s.chan (sameResults_bytes hj (by rw [hjob]; nofun) _ _ _ _)⟩

theorem tx_stepsAlike (hp : s.phase = .tx) (hf : phaseFits s) (h : phaseStep s = .next t) :
    ∃ v, phaseStep (paced r k p s) = .next v ∧ StepsAlike i r k p s t v := by
  unfold phaseFits at hf
  rw [hp] at hf
  cases htx : transmit s.chan.link s.work.frame s.chan with
  | ioFail c =>
    obtain rfl := Host.Outcome.next.inj (h.symm.trans (phaseStep_tx_ioFail hp htx))
    exact ⟨_, phaseStep_tx_ioFail (s := paced r k p s) hp htx, .raised hj _ c⟩
  | sent c =>
    obtain ⟨-, hjob | hcmd⟩ := hf
    · obtain rfl := Host.Outcome.next.inj (h.symm.trans (phaseStep_tx_send hp hjob htx))
      exact ⟨_, phaseStep_tx_send (s := paced r k p s) hp hjob htx,
        .finished c (sameResults_outcome hj (by rw [hjob]; rfl) rfl (by rw [hjob]; nofun) _ _)⟩
    · obtain rfl := Host.Outcome.next.inj (h.symm.trans (phaseStep_tx_command hp hcmd htx))
      exact ⟨_, phaseStep_tx_command (s := paced r k p s) hp hcmd htx,
        .phase .rxWait _ c nofun rfl (.inr (by rw [hp]; simp [phasesOn, hcmd]))⟩

theorem rx_stepsAlike (hp : s.phase = .rxWait) (hf : phaseFits s) (h : phaseStep s = .next t) :
    ∃ v, phaseStep (paced r k p s) = .next v ∧ StepsAlike i r k p s t v := by
  unfold phaseFits at hf
  rw [hp] at hf
  obtain ⟨n, tmo, hjob⟩ | ⟨hreads, -⟩ := hf
  · obtain rfl := Host.Outcome.next.inj (h.symm.trans (phaseStep_receiveUntil hp hjob))
    refine ⟨_, phaseStep_receiveUntil (s := paced r k p s) hp hjob, ?_⟩
    cases hr : readFrom s.work.tStart n tmo s.chan with
    | done acc c =>
      rw [receiveUntil_done hr, receiveUntil_done (s := paced r k p s) hr]
      exact .finished c (sameResults_bytes hj (by rw [hjob]; nofun) _ _ _ _)
    | expired acc c =>
      cases acc with
      | nil =>
        rw [receiveUntil_noData hr, receiveUntil_noData (s := paced r k p s) hr]
        exact .finished c (sameResults_noData hj (by rw [hjob]; nofun) _ _)
      | cons b acc =>
        rw [receiveUntil_partial hr, receiveUntil_partial (s := paced r k p s) hr]
        exact .raised hj _ c
    | ioFail c =>
      rw [receiveUntil_ioFail hr, receiveUntil_ioFail (s := paced r k p s) hr]
      exact .raised hj _ c
  · obtain rfl := Host.Outcome.next.inj (h.symm.trans (phaseStep_receive hp hreads))
    refine ⟨_, phaseStep_receive (s := paced r k p s) hp hreads, ?_⟩
    cases hr : readMore (jobBytes s.work.job - s.work.acc.length) s.work.acc s.chan with
    | done acc c =>
      rw [receive_done hr, receive_done (s := paced r k p s) hr]
      by_cases hcmd : isCommand s.work.job = true
      · rw [if_pos hcmd, if_pos (show isCommand (paced r k p s).work.job = true from hcmd)]
        exact .phase .parse _ c nofun rfl (.inr (by rw [hp]; simp [phasesOn, hcmd]))
      · rw [if_neg hcmd, if_neg (show ¬ isCommand (paced r k p s).work.job = true from hcmd)]
        exact .completed hj acc c (.inl (hreads.resolve_left hcmd))
    | ioFail c =>
      rw [receive_ioFail hr, receive_ioFail (s := paced r k p s) hr]
      exact .raised hj _ c
    | waiting acc c =>
      rw [receive_waiting hr, receive_waiting (s := paced r k p s) hr]
      exact .phase .rxWait _ c nofun rfl (.inl hp.symm)

theorem parse_stepsAlike (hp : s.phase = .parse) (hf : phaseFits s) (h : phaseStep s = .next t) :
    ∃ v, phaseStep (paced r k p s) = .next v ∧ StepsAlike i r k p s t v := by
  have hparse {x : State} (hx : x.phase = .parse) : phaseStep x = .next (completeJob x.work.job x.work.acc x) := by
    rw [phaseStep, hx]
  unfold phaseFits at hf
  rw [hp] at hf
  obtain rfl := Host.Outcome.next.inj (h.symm.trans (hparse hp))
  exact ⟨_, hparse (x := paced r k p s) hp,
    .completed hj _ s.chan (.inr (hf.imp id And.left))⟩

theorem first_stepsAlike (hp : s.phase = .scanFirst) (hf : phaseFits s) (h : phaseStep s = .next t) :
    ∃ v, phaseStep (paced r k p s) = .next v ∧ StepsAlike i r k p s t v := by
  unfold phaseFits at hf
  rw [hp] at hf
  have hnone (x y : Results) : SameResults i { x with outcome := .noResult } { y with outcome := .noResult } :=
    sameResults_outcome hj (o := .noResult) (by rw [hf]; rfl) rfl (fun _ => nofun) x y
  obtain rfl := Host.Outcome.next.inj (h.symm.trans (phaseStep_first hp))
  refine ⟨_, phaseStep_first (s := paced r k p s) hp, ?_⟩
  cases hr : readFrom s.work.tStart 1 s.scanTimeout s.chan with
  | ioFail c =>
    rw [firstPhase_ioFail hr, firstPhase_ioFail (s := paced r k p s) hr]
    exact .raised hj _ c
  | expired acc c =>
    rw [firstPhase_none (.inl hr), firstPhase_none (s := paced r k p s) (.inl hr)]
    exact .finished c (hnone _ _)
  | done acc c =>
    by_cases hcode : byteAt acc 0 = Config.noResultCode
    · rw [firstPhase_none (.inr ⟨hr, hcode⟩), firstPhase_none (s := paced r k p s) (.inr ⟨hr, hcode⟩)]
      exact .finished c (hnone _ _)
    · rw [firstPhase_code hr hcode, firstPhase_code (s := paced r k p s) hr hcode]
      exact .phase .scanLines _ c nofun rfl (.inr (by rw [hp]; rfl))

/-- A classification depends on the code and the lines alone. -/
theorem classify_stepsAlike (hjob : s.work.job = .scanLines) (code : Byte) (lines : List (List Byte)) (c : Channel) :
    StepsAlike i r k p s (classify code lines { s with chan := c })
      (classify code lines { paced r k p s with chan := c }) := by
  have hscan (x : ScanResult) (r₁ r₂ : Results) :
      SameResults i { r₁ with outcome := .ok, scan := x } { r₂ with outcome := .ok, scan := x } :=
    ⟨rfl, fun h => absurd h (by simp), fun h => absurd h (ne_crcCompute_of_job hj),
      fun _ hi => absurd (returnsBytes_of_job hj hi) (by rw [hjob]; nofun),
      fun _ hi => absurd (returnsBytes_of_job hj hi) (by rw [hjob]; nofun), fun _ _ => rfl⟩
  unfold classify
  by_cases hlines : lines = []
  · rw [if_pos hlines, if_pos hlines]
    exact .finished c (sameResults_outcome hj (o := .noResult) (by rw [hjob]; rfl) rfl (fun _ => nofun) _ _)
  · rw [if_neg hlines, if_neg hlines]
    change StepsAlike i r k p s _ (match classMap s.params code with
      | .none => _
      | .linear tag => _
      | .matrix tag => _)
    cases hmap : classMap s.params code with
    | none => exact .raised hj _ c
    | linear tag => exact .finished c (hscan _ _ _)
    | matrix tag => exact .finished c (hscan _ _ _)

theorem lines_stepsAlike (hp : s.phase = .scanLines) (hf : phaseFits s) (h : phaseStep s = .next t) :
    ∃ v, phaseStep (paced r k p s) = .next v ∧ StepsAlike i r k p s t v := by
  unfold phaseFits at hf
  rw [hp] at hf
  rw [phaseStep_lines hp] at h
  rw [phaseStep_lines (s := paced r k p s) hp]
  cases hr : scanLoop (scanFuel s.chan) s.params s.work.cur s.work.lines s.chan with
  | done lines c =>
    obtain rfl := Host.Outcome.next.inj (h.symm.trans (linesPhase_done hr))
    exact ⟨_, linesPhase_done (s := paced r k p s) hr, classify_stepsAlike hj hf.1 _ lines c⟩
  | ioFail c =>
    obtain rfl := Host.Outcome.next.inj (h.symm.trans (linesPhase_ioFail hr))
    exact ⟨_, linesPhase_ioFail (s := paced r k p s) hr, .raised hj _ c⟩
  | waiting cur lines c =>
    obtain rfl := Host.Outcome.next.inj (h.symm.trans (linesPhase_waiting hr))
    exact ⟨_, linesPhase_waiting (s := paced r k p s) hr, .phase .scanLines _ c nofun rfl (.inl hp.symm)⟩
  | overflow f =>
    rw [linesPhase, hr] at h
    cases h

/-- So it is with every phase of a running operation. -/
theorem phaseStep_alike (hi : s.phase ≠ .idle) (hf : phaseFits s) (h : phaseStep s = .next t) :
    ∃ v, phaseStep (paced r k p s) = .next v ∧ StepsAlike i r k p s t v := by
  cases hp : s.phase with
  | idle => exact absurd hp hi
  | build => exact build_stepsAlike hj hp hf h
  | tx => exact tx_stepsAlike hj hp hf h
  | rxWait => exact rx_stepsAlike hj hp hf h
  | parse => exact parse_stepsAlike hj hp hf h
  | scanFirst => exact first_stepsAlike hj hp hf h
  | scanLines => exact lines_stepsAlike hj hp hf h

end

/-! ### Phase by phase to the end -/

section
variable {i : Instr} {r : Results} {k : Nat} {p : Pace} {s t u v : State}

theorem StepsAlike.sameEnd (h : StepsAlike i r k p s t v) : SameEnd i t v := by
  cases h with
  | ended c h => exact h.sameEnd
  | phase q w c hi hjob hq => exact sameEnd_paced hi

theorem StepsAlike.requests (h : StepsAlike i r k p s t v) : t.requests = s.requests := by
  cases h with
  | ended c h => exact h.first.requests
  | phase q w c hi hjob hq => rfl

/-- An operation that has not ended keeps its job and its pace, and stands where it stood or in its next phase. -/
theorem StepsAlike.goesOn (h : StepsAlike i r k p s t v) (hi : t.phase ≠ .idle) :
    t.work.job = s.work.job ∧ v.work.pace = p ∧
      (t.phase = s.phase ∨ phasesOn s.work.job s.phase = s.phase :: phasesOn s.work.job t.phase) := by
  cases h with
  | ended c h => exact absurd h.first.phase hi
  | phase q w c hi hjob hq => exact ⟨hjob, rfl, hq⟩

/-- A step of an operation that runs phase by phase is a phase of it. -/
theorem step_byPhase (hreq : s.requests = []) (hi : s.phase ≠ .idle) (hp : s.work.pace = .byPhase) :
    step s = phaseStep s := by
  rw [step_no_request hreq, advance, if_neg hi, hp]

theorem core_run_succ {M : Host.Core} (n : Nat) {s u : M.State} (h : M.step s = .next u) :
    M.run (n + 1) s = M.run n u := by
  rw [Host.Core.run, h]

theorem run_succ (n : Nat) (h : step s = .next u) : core.run (n + 1) s = core.run n u := core_run_succ (M := core) n h

/-- Running whole to where it ends or waits, an operation passes the phases that it passes one a step. -/
theorem run_of_settle {k : Nat} (hi : s.phase ≠ .idle) (hf : phaseFits s) (hj : jobInstr s.work.job = some (rowOf i))
    (hreq : s.requests = []) (hk : phasesLeft s.phase ≤ k) (h : settle k s = .next t) (hsame : SameEnd i s u)
    (hu : u.work.pace = .byPhase) :
    ∃ v n, core.run n u = .next v ∧ SameEnd i t v ∧ n ≤ (phasesOn s.work.job s.phase).length ∧
      ∀ m < n, ∃ w, core.run m u = .next w ∧ (phasesOn s.work.job s.phase)[m]? = some w.phase := by
  induction k generalizing s u with
  | zero =>
    exact absurd hk (Nat.not_le.2 (phasesLeft_pos hi))
  | succ k ih =>
    have hu₀ : (phasesOn s.work.job s.phase)[0]? = some u.phase := by
      rw [phasesOn_zero hi, hsame.phase]
    have hlen : 1 ≤ (phasesOn s.work.job s.phase).length := (List.getElem?_eq_some_iff.1 hu₀).1
    rw [settle] at h
    obtain ⟨x, hx, h⟩ := andThen_eq_next.1 h
    obtain ⟨y, hy, halike⟩ :=
      phaseStep_alike (r := u.result) (k := u.free) (p := u.work.pace) hj hi hf hx
    rw [← hsame.eq_paced] at hy
    have hstep : step u = .next y :=
      (step_byPhase (hsame.requests.trans hreq) (by rw [hsame.phase]; exact hi) hu).trans hy
    by_cases hstop : x.phase = .idle ∨ x.phase = s.phase
    · rw [if_pos hstop] at h
      cases h
      refine ⟨y, 1, run_succ 0 hstep, halike.sameEnd, hlen, fun m hm => ?_⟩
      obtain rfl := Nat.lt_one_iff.1 hm
      exact ⟨u, rfl, hu₀⟩
    · rw [if_neg hstop] at h
      obtain ⟨hidle, hmoved⟩ := not_or.1 hstop
      obtain ⟨hjob, hpace, hnext⟩ := halike.goesOn hidle
      have hproceeds := phaseStep_proceeds hi hf hx
      have hleft : phasesLeft x.phase < phasesLeft s.phase :=
        ((hproceeds.goesOn hidle).2.2).resolve_left fun hw => hmoved hw.1
      obtain ⟨v, n, hrun, hend, hn, hphases⟩ := ih hidle hproceeds.fits (hjob ▸ hj) (halike.requests.trans hreq)
        (by omega) h halike.sameEnd (hpace.trans hu)
      have hon : phasesOn s.work.job s.phase = s.phase :: phasesOn x.work.job x.phase := by
        rw [hjob]
        exact hnext.resolve_left hmoved
      rw [hon]
      refine ⟨v, n + 1, (run_succ n hstep).trans hrun, hend, Nat.succ_le_succ hn, fun m hm => ?_⟩
      cases m with
      | zero => exact ⟨u, rfl, by rw [hsame.phase]; rfl⟩
      | succ m =>
        obtain ⟨w, hw, hphase⟩ := hphases m (Nat.lt_of_succ_lt_succ hm)
        exact ⟨w, (run_succ m hstep).trans hw, hphase⟩

/-- No job is one of an operation without phases. -/
theorem jobInstr_ne_of_no_phase {job : Job} (h : i ∈ [Instr.crcCompute, .crcVerify, .rxDiscard, .sessionClose]) :
    jobInstr job ≠ some i := by
  simp only [List.mem_cons, List.not_mem_nil, or_false] at h
  cases job with
  | writeAck next => obtain rfl | rfl | rfl | rfl := h <;> cases next <;> nofun
  | _ => obtain rfl | rfl | rfl | rfl := h <;> nofun

/-- An operation that starts, starts in the first of its phases (10_state.md R24). -/
theorem start_phasesOn (hw : ∀ status p crc, i ≠ .wireReply status p crc) (h : start i s = .next u)
    (hi : u.phase ≠ .idle) : phasesOn u.work.job u.phase = phasesOf i := by
  have hguarded {x : State} (h : whenOpen s (.next x) = .next u) : x = u := by
    obtain ⟨-, ⟨-, h⟩ | ⟨-, rfl⟩⟩ := whenOpen_next h
    · exact Host.Outcome.next.inj h
    · exact absurd rfl hi
  have hrow := ((start_started hw h).job hi).1
  cases i with
  | crcCompute | crcVerify | rxDiscard | sessionClose => exact absurd hrow (jobInstr_ne_of_no_phase (by simp [rowOf]))
  | txWriteAll | rxReadExact | rxReadByte | scanRead | wireWrite _ _ _ | wireRead _ _ _ | wirePersist _ =>
    obtain rfl := hguarded h
    rfl
  | rxReadDeadline =>
    obtain rfl := hguarded h
    split_ifs at hi ⊢
    · exact absurd rfl hi
    · rfl
  | cmdWrite | cmdRead =>
    obtain rfl := hguarded h
    split_ifs at hi ⊢
    · rfl
    · exact absurd rfl hi
  | scanSetTimeout =>
    obtain rfl := hguarded h
    split_ifs at hi ⊢
    · exact absurd rfl hi
    · exact absurd rfl hi
    · rfl
  | frameBuild =>
    obtain ⟨-, h⟩ := whenIdle_next h
    obtain rfl := Host.Outcome.next.inj h
    split_ifs at hi ⊢
    · rfl
    · exact absurd rfl hi
  | frameParse =>
    obtain ⟨-, h⟩ := whenIdle_next h
    obtain rfl := Host.Outcome.next.inj h
    rfl
  | sessionOpen =>
    obtain ⟨-, h⟩ := whenIdle_next h
    obtain rfl := Host.Outcome.next.inj h
    split_ifs at hi ⊢
    · split at hi
      · exact absurd rfl hi
      · rfl
    · exact absurd rfl hi
  | wireReply status p crc => exact absurd rfl (hw status p crc)

end

/-- Settles O30: an operation that waits has begun a read that goes on as on the whole link; one that runs phase by
phase passes, one a step, the phases that it passes whole. -/
theorem waitingIsNotSeenInTheResult : Obligations.WaitingIsNotSeenInTheResult := by
  refine ⟨fun i s u l₁ l₂ hi h hc hl hm hu hp => ?cut, fun i s t h hreq hw ht => ?phased⟩
  case cut =>
    have hwhole : { s with chan := addEvents l₂ { s.chan with link := l₁ } } = s := by
      rw [addEvents, ← hl]
    obtain ⟨job, hj, hreads, hcut⟩ := exec_cutRead (s := { s with chan := { s.chan with link := l₁ } }) hi hm h hu hp
    rw [hwhole] at hcut
    obtain ⟨t, v, ht, hv, hphase, hwork, hchan, hsession, htimeout, hr⟩ :=
      hcut.goesOn hj hreads hm (calm_iff.1 hc).1 hu hp
    refine ⟨t, v, ht, hv, hphase, hwork, hchan, hsession, htimeout, fun hidle => (hr hidle).outcome,
      fun hidle hok hi => ?_⟩
    have hbytes : i ∈ [Instr.frameBuild, .frameParse, .rxReadExact, .rxReadDeadline, .rxReadByte, .cmdRead] := by
      simp only [List.mem_cons, List.not_mem_nil, or_false] at hi ⊢
      tauto
    exact ⟨(hr hidle).obuf hok hbytes, (hr hidle).olen (.inl hok) hbytes⟩
  case phased =>
    obtain ⟨x, hx, hst, ⟨hidle, rfl⟩ | ⟨hidle, y, hy, -, rfl⟩⟩ := exec_cases hw ht
    · refine ⟨t, t, 0, ?_, rfl, .refl i t, Nat.zero_le _, nofun⟩
      rw [startPhased, hx, andThen_next, if_pos hidle]
    · obtain ⟨v, n, hrun, hend, hn, hphases⟩ := run_of_settle (i := i)
        (u := suspend x.phase { x.work with pace := .byPhase } x) hidle hst.fits (hst.job hidle).1
        (hst.goes.requests.trans hreq) (phasesLeft_le _) hy (sameEnd_paced hidle) rfl
      rw [start_phasesOn hw hx hidle] at hn hphases
      refine ⟨_, v, n, ?_, hrun, hend.park, hn, hphases⟩
      rw [startPhased, hx, andThen_next, if_neg hidle]

end Sys2Proof.Machine
end
